-- ==== Sys2Proof/Word.lean ====
section
/-! DEFINITION. The word type of the block's registers and the notation of rules R9 and R11: wrapping an
integer into a 64-bit word, reading a word as unsigned or as two's complement. -/

namespace Sys2Proof

/-- A 64-bit register as the host sees it (R20). -/
abbrev Word := BitVec 64

/-- One byte of BITBUF (R39). -/
abbrev Byte := BitVec 8

/-- R11: `wrap64(z) = z mod 2^64`. -/
def wrap64 (z : Int) : Word := BitVec.ofInt 64 z

/-- R11: `u64(w)`, the word as an unsigned integer. -/
def u64 (w : Word) : Nat := w.toNat

/-- R11: `s64(w)`, the word as a two's-complement integer. -/
def s64 (w : Word) : Int := w.toInt

end Sys2Proof
end

