-- ==== Sys2Proof/Config.lean ====
section
/-! DEFINITION. Constants the spec fixes for every instance of the block: the parameters of rule R7, the
identity value of rule R21, the legal range and reference value of BITBUF_BYTES (rule R8) and the host's
status-flag masks (rule R243). BITBUF_BYTES itself, the instance's one open parameter, is the field
`bitbufBytes` of State (log 1). -/

namespace Sys2Proof.Config

/-- R7 `NCH`: channels per shot. -/
def nch : Nat := 9

/-- R7 `NRET`: returns per channel. -/
def nret : Nat := 4

/-- R7 `MAXP`: packets per channel. -/
def maxp : Nat := 14

/-- R7 `NSMP`: samples per packet. -/
def nsmp : Nat := 64

/-- R7 `SMPW`: sample width in bits. -/
def smpw : Nat := 10

/-- R37: the greatest legal waveform sample. -/
def maxSample : Nat := 1023

/-- R21: the constant the ID register reads, ASCII "GDC1" over the document edition 7. -/
def idValue : Word := 0x4744433100000007#64

/-- R38: words of the record memory. -/
def recWords : Nat := 328

/-- R37: words of the sample memory. -/
def smpWords : Nat := 8064

/-- R8: the reference value of BITBUF_BYTES. -/
def referenceBitbufBytes : Nat := 16384

/-- R8: the legal values of BITBUF_BYTES, 64 … 2^32 − 2^16. -/
abbrev legalBitbufBytes (n : Nat) : Prop := 64 ≤ n ∧ n ≤ 2 ^ 32 - 2 ^ 16

/-- R243: host constants; no rule of the block depends on them. -/
def manuallyInvalid : Word := 0x1#64
/-- R243, host constant. -/
def filterInvalid : Word := 0x2#64
/-- R243, host constant. -/
def suspect : Word := 0x4#64
/-- R243, host constant. -/
def reference : Word := 0x8#64

end Sys2Proof.Config
end

