-- ==== Sys2Proof/Syntax.lean ====
section
/-! DEFINITION. The command set: one constructor per row of the opcode table (R93), its operands being the
fields of its format (R91, R92) at the widths the command word gives them. -/

namespace Sys2Proof

/-- The nineteen commands of R93. -/
inductive Instr where
  /-- 0x00, R120 -/
  | nop
  /-- 0x01, R121; `W = CMD[14:8]` -/
  | bpack32 (w : BitVec 7)
  /-- 0x02, R122 -/
  | bunpack32 (w : BitVec 7)
  /-- 0x03, R123 -/
  | bpack64 (w : BitVec 7)
  /-- 0x04, R124 -/
  | bunpack64 (w : BitVec 7)
  /-- 0x10, R150 -/
  | geoMode
  /-- 0x11, R151 -/
  | geoLatEnc
  /-- 0x12, R152 -/
  | geoLatDec
  /-- 0x13, R153 -/
  | geoLonEnc
  /-- 0x14, R154 -/
  | geoLonDec
  /-- 0x20, R200; `CH = CMD[11:8]`, `PKT = CMD[15:12]` -/
  | wfPktEnc (ch pkt : BitVec 4)
  /-- 0x21, R201 -/
  | wfPktDec (ch pkt : BitVec 4)
  /-- 0x22, R206 -/
  | wfRecEnc
  /-- 0x23, R207 -/
  | wfRecDec
  /-- 0x30, R230 -/
  | prEnc
  /-- 0x31, R231 -/
  | prDec
  /-- 0x32, R240 -/
  | boundsReset
  /-- 0x40, R241; `V = CMD[8]` -/
  | setStatus (v : BitVec 1)
  /-- 0x41, R242 -/
  | getStatus
  deriving DecidableEq, Repr

end Sys2Proof
end

