-- ==== Sys2Proof/WellFormed.lean ====
section
/-! DEFINITION. Which terms of `Instr` are legal commands: the operand ranges of rule R94 point 3. (A width
above a bit packer's maximum is legal as a command, R95: it fails with BAD_WIDTH when it runs.) -/

namespace Sys2Proof

/-- R94 point 3: channels are 0 … 8. -/
abbrev channelOk (ch : BitVec 4) : Prop := ch.toNat < Config.nch

/-- R94 point 3: packets are 0 … 13. -/
abbrev packetOk (pkt : BitVec 4) : Prop := pkt.toNat < Config.maxp

/-- A command the decoder accepts (R94). -/
def Instr.wellFormed : Instr → Bool
  | .nop => true
  | .bpack32 _ => true
  | .bunpack32 _ => true
  | .bpack64 _ => true
  | .bunpack64 _ => true
  | .geoMode => true
  | .geoLatEnc => true
  | .geoLatDec => true
  | .geoLonEnc => true
  | .geoLonDec => true
  | .wfPktEnc ch pkt => decide (channelOk ch) && decide (packetOk pkt)
  | .wfPktDec ch pkt => decide (channelOk ch) && decide (packetOk pkt)
  | .wfRecEnc => true
  | .wfRecDec => true
  | .prEnc => true
  | .prDec => true
  | .boundsReset => true
  | .setStatus _ => true
  | .getStatus => true

end Sys2Proof
end

