-- ==== Sys2Proof/Decode.lean ====
section
/-! DEFINITION. The command decoder of rules R90 to R94, total on every 64-bit word and rejecting by name,
and the encoder written from the same format table (R91) and opcode map (R93). -/

namespace Sys2Proof

/-- Why a command word is illegal (R94). -/
inductive DecodeError where
  /-- R94 point 1: OP is not one of the 19 opcodes -/
  | reservedOpcode
  /-- R94 point 2: a reserved bit of the format is 1 -/
  | reservedBits
  /-- R94 point 3: CH > 8 -/
  | badChannel
  /-- R94 point 3: PKT > 13 -/
  | badPacket
  deriving DecidableEq, Repr

/-- R90: the opcode, bits [7:0]. -/
def cmdOp (w : Word) : BitVec 8 := w.extractLsb' 0 8

/-- R92: `W = CMD[14:8]`. -/
def cmdWidth (w : Word) : BitVec 7 := w.extractLsb' 8 7

/-- R92: `CH = CMD[11:8]`. -/
def cmdChannel (w : Word) : BitVec 4 := w.extractLsb' 8 4

/-- R92: `PKT = CMD[15:12]`. -/
def cmdPacket (w : Word) : BitVec 4 := w.extractLsb' 12 4

/-- R92: `V = CMD[8]`. -/
def cmdFlag (w : Word) : BitVec 1 := w.extractLsb' 8 1

/-- R91: no bit from `n` up is set. -/
abbrev reservedClear (w : Word) (n : Nat) : Prop := w >>> n = 0#64

/-- R91 format N: bits [63:8] are reserved. -/
def formatN (w : Word) (i : Instr) : Except DecodeError Instr :=
  if reservedClear w 8 then .ok i else .error .reservedBits

/-- R91 format W: bits [63:15] are reserved. -/
def formatW (w : Word) (i : BitVec 7 → Instr) : Except DecodeError Instr :=
  if reservedClear w 15 then .ok (i (cmdWidth w)) else .error .reservedBits

/-- R91 format P: bits [63:16] are reserved; R94 point 3 bounds the fields. -/
def formatP (w : Word) (i : BitVec 4 → BitVec 4 → Instr) : Except DecodeError Instr :=
  if ¬ reservedClear w 16 then .error .reservedBits
  else if ¬ channelOk (cmdChannel w) then .error .badChannel
  else if ¬ packetOk (cmdPacket w) then .error .badPacket
  else .ok (i (cmdChannel w) (cmdPacket w))

/-- R91 format V: bits [63:9] are reserved. -/
def formatV (w : Word) (i : BitVec 1 → Instr) : Except DecodeError Instr :=
  if reservedClear w 9 then .ok (i (cmdFlag w)) else .error .reservedBits

/-- R93, R94: the command a word stands for, or why it is illegal. -/
def decode (w : Word) : Except DecodeError Instr :=
  match (cmdOp w).toNat with
  | 0x00 => formatN w .nop
  | 0x01 => formatW w .bpack32
  | 0x02 => formatW w .bunpack32
  | 0x03 => formatW w .bpack64
  | 0x04 => formatW w .bunpack64
  | 0x10 => formatN w .geoMode
  | 0x11 => formatN w .geoLatEnc
  | 0x12 => formatN w .geoLatDec
  | 0x13 => formatN w .geoLonEnc
  | 0x14 => formatN w .geoLonDec
  | 0x20 => formatP w .wfPktEnc
  | 0x21 => formatP w .wfPktDec
  | 0x22 => formatN w .wfRecEnc
  | 0x23 => formatN w .wfRecDec
  | 0x30 => formatN w .prEnc
  | 0x31 => formatN w .prDec
  | 0x32 => formatN w .boundsReset
  | 0x40 => formatV w .setStatus
  | 0x41 => formatN w .getStatus
  | _ => .error .reservedOpcode

/-- R93: the opcode of each command. -/
def opcode : Instr → BitVec 8
  | .nop => 0x00#8
  | .bpack32 _ => 0x01#8
  | .bunpack32 _ => 0x02#8
  | .bpack64 _ => 0x03#8
  | .bunpack64 _ => 0x04#8
  | .geoMode => 0x10#8
  | .geoLatEnc => 0x11#8
  | .geoLatDec => 0x12#8
  | .geoLonEnc => 0x13#8
  | .geoLonDec => 0x14#8
  | .wfPktEnc _ _ => 0x20#8
  | .wfPktDec _ _ => 0x21#8
  | .wfRecEnc => 0x22#8
  | .wfRecDec => 0x23#8
  | .prEnc => 0x30#8
  | .prDec => 0x31#8
  | .boundsReset => 0x32#8
  | .setStatus _ => 0x40#8
  | .getStatus => 0x41#8

/-- R91: bits [15:8] of a command word, by format. -/
def operandByte : Instr → BitVec 8
  | .bpack32 w => 0#1 ++ w
  | .bunpack32 w => 0#1 ++ w
  | .bpack64 w => 0#1 ++ w
  | .bunpack64 w => 0#1 ++ w
  | .wfPktEnc ch pkt => pkt ++ ch
  | .wfPktDec ch pkt => pkt ++ ch
  | .setStatus v => 0#7 ++ v
  | .nop => 0#8
  | .geoMode => 0#8
  | .geoLatEnc => 0#8
  | .geoLatDec => 0#8
  | .geoLonEnc => 0#8
  | .geoLonDec => 0#8
  | .wfRecEnc => 0#8
  | .wfRecDec => 0#8
  | .prEnc => 0#8
  | .prDec => 0#8
  | .boundsReset => 0#8
  | .getStatus => 0#8

/-- R91: the command word of an instruction, the upper 48 bits 0. -/
def encode (i : Instr) : Word := 0#48 ++ (operandByte i ++ opcode i)

/-- The decoder on a word given as the opcode table numbers its bits (bit 0 least significant). A command is
one word and has no bits beyond it (R90), so a number that needs more than 64 bits is no command. -/
def decodeTableWord (nbits w : Nat) : Option Instr :=
  let v := w % 2 ^ nbits
  if v < 2 ^ 64 then (decode (BitVec.ofNat 64 v)).toOption else none

end Sys2Proof
end

