-- ==== Sys2Proof/Machine/State.lean ====
section
/-! DEFINITION. The state of the block: every register of 10_state.md at its implemented bits, its three
memories, the command in flight, and the model's own fields for the outside world (the host's pending actions,
command durations, the value last read). Plain data throughout. The reset state of rules R290 and R292. -/

namespace Sys2Proof.Machine

/-- A memory of `w`-bit units as (unit address, value) pairs in one canonical form (`Memory.wf` in
Machine/Ops.lean): addresses strictly rising, no entry equal to 0, which is what an unlisted address reads as
(log 2). BITBUF is keyed by byte (`List Host.Cell`), SMP by 16-bit word, REC by 64-bit word, the units the
spec accesses them in (R61, R67; log 6). -/
abbrev Memory (w : Nat) := List (Nat × BitVec w)

/-- The width of a host access (R60, R69; a 32-bit access exists only to be refused, R61). -/
inductive Width where
  | w8 | w16 | w32 | w64
  deriving DecidableEq, Repr

/-- One action of the host: a bus access (R60, R61), or one of the two script statements that are more than
one access (R97, R98). `CMD` of the script is a 64-bit write to address 0x010 (R23). -/
inductive HostOp where
  /-- a host write of `data`'s low bits -/
  | write (width : Width) (addr : BitVec 32) (data : Word)
  /-- a host read -/
  | read (width : Width) (addr : BitVec 32)
  /-- R97 `WAIT`: read STATUS until DONE is 1 -/
  | wait
  /-- R98 `CHECK`: read STATUS; the program stops if ERR is 1 -/
  | check
  deriving DecidableEq, Repr

/-- The transaction in progress while STATUS.BUSY = 1 (R42, R260): the command word, and how many more steps
the model leaves before the engine completes it (log 4). -/
structure InFlight where
  word : Word
  remaining : Nat
  deriving DecidableEq, Repr

/-- R34: the running bounds. -/
structure Bounds where
  minLat : Word
  maxLat : Word
  minLon : Word
  maxLon : Word
  minPlat : Word
  maxPlat : Word
  minPlon : Word
  maxPlon : Word
  deriving DecidableEq, Repr

/-- R34, R240: the "impossible" sentinels, each MIN the greatest `s64` and each MAX the least. -/
def Bounds.sentinel : Bounds :=
  { minLat := 0x7FFFFFFFFFFFFFFF#64, maxLat := 0x8000000000000000#64
    minLon := 0x7FFFFFFFFFFFFFFF#64, maxLon := 0x8000000000000000#64
    minPlat := 0x7FFFFFFFFFFFFFFF#64, maxPlat := 0x8000000000000000#64
    minPlon := 0x7FFFFFFFFFFFFFFF#64, maxPlon := 0x8000000000000000#64 }

/-- The state of the block and of its outside world. Registers hold their implemented bits only (R20). -/
structure State where
  /-- R22 CTRL.IRQ_EN -/
  irqEn : Bool
  /-- R22 CTRL.APPEND -/
  append : Bool
  /-- R24 STATUS.BUSY, which is 1 exactly when this is not `none` (log 5) -/
  inflight : Option InFlight
  /-- R24 STATUS.DONE -/
  done : Bool
  /-- R24 STATUS.ERR -/
  err : Bool
  /-- R24 STATUS.CODE -/
  code : BitVec 8
  /-- R25 ERR_CODE -/
  errCode : BitVec 8
  /-- R25 ERR_CMD -/
  errCmd : Word
  /-- R25 ERR_FIELD -/
  errField : BitVec 8
  /-- R25 ERR_INDEX -/
  errIndex : BitVec 24
  /-- R25 ERR_INFO -/
  errInfo : Word
  /-- R26 ARG0 … ARG7 -/
  arg : Vector Word 8
  /-- R27 RES0 … RES7 -/
  res : Vector Word 8
  /-- R28 POS_SCALE -/
  posScale : BitVec 32
  /-- R30 LON_BASE_BITS -/
  lonBaseBits : BitVec 7
  /-- R31 CXY_SIZE_BITS -/
  cxySizeBits : BitVec 7
  /-- R31 CWF_SIZE_BITS -/
  cwfSizeBits : BitVec 7
  /-- R32 FBITS[0 … 18] -/
  fbits : Vector (BitVec 7) 19
  /-- R32 FOFF[0 … 18] -/
  foff : Vector Word 19
  /-- R34 the running bounds -/
  bounds : Bounds
  /-- R35 PRESENCE[0 … 8] -/
  presence : Vector (BitVec 14) 9
  /-- R36 WF_TIMESTAMP -/
  wfTimestamp : Word
  /-- R36 WF_SCAN -/
  wfScan : Word
  /-- R38 REC[0 … 327] -/
  recMem : Memory 64
  /-- R37 SMP, word (c·14 + p)·64 + i -/
  smpMem : Memory 16
  /-- R39 BITBUF -/
  bitbuf : Memory 8
  /-- R8 BITBUF_BYTES, the instance's parameter; no step changes it (log 1) -/
  bitbufBytes : Nat
  /-- the host's pending actions, oldest first (log 3) -/
  script : List HostOp
  /-- the free durations of the commands to come (R260, R297; log 4) -/
  durations : List Nat
  /-- the value the host's last read returned (log 3) -/
  rdata : Word
  deriving DecidableEq, Repr

/-- Why a step stops with a fault. There is no such reason: "There is no trap, no vector and no handler"
(60_exceptions.md), every error is a result of a command (R260 to R269) and leaves a next state. -/
inductive Fault where
  deriving DecidableEq, Repr

/-- Why a step has no meaning. Each is raised where the spec says that a model refuses. -/
inductive Refusal where
  /-- raised by an arm of `exec` for an instruction with no meaning yet (there is none); safe -/
  | notModelled (mnemonic : String)
  /-- raised by the host bus for an access other than to STATUS while STATUS.BUSY = 1 (R72, R291, I2, I20);
  safe: "refused (errs toward unprovable)" -/
  | busyAccess
  /-- raised by the host bus for an access of a wrong width, or a misaligned one, to a mapped region (R61,
  I12); safe: "a model refuses such a host step" -/
  | badAccess
  deriving DecidableEq, Repr

/-- R290, R292: the block right after power-on reset, for an instance of `n` buffer bytes whose memories
happen to hold `recs`, `smps` and `buf` ("arbitrary values … chosen once at reset"). -/
def State.powerOn (n : Nat) (recs : Memory 64) (smps : Memory 16) (buf : Memory 8) : State where
  irqEn := false
  append := false
  inflight := none
  done := false
  err := false
  code := 0#8
  errCode := 0#8
  errCmd := 0#64
  errField := 0#8
  errIndex := 0#24
  errInfo := 0#64
  arg := Vector.replicate 8 0#64
  res := Vector.replicate 8 0#64
  posScale := 0#32
  lonBaseBits := 0#7
  cxySizeBits := 0#7
  cwfSizeBits := 0#7
  fbits := Vector.replicate 19 0#7
  foff := Vector.replicate 19 0#64
  bounds := Bounds.sentinel
  presence := Vector.replicate 9 0#14
  wfTimestamp := 0#64
  wfScan := 0#64
  recMem := recs
  smpMem := smps
  bitbuf := buf
  bitbufBytes := n
  script := []
  durations := []
  rdata := 0#64

/-- The machine right after reset: the reference instance (R8; log 1) with every memory word 0, one of the
arbitrary contents R292 allows (log 2), and a host with nothing to do (log 3, log 4). -/
def State.reset : State := State.powerOn Config.referenceBitbufBytes [] [] []

end Sys2Proof.Machine
end

