-- ==== Sys2Proof/Machine/Flags.lean ====
section
/-! DEFINITION. The flags of the block (R41: STATUS.BUSY, DONE, ERR and nothing else), the STATUS and CTRL words
as the host reads them, the interrupt line, the error codes, and the completion update that every command
makes (R260). -/

namespace Sys2Proof.Machine

/-- The error codes of R261, other than SUCCESS. -/
inductive ErrKind where
  /-- 1: a value does not fit its field -/
  | valueOutOfRange
  /-- 2: a read or write of BITBUF would pass its end -/
  | bufferOverrun
  /-- 3: the command word is illegal -/
  | illegalCommand
  /-- 4: a bit-packer width above 32 or 64 -/
  | badWidth
  /-- 5: a configuration register holds an illegal value -/
  | configInvalid
  /-- 6: a decoded packet tag is not one the decoder accepts -/
  | invalidPacketType
  /-- 7: a decoded structure is inconsistent -/
  | decodeError
  deriving DecidableEq, Repr

/-- R261: the number of each error. -/
def ErrKind.number : ErrKind → BitVec 8
  | .valueOutOfRange => 1#8
  | .bufferOverrun => 2#8
  | .illegalCommand => 3#8
  | .badWidth => 4#8
  | .configInvalid => 5#8
  | .invalidPacketType => 6#8
  | .decodeError => 7#8

/-- An error as a command raises it: `raise E(field, index, info)` (R12, R263, R264). -/
structure CmdError where
  kind : ErrKind
  field : BitVec 8
  index : BitVec 24
  info : Word
  deriving DecidableEq, Repr

/-- R24: STATUS.BUSY. -/
def State.busy (s : State) : Bool := s.inflight.isSome

/-- R24: the STATUS word; reserved bits read 0. -/
def State.status (s : State) : Word :=
  0#48 ++ s.code ++ 0#5 ++ BitVec.ofBool s.err ++ BitVec.ofBool s.done ++ BitVec.ofBool s.busy

/-- R22: the CTRL word as the host reads it; SOFT_RESET and the reserved bits read 0. -/
def State.ctrl (s : State) : Word := 0#62 ++ BitVec.ofBool s.append ++ BitVec.ofBool s.irqEn

/-- R270: `IRQ = CTRL.IRQ_EN AND STATUS.DONE`. -/
def State.irq (s : State) : Bool := s.irqEn && s.done

/-- R24: the signed status the source's API returns, `−STATUS.CODE`. -/
def State.signedStatus (s : State) : Int := -(s.code.toNat : Int)

/-- R260, the writes of a successful completion: ERR and CODE 0, BUSY 0, DONE 1. -/
def State.succeed (s : State) : State :=
  { s with inflight := none, done := true, err := false, code := 0#8 }

/-- R260 and R262, the one way an error is taken: the last-error record gets the error and the command word,
STATUS gets ERR, CODE and the completion, and nothing else of `s` changes. There is no return from it
(R269). -/
def State.abort (s : State) (w : Word) (e : CmdError) : State :=
  { s with
    inflight := none, done := true, err := true, code := e.kind.number
    errCode := e.kind.number, errCmd := w, errField := e.field, errIndex := e.index, errInfo := e.info }

end Sys2Proof.Machine
end

