-- ==== Sys2Proof/Machine/Ops.lean ====
section
/-! DEFINITION. The shared operations: the sparse memories, the MSB-first bit stream over BITBUF (R62 to R65),
the integer helpers of R9 and R11, the output and input bit sequences (`emit` and `take`, R12), running a
command as a transaction with its completion or abort (R13, R260, R262), and starting one. -/

namespace Sys2Proof.Machine

/-! ### Memories -/

/-- Reads unit `a`; an unlisted unit reads 0 (log 2). -/
def Memory.get {w : Nat} : Memory w → Nat → BitVec w
  | [], _ => 0#w
  | (k, x) :: m, a => if k = a then x else Memory.get m a

/-- Lists `(a, v)` before the first greater address. -/
def Memory.insert {w : Nat} : Memory w → Nat → BitVec w → Memory w
  | [], a, v => [(a, v)]
  | (k, x) :: m, a, v => if a < k then (a, v) :: (k, x) :: m else (k, x) :: Memory.insert m a v

/-- Writes unit `a`, keeping the canonical form: writing 0 removes the entry. -/
def Memory.set {w : Nat} (m : Memory w) (a : Nat) (v : BitVec w) : Memory w :=
  let rest := m.filter (fun p => decide (p.1 ≠ a))
  if v = 0#w then rest else Memory.insert rest a v

/-- Writes consecutive units from `a` on. -/
def Memory.setRange {w : Nat} : Memory w → Nat → List (BitVec w) → Memory w
  | m, _, [] => m
  | m, a, v :: vs => Memory.setRange (m.set a v) (a + 1) vs

/-- The memory whose units from `a` on are `vs` and whose other units are 0. -/
def Memory.ofUnits {w : Nat} : Nat → List (BitVec w) → Memory w
  | _, [] => []
  | a, v :: vs => if v = 0#w then Memory.ofUnits (a + 1) vs else (a, v) :: Memory.ofUnits (a + 1) vs

/-- The canonical form of a memory of `n` units: addresses strictly rising and below `n`, no entry 0. -/
abbrev Memory.wf {w : Nat} (n : Nat) (m : Memory w) : Prop :=
  m.Pairwise (fun p q => p.1 < q.1) ∧ ∀ p ∈ m, p.1 < n ∧ p.2 ≠ 0#w

/-! ### Integers -/

/-- R11: `bits_needed(n)`, 0 for 0 and otherwise the least b with n < 2^b. -/
def bitsNeeded (n : Nat) : Nat := if n = 0 then 0 else n.log2 + 1

/-- R9: bytes needed for `n` bits. -/
def ceil8 (n : Nat) : Nat := (n + 7) / 8

/-! ### The bit stream (R62 to R65) -/

/-- R62: stream bit `b` is bit `7 − (b mod 8)` of byte `b div 8`. -/
def streamBit (m : Memory 8) (b : Nat) : Bool := (m.get (b / 8)).getLsbD (7 - b % 8)

/-- A byte with its bit `i` made `x`. -/
def setByteBit (v : Byte) (i : Nat) (x : Bool) : Byte :=
  if x then v ||| (1#8 <<< i) else v &&& ~~~(1#8 <<< i)

/-- R62: makes stream bit `b` equal `x` and changes no other bit. -/
def setStreamBit (m : Memory 8) (b : Nat) (x : Bool) : Memory 8 :=
  m.set (b / 8) (setByteBit (m.get (b / 8)) (7 - b % 8) x)

/-- R63: `BitRead(b, w)`, the most significant bit of the value first. -/
def bitRead (m : Memory 8) (b : Nat) : Nat → Nat
  | 0 => 0
  | w + 1 => 2 * bitRead m b w + (streamBit m (b + w)).toNat

/-- R64: `BitWrite(b, w, v)`, the low `w` bits of `v`, the most significant first. -/
def bitWrite (m : Memory 8) (b : Nat) : Nat → Nat → Memory 8
  | 0, _ => m
  | w + 1, v => setStreamBit (bitWrite m b w (v / 2)) (b + w) (v.testBit 0)

/-- An item of an output bit sequence, `emit(width, value)` (R12). -/
abbrev Field := Nat × Nat

/-- The number of bits of an output sequence. -/
def fieldsWidth : List Field → Nat
  | [] => 0
  | f :: fs => f.1 + fieldsWidth fs

/-- Writes an output sequence from stream bit `b` on, each field after the one before. -/
def writeFields : Memory 8 → Nat → List Field → Memory 8
  | m, _, [] => m
  | m, b, f :: fs => writeFields (bitWrite m b f.1 f.2) (b + f.1) fs

/-! ### Errors a command can raise -/

/-- R264: ERR_INDEX `c + 256·m + 65536·i`. -/
def errIdx (c m i : Nat) : BitVec 24 := BitVec.ofNat 24 (c + 256 * m + 65536 * i)

/-- R264: a part of ERR_INDEX that does not apply. -/
def idxNA : Nat := 0xFF

/-- R264: ERR_INDEX when no part applies. -/
def noIndex : BitVec 24 := 0xFFFFFF#24

/-- R263: ERR_FIELD when there is none. -/
def noField : BitVec 8 := 0xFF#8

/-- R264: ILLEGAL_COMMAND records the command word. -/
def illegalError (w : Word) : CmdError := ⟨.illegalCommand, noField, noIndex, w⟩

/-- R264: BAD_WIDTH records W. -/
def badWidthError (w : Nat) : CmdError := ⟨.badWidth, noField, noIndex, BitVec.ofNat 64 w⟩

/-- R264: CONFIG_INVALID records the host address of the register. -/
def configError (addr : Nat) : CmdError := ⟨.configInvalid, noField, noIndex, BitVec.ofNat 64 addr⟩

/-- R264: BUFFER_OVERRUN records where the command started; R263: field 45. -/
def overrunError (index : BitVec 24) (start : Word) : CmdError := ⟨.bufferOverrun, 45#8, index, start⟩

/-- R264: VALUE_OUT_OF_RANGE records the offending word. -/
def rangeError (field : BitVec 8) (index : BitVec 24) (info : Word) : CmdError :=
  ⟨.valueOutOfRange, field, index, info⟩

/-- Raises `e` unless `p` holds. -/
def require (p : Prop) [Decidable p] (e : CmdError) : Except CmdError Unit :=
  if p then .ok () else .error e

/-- The range check every packed quantity goes through (R142, R144, R146, R222): `p` as a `w`-bit unsigned
value, or the error. -/
def packUnsigned (p : Int) (w : Nat) (e : CmdError) : Except CmdError Nat :=
  if 0 ≤ p ∧ p < ((2 ^ w : Nat) : Int) then .ok p.toNat else .error e

/-! ### Input bit sequences (`take`, R12, R65, R264) -/

/-- An input bit sequence: BITBUF, its length in bits, and the command's ARG0, which a BUFFER_OVERRUN
records. -/
structure Stream where
  mem : Memory 8
  limit : Nat
  start : Word
  deriving DecidableEq, Repr

/-- `take(w)` at stream bit `pos`: the value read and the position after it, or BUFFER_OVERRUN (log 11). -/
def take (st : Stream) (pos w : Nat) : Except CmdError (Nat × Nat) :=
  if st.limit < pos + w then .error (overrunError noIndex st.start)
  else .ok (bitRead st.mem pos w, pos + w)

/-- `n` times `take(w)`, in order. -/
def takeMany (st : Stream) (w : Nat) : Nat → Nat → Except CmdError (List Nat × Nat)
  | 0, pos => .ok ([], pos)
  | n + 1, pos => do
    let (v, pos) ← take st pos w
    let (vs, pos) ← takeMany st w n pos
    .ok (v :: vs, pos)

/-! ### Commands as transactions (R13, R260, R262) -/

/-- R260: the end of command word `w` that started in `s`: its writes and the success flags, or the abort. -/
def State.finish (s : State) (w : Word) : Except CmdError State → State
  | .ok t => t.succeed
  | .error e => s.abort w e

/-- Runs the command `i` whose effect from `s` is `r` (R13: all of its writes, or none). -/
def runCommand (i : Instr) (s : State) (r : Except CmdError State) : Host.Outcome State Fault Refusal :=
  .next (s.finish (encode i) r)

/-- R94: an illegal command word changes nothing but the error and status registers. -/
def illegalCommand (w : Word) (s : State) : State := s.abort w (illegalError w)

/-- R260, a host write of `w` to CMD: DONE 0 and BUSY 1. The next free duration, 0 when none is listed, is how
many further steps the command stays in flight (log 4). -/
def State.issue (s : State) (w : Word) : State :=
  { s with done := false, inflight := some ⟨w, s.durations.headD 0⟩, durations := s.durations.tail }

end Sys2Proof.Machine
end

