-- ==== Sys2Proof/Machine/Operands.lean ====
section
/-! DEFINITION. How a command reads its operands and writes its results: the ARG and RES registers (R26, R27,
R92), the configuration registers (R28 to R32), PRESENCE, SMP and REC (R35, R37, R38), and the input stream. -/

namespace Sys2Proof.Machine

/-- R26: the word of ARG`i`. -/
def State.argWord (s : State) (i : Nat) : Word := s.arg.getD i 0#64

/-- R26, R11: `u64(ARGi)`. -/
def State.argU (s : State) (i : Nat) : Nat := u64 (s.argWord i)

/-- R26, R11: `s64(ARGi)`. -/
def State.argS (s : State) (i : Nat) : Int := s64 (s.argWord i)

/-- R27: the word of RES`i`. -/
def State.resWord (s : State) (i : Nat) : Word := s.res.getD i 0#64

/-- Writes RES`i`, RES`i+1`, … -/
def writeResFrom : Vector Word 8 → Nat → List Int → Vector Word 8
  | r, _, [] => r
  | r, i, z :: zs => writeResFrom (r.setIfInBounds i (wrap64 z)) (i + 1) zs

/-- R27: writes RES0, RES1, … with `wrap64` of the listed values (R20) and leaves the other RES registers. -/
def State.writeRes (s : State) (zs : List Int) : State := { s with res := writeResFrom s.res 0 zs }

/-- R65: the length of the stream, 8 × BITBUF_BYTES bits. -/
def State.streamBits (s : State) : Nat := 8 * s.bitbufBytes

/-- The input bit sequence of a decoder: BITBUF, with ARG0 as the start an overrun records (R264). -/
def State.stream (s : State) : Stream := ⟨s.bitbuf, s.streamBits, s.argWord 0⟩

/-- R28: S. -/
def State.scale (s : State) : Nat := s.posScale.toNat

/-- R30: B. -/
def State.lonBase (s : State) : Nat := s.lonBaseBits.toNat

/-- R32: the width of scalar field `k`. -/
def State.fieldBits (s : State) (k : Nat) : Nat := (s.fbits.getD k 0#7).toNat

/-- R32: `s64(FOFF[k])`. -/
def State.fieldOffset (s : State) (k : Nat) : Int := s64 (s.foff.getD k 0#64)

/-- R37: the address of SMP[c][p][i] in the sample memory. -/
def smpAddr (c p i : Nat) : Nat := (c * Config.maxp + p) * Config.nsmp + i

/-- R37, R180: the samples of packet `p` of channel `c`, each word as `u16`. -/
def State.samples (s : State) (c p : Nat) : List Nat :=
  (List.range Config.nsmp).map fun i => (s.smpMem.get (smpAddr c p i)).toNat

/-- R35: the presence bit of packet `p` of channel `c`. -/
def State.present (s : State) (c p : Nat) : Bool := (s.presence.getD c 0#14).getLsbD p

/-- R38: REC[j]. -/
def State.recWord (s : State) (j : Nat) : Word := s.recMem.get j

/-- R38: the address of item `q` of return `r` of channel `c`. -/
def retAddr (c r q : Nat) : Nat := 40 + 8 * (4 * c + r) + q

/-- R265: a size-field width is legal from 1 to 64. -/
def requireSizeBits (bits addr : Nat) : Except CmdError Unit :=
  require (1 ≤ bits ∧ bits ≤ 64) (configError addr)

/-- R265: FBITS[k] ≤ 64 for each listed `k`, in order; ERR_INFO is the register's address (R32). -/
def requireFieldBits (s : State) : List Nat → Except CmdError Unit
  | [] => .ok ()
  | k :: ks => do
    require (s.fieldBits k ≤ 64) (configError (0x1000 + 16 * k))
    requireFieldBits s ks

end Sys2Proof.Machine
end

