-- ==== Sys2Proof/Machine/BitPack.lean ====
section
/-! DEFINITION. The bit-packing engine, 40_bitpack.md: NOP, BPACK32, BUNPACK32, BPACK64, BUNPACK64. -/

namespace Sys2Proof.Machine

/-- R121, R123: writes the low `w` bits of `v` at stream bit ARG0, for a packer of at most `max` bits. -/
def packBits (max w v : Nat) (s : State) : Except CmdError State := do
  require (w ≤ max) (badWidthError w)
  let b := s.argU 0
  require (b + w ≤ s.streamBits) (overrunError noIndex (s.argWord 0))
  .ok ({ s with bitbuf := bitWrite s.bitbuf b w v }.writeRes [((b + w : Nat) : Int)])

/-- R122, R124: reads `w` bits at stream bit ARG0, for an unpacker of at most `max` bits. -/
def unpackBits (max w : Nat) (s : State) : Except CmdError State := do
  require (w ≤ max) (badWidthError w)
  let b := s.argU 0
  require (b + w ≤ s.streamBits) (overrunError noIndex (s.argWord 0))
  .ok (s.writeRes [(bitRead s.bitbuf b w : Int), ((b + w : Nat) : Int)])

/-- R120. -/
def execNop (s : State) : Host.Outcome State Fault Refusal := runCommand .nop s (.ok s)

/-- R121: the value is `u64(ARG1)[31:0]`. -/
def execBpack32 (w : BitVec 7) (s : State) : Host.Outcome State Fault Refusal :=
  runCommand (.bpack32 w) s (packBits 32 w.toNat (s.argU 1 % 2 ^ 32) s)

/-- R122. -/
def execBunpack32 (w : BitVec 7) (s : State) : Host.Outcome State Fault Refusal :=
  runCommand (.bunpack32 w) s (unpackBits 32 w.toNat s)

/-- R123: the value is `u64(ARG1)`. -/
def execBpack64 (w : BitVec 7) (s : State) : Host.Outcome State Fault Refusal :=
  runCommand (.bpack64 w) s (packBits 64 w.toNat (s.argU 1) s)

/-- R124. -/
def execBunpack64 (w : BitVec 7) (s : State) : Host.Outcome State Fault Refusal :=
  runCommand (.bunpack64 w) s (unpackBits 64 w.toNat s)

end Sys2Proof.Machine
end

