-- ==== Sys2Proof/Machine/Geodetic.lean ====
section
/-! DEFINITION. The geodetic codec, 41_geodetic.md: the functions shared with the point record (R141 to R147)
and GEO_MODE, GEO_LAT_ENC, GEO_LAT_DEC, GEO_LON_ENC, GEO_LON_DEC. `S` is POS_SCALE, `B` is LON_BASE_BITS;
angles are integers in counts. -/

namespace Sys2Proof.Machine

/-- R29: `W_POS = bits_needed(360 × S)`. -/
def wPos (S : Nat) : Nat := bitsNeeded (360 * S)

/-- R141: `GeoCfg(needB)`. -/
def geoCfg (needB : Bool) (s : State) : Except CmdError Unit := do
  require (1 ≤ s.scale ∧ s.scale ≤ 2 ^ 32 - 1) (configError 0x100)
  require (needB = true → 1 ≤ s.lonBase ∧ s.lonBase ≤ 61) (configError 0x108)

/-- R142: `LatEnc(lat, fid)`, the value to emit at W_POS bits. -/
def latEnc (S : Nat) (lat : Int) (fid : BitVec 8) (index : BitVec 24) : Except CmdError Nat :=
  packUnsigned (lat + 90 * S) (wPos S) (rangeError fid index (wrap64 lat))

/-- R142: `LatDec(p)`. -/
def latDec (S p : Nat) : Int := p - 90 * S

/-- R143: `LatBand(plat)`, with the floor division of R9 (S is positive). -/
def latBand (S : Nat) (plat : Int) : Int := min (max (plat / (S : Int) + 90) 0) 179

/-- R144: `LonFullEnc(lon, fid)`. -/
def lonFullEnc (S : Nat) (lon : Int) (fid : BitVec 8) (index : BitVec 24) : Except CmdError Nat :=
  packUnsigned (lon + 180 * S) (wPos S) (rangeError fid index (wrap64 lon))

/-- R144: `LonFullDec(p)`. -/
def lonFullDec (S p : Nat) : Int := p - 180 * S

/-- R145: the mode of a record, `(full, W, k)`. -/
structure LonMode where
  full : Bool
  width : Nat
  crossed : Nat
  deriving DecidableEq, Repr

/-- R145: `LonMode(plat)`. -/
def lonMode (S B : Nat) (plat : Int) : LonMode :=
  let a := plat.natAbs
  if 86 * S ≤ a then ⟨true, wPos S, 4⟩
  else if 82 * S ≤ a then ⟨false, B + 3, 3⟩
  else if 75 * S ≤ a then ⟨false, B + 2, 2⟩
  else if 60 * S ≤ a then ⟨false, B + 1, 1⟩
  else ⟨false, B, 0⟩

/-- R146: half the range of a `w`-bit delta, `2^(W−1)`. -/
def deltaHalf (w : Nat) : Int := ((2 ^ (w - 1) : Nat) : Int)

/-- R146: `LonDeltaEnc(val, ref, W, fid)`. -/
def lonDeltaEnc (val ref : Int) (w : Nat) (fid : BitVec 8) (index : BitVec 24) : Except CmdError Nat :=
  packUnsigned ((ref - val) + deltaHalf w) w (rangeError fid index (wrap64 val))

/-- R146: `LonDeltaDec(p, ref, W)`. -/
def lonDeltaDec (p : Nat) (ref : Int) (w : Nat) : Int := ref - (p - deltaHalf w)

/-- R147: `LonEnc(val, ref, plat, fid)`, the value to emit at the mode's width. -/
def lonEnc (S B : Nat) (val ref plat : Int) (fid : BitVec 8) (index : BitVec 24) : Except CmdError Nat :=
  let mode := lonMode S B plat
  if mode.full then lonFullEnc S val fid index else lonDeltaEnc val ref mode.width fid index

/-- R147: `LonDec(p, ref, plat)`. -/
def lonDec (S B p : Nat) (ref plat : Int) : Int :=
  let mode := lonMode S B plat
  if mode.full then lonFullDec S p else lonDeltaDec p ref mode.width

/-- R150. -/
def geoMode (s : State) : Except CmdError State := do
  geoCfg true s
  let mode := lonMode s.scale s.lonBase (s.argS 0)
  .ok (s.writeRes [latBand s.scale (s.argS 0), mode.width, mode.full.toNat, mode.crossed])

/-- R151. -/
def geoLatEnc (s : State) : Except CmdError State := do
  geoCfg false s
  let p ← latEnc s.scale (s.argS 0) 42#8 noIndex
  .ok (s.writeRes [(p : Int), wPos s.scale])

/-- R152: bits of ARG0 above W_POS are ignored. -/
def geoLatDec (s : State) : Except CmdError State := do
  geoCfg false s
  .ok (s.writeRes [latDec s.scale (s.argU 0 % 2 ^ wPos s.scale), wPos s.scale])

/-- R153. -/
def geoLonEnc (s : State) : Except CmdError State := do
  geoCfg true s
  let mode := lonMode s.scale s.lonBase (s.argS 2)
  let p ← lonEnc s.scale s.lonBase (s.argS 0) (s.argS 1) (s.argS 2) 43#8 noIndex
  .ok (s.writeRes [(p : Int), mode.width, mode.full.toNat])

/-- R154: bits of ARG0 above the width are ignored. -/
def geoLonDec (s : State) : Except CmdError State := do
  geoCfg true s
  let mode := lonMode s.scale s.lonBase (s.argS 2)
  let v := lonDec s.scale s.lonBase (s.argU 0 % 2 ^ mode.width) (s.argS 1) (s.argS 2)
  .ok (s.writeRes [v, mode.width, mode.full.toNat])

/-- R150. -/
def execGeoMode (s : State) : Host.Outcome State Fault Refusal := runCommand .geoMode s (geoMode s)

/-- R151. -/
def execGeoLatEnc (s : State) : Host.Outcome State Fault Refusal := runCommand .geoLatEnc s (geoLatEnc s)

/-- R152. -/
def execGeoLatDec (s : State) : Host.Outcome State Fault Refusal := runCommand .geoLatDec s (geoLatDec s)

/-- R153. -/
def execGeoLonEnc (s : State) : Host.Outcome State Fault Refusal := runCommand .geoLonEnc s (geoLonEnc s)

/-- R154. -/
def execGeoLonDec (s : State) : Host.Outcome State Fault Refusal := runCommand .geoLonDec s (geoLonDec s)

end Sys2Proof.Machine
end

