-- ==== Sys2Proof/Machine/Scalar.lean ====
section
/-! DEFINITION. The scalar fields of both record kinds (43_point_record.md R222, R223; the field table of
10_state.md R32, R33), and writing a finished record into BITBUF (R205, R221, R206, R230). -/

namespace Sys2Proof.Machine

/-- R33, D30: the fields read as `u64`; the others are read as `s64`. -/
def unsignedField (k : Nat) : Bool := k == 0 || k == 15 || k == 16 || k == 17

/-- R222: the value of a word in field `k`. -/
def scalarValue (k : Nat) (w : Word) : Int := if unsignedField k then (u64 w : Int) else s64 w

/-- R222: `ScalarEnc(k, w, index)`, the packed value to emit at FBITS[k] bits. -/
def scalarEnc (s : State) (k : Nat) (w : Word) (index : BitVec 24) : Except CmdError Nat :=
  packUnsigned (scalarValue k w + s.fieldOffset k) (s.fieldBits k) (rangeError (BitVec.ofNat 8 k) index w)

/-- R223: `ScalarDec(k, p)`. -/
def scalarDec (s : State) (k p : Nat) : Word := wrap64 (p - s.fieldOffset k)

/-- R221, R205: a record of `out` behind a `bits`-bit size field has `L` bits. -/
def recordBits (bits : Nat) (out : List Field) : Nat := bits + fieldsWidth out

/-- R221, R205: `size = ceil8(L)`. -/
def recordSize (bits : Nat) (out : List Field) : Nat := ceil8 (recordBits bits out)

/-- R221, R205: the whole record, size field first and zero pad last. -/
def recordFields (bits : Nat) (out : List Field) : List Field :=
  (bits, recordSize bits out) :: (out ++ [(8 * recordSize bits out - recordBits bits out, 0)])

/-- R206, R230: checks the size field and the extent at byte address ARG0, then writes the record there. The
size error is that of field `fid`. The address is not reduced: `8·a` is an integer (R9). -/
def writeRecord (s : State) (bits : Nat) (fid : BitVec 8) (out : List Field) : Except CmdError State := do
  let size := recordSize bits out
  require (size < 2 ^ bits) (rangeError fid noIndex (BitVec.ofNat 64 size))
  require (s.argU 0 + size ≤ s.bitbufBytes) (overrunError noIndex (s.argWord 0))
  .ok { s with bitbuf := writeFields s.bitbuf (8 * s.argU 0) (recordFields bits out) }

end Sys2Proof.Machine
end

