-- ==== Sys2Proof/Machine/Waveform.lean ====
section
/-! DEFINITION. The waveform packet compressor, 42_waveform.md: the packet formats and their selection (R170 to
R177), packet decoding (R178, R179), the packet commands (R200, R201) and the waveform record (R205 to R208). -/

namespace Sys2Proof.Machine

/-! ### Packet formats -/

/-- R172: `d[i] = s[i+1] − s[i]`. -/
def diffs : List Int → List Int
  | a :: b :: t => (b - a) :: diffs (b :: t)
  | _ => []

/-- The least element of a list (0 for the empty list, which no packet has). -/
def minInt : List Int → Int
  | [] => 0
  | [x] => x
  | x :: xs => min x (minInt xs)

/-- The greatest element of a list (0 for the empty list). -/
def maxNat : List Nat → Nat
  | [] => 0
  | x :: xs => max x (maxNat xs)

/-- R172 to R174: `−min`, the offset that makes every difference non-negative. -/
def offsetOf (ds : List Int) : Int := -minInt ds

/-- R172 to R174: the differences offset to non-negative. -/
def offsetList (ds : List Int) : List Nat := ds.map fun d => (d + offsetOf ds).toNat

/-- R172 to R174: the least width that holds every offset difference. -/
def deltaWidth (ds : List Int) : Nat := bitsNeeded (maxNat (offsetList ds))

/-- R172 to R174: the offset differences, each at the delta width. -/
def deltaFields (ds : List Int) : List Field := (offsetList ds).map fun e => (deltaWidth ds, e)

/-- Samples as integers. -/
def toInts (s : List Nat) : List Int := s.map fun (x : Nat) => (x : Int)

/-- R172: the first differences of a packet. -/
def firstDiffs (s : List Nat) : List Int := diffs (toInts s)

/-- R174: `x[i] = s[i] − r[i]`. -/
def crossDiffs (s r : List Nat) : List Int := List.zipWith (fun (a b : Nat) => (a : Int) - (b : Int)) s r

/-- R171: type 0, raw. -/
def type0 (s : List Nat) : List Field := (3, 0) :: s.map fun x => (Config.smpw, x)

/-- R172: type 1, first difference. -/
def type1 (s : List Nat) : List Field :=
  let d := firstDiffs s
  (3, 1) :: (10, s.headD 0) :: (11, (offsetOf d + 1023).toNat) :: (4, deltaWidth d) :: deltaFields d

/-- R173: type 2, second difference. -/
def type2 (s : List Nat) : List Field :=
  let d := firstDiffs s
  let dd := diffs d
  (3, 2) :: (10, s.headD 0) :: (11, (offsetList d).headD 0) :: (11, (offsetOf d + 1023).toNat) ::
    (12, (offsetOf dd + 2046).toNat) :: (4, deltaWidth dd) :: deltaFields dd

/-- R174: type 3, difference from the reference packet `r`. -/
def type3 (s r : List Nat) : List Field :=
  let x := crossDiffs s r
  (3, 3) :: (11, (offsetOf x + 1023).toNat) :: (4, deltaWidth x) :: deltaFields x

/-- R177: the encoded byte size of a packet, tag included. -/
def packetSize (fs : List Field) : Nat := ceil8 (fieldsWidth fs)

/-- R177: the applicable encodings in order of type number. -/
def candidates (s : List Nat) (r : Option (List Nat)) : List (Nat × List Field) :=
  [(0, type0 s), (1, type1 s), (2, type2 s)] ++ (match r with | some r => [(3, type3 s r)] | none => [])

/-- R177: the first of the smallest; a later candidate must be strictly smaller to replace `best`. -/
def smallest : Nat × List Field → List (Nat × List Field) → Nat × List Field
  | best, [] => best
  | best, c :: cs => if packetSize c.2 < packetSize best.2 then smallest c cs else smallest best cs

/-- R177: `PktSelect(s, r or ⊥)`. -/
def pktSelect (s : List Nat) (r : Option (List Nat)) : Nat × List Field :=
  smallest (0, type0 s) (candidates s r).tail

/-- R176: type 3 applies to packet `p` of channel `c`, given the presence bit of packet `p` of channel 1. -/
def refApplies (c : Nat) (ref1 : Bool) : Bool := decide (2 ≤ c ∧ c ≤ 7) && ref1

/-- R180: the first sample word above 1023, in order from sample `i` on, is an error. -/
def checkSamples (c p : Nat) : Nat → List Nat → Except CmdError Unit
  | _, [] => .ok ()
  | i, x :: xs => do
    require (x ≤ Config.maxSample) (rangeError 41#8 (errIdx c p i) (BitVec.ofNat 64 x))
    checkSamples c p (i + 1) xs

/-! ### Packet decoding -/

/-- R178: cumulative sum, from a first value and the successive differences. -/
def cumSum : Int → List Int → List Int
  | x, [] => [x]
  | x, d :: ds => x :: cumSum (x + d) ds

/-- R178: differences from their offset form. -/
def unoffset (off : Int) (es : List Nat) : List Int := es.map fun (e : Nat) => (e : Int) - off

/-- R178: the first reconstructed sample outside 0 … 1023, in order from sample `i` on, is an error. -/
def checkDecoded (c p : Nat) : Nat → List Int → Except CmdError (List Nat)
  | _, [] => .ok []
  | i, x :: xs => do
    require (0 ≤ x ∧ x ≤ (Config.maxSample : Int)) ⟨.decodeError, 41#8, errIdx c p i, wrap64 x⟩
    let ys ← checkDecoded c p (i + 1) xs
    .ok (x.toNat :: ys)

/-- R179: INVALID_PACKET_TYPE records the tag (R264). -/
def tagError (c p t : Nat) : CmdError := ⟨.invalidPacketType, 44#8, errIdx c p idxNA, BitVec.ofNat 64 t⟩

/-- R178, type 0 after its tag. -/
def dec0 (st : Stream) (pos : Nat) : Except CmdError (List Int × Nat) := do
  let (vs, pos) ← takeMany st Config.smpw 64 pos
  .ok (toInts vs, pos)

/-- R178, type 1 after its tag. -/
def dec1 (st : Stream) (pos : Nat) : Except CmdError (List Int × Nat) := do
  let (start, pos) ← take st pos 10
  let (off1, pos) ← take st pos 11
  let (w, pos) ← take st pos 4
  let (es, pos) ← takeMany st w 63 pos
  .ok (cumSum start (unoffset ((off1 : Int) - 1023) es), pos)

/-- R178, type 2 after its tag. -/
def dec2 (st : Stream) (pos : Nat) : Except CmdError (List Int × Nat) := do
  let (start, pos) ← take st pos 10
  let (t2, pos) ← take st pos 11
  let (off1, pos) ← take st pos 11
  let (off2, pos) ← take st pos 12
  let (w, pos) ← take st pos 4
  let (fs, pos) ← takeMany st w 62 pos
  let d := cumSum ((t2 : Int) - ((off1 : Int) - 1023)) (unoffset ((off2 : Int) - 2046) fs)
  .ok (cumSum start d, pos)

/-- R178, type 3 after its tag, with reference samples `r`. -/
def dec3 (st : Stream) (r : List Nat) (pos : Nat) : Except CmdError (List Int × Nat) := do
  let (off3, pos) ← take st pos 11
  let (w, pos) ← take st pos 4
  let (gs, pos) ← takeMany st w 64 pos
  .ok (List.zipWith (fun (a : Nat) (x : Int) => (a : Int) + x) r (unoffset ((off3 : Int) - 1023) gs), pos)

/-- R178: the samples of a packet of type `t`, before their range check. -/
def decBody (st : Stream) (refOK : Bool) (r : List Nat) (c p t pos : Nat) :
    Except CmdError (List Int × Nat) :=
  match t with
  | 0 => dec0 st pos
  | 1 => dec1 st pos
  | 2 => dec2 st pos
  | 3 => if refOK then dec3 st r pos else .error (tagError c p 3)
  | t => .error (tagError c p t)

/-- What PktDec returns: the type, the 64 samples and the position after the packet. -/
structure Packet where
  type : Nat
  samples : List Nat
  after : Nat
  deriving DecidableEq, Repr

/-- R178: `PktDec(refOK, r)` at stream bit `pos`, for packet `p` of channel `c`. -/
def pktDec (st : Stream) (refOK : Bool) (r : List Nat) (c p pos : Nat) : Except CmdError Packet := do
  let (t, pos) ← take st pos 3
  let (xs, pos) ← decBody st refOK r c p t pos
  let s ← checkDecoded c p 0 xs
  .ok ⟨t, s, pos⟩

/-- R178: a sample as the 16-bit word SMP stores. -/
def sampleWords (s : List Nat) : List (BitVec 16) := s.map (BitVec.ofNat 16)

/-! ### Packet commands -/

/-- R176, R200: the reference samples of packet `p` of channel `c`, when type 3 applies. -/
def State.reference (s : State) (c p : Nat) : Option (List Nat) :=
  if refApplies c (s.present 1 p) then some (s.samples 1 p) else none

/-- R200: the validation of the reference samples, when there are any. -/
def checkReference (p : Nat) : Option (List Nat) → Except CmdError Unit
  | some r => checkSamples 1 p 0 r
  | none => .ok ()

/-- R200: size_3, or all ones when type 3 does not apply. -/
def size3 (s : List Nat) : Option (List Nat) → Int
  | some r => packetSize (type3 s r)
  | none => 0xFFFFFFFFFFFFFFFF

/-- R94 point 3, for a term the decoder never produces (log 10). -/
def requireOperands (i : Instr) : Except CmdError Unit :=
  require (i.wellFormed = true) (illegalError (encode i))

/-- R200. -/
def wfPktEnc (c p : Nat) (s : State) : Except CmdError State := do
  let smp := s.samples c p
  let r := s.reference c p
  checkSamples c p 0 smp
  checkReference p r
  let (t, fs) := pktSelect smp r
  let n := fieldsWidth fs
  let b := s.argU 0
  require (b + n ≤ s.streamBits) (overrunError (errIdx c p idxNA) (s.argWord 0))
  .ok ({ s with bitbuf := writeFields s.bitbuf b fs }.writeRes
    [(t : Int), (n : Int), ((b + n : Nat) : Int), (packetSize (type0 smp) : Int), (packetSize (type1 smp) : Int),
      (packetSize (type2 smp) : Int), size3 smp r])

/-- R201. The reference words are used as stored, without a range check. -/
def wfPktDec (c p : Nat) (s : State) : Except CmdError State := do
  let b := s.argU 0
  let pkt ← pktDec s.stream (refApplies c (s.present 1 p)) (s.samples 1 p) c p b
  .ok ({ s with smpMem := Memory.setRange s.smpMem (smpAddr c p 0) (sampleWords pkt.samples) }.writeRes
    [(pkt.type : Int), ((pkt.after - b : Nat) : Int), (pkt.after : Int)])

/-- R200. -/
def execWfPktEnc (ch pkt : BitVec 4) (s : State) : Host.Outcome State Fault Refusal :=
  runCommand (.wfPktEnc ch pkt) s (do requireOperands (.wfPktEnc ch pkt); wfPktEnc ch.toNat pkt.toNat s)

/-- R201. -/
def execWfPktDec (ch pkt : BitVec 4) (s : State) : Host.Outcome State Fault Refusal :=
  runCommand (.wfPktDec ch pkt) s (do requireOperands (.wfPktDec ch pkt); wfPktDec ch.toNat pkt.toNat s)

/-! ### The waveform record -/

/-- R206: the configuration checks of both record commands. -/
def wfCfg (s : State) : Except CmdError Unit := do
  requireSizeBits s.cwfSizeBits.toNat 0x118
  requireFieldBits s [17, 18]

/-- R205: the packets of a record in their order, numbered `c·14 + p`. -/
def slots : List Nat := List.range (Config.nch * Config.maxp)

/-- The channel of packet number `n`. -/
def slotChannel (n : Nat) : Nat := n / Config.maxp

/-- The packet of packet number `n`. -/
def slotPacket (n : Nat) : Nat := n % Config.maxp

/-- R205 row 4: the presence bitmap. -/
def bitmapFields (s : State) : List Field :=
  slots.map fun n => (1, (s.present (slotChannel n) (slotPacket n)).toNat)

/-- R205 row 5: the packets of the listed slots, each validated (R180) before it is encoded. Channel 1's own
packet, when present, has been validated before it is a reference. -/
def recPackets (s : State) : List Nat → Except CmdError (List Field)
  | [] => .ok []
  | n :: ns =>
    let c := slotChannel n
    let p := slotPacket n
    if s.present c p then do
      checkSamples c p 0 (s.samples c p)
      let rest ← recPackets s ns
      .ok ((pktSelect (s.samples c p) (s.reference c p)).2 ++ rest)
    else recPackets s ns

/-- R206: the fields after the size field. -/
def wfFields (s : State) : Except CmdError (List Field) := do
  let ts ← scalarEnc s 17 s.wfTimestamp noIndex
  let scan ← scalarEnc s 18 s.wfScan noIndex
  let packets ← recPackets s slots
  .ok ((s.fieldBits 17, ts) :: (s.fieldBits 18, scan) :: (bitmapFields s ++ packets))

/-- R206. -/
def wfRecEnc (s : State) : Except CmdError State := do
  wfCfg s
  let out ← wfFields s
  let bits := s.cwfSizeBits.toNat
  let t ← writeRecord s bits 40#8 out
  .ok (t.writeRes [(recordSize bits out : Int), (recordBits bits out : Int)])

/-- R207, R208: decodes the packets of the listed slots. `pres` is the record's bitmap and `acc` the packets
decoded so far, so that packet `p` of channel 1 is entry `14 + p`; an absent packet is 64 zeros. -/
def decPackets (st : Stream) (pres : List Nat) : List Nat → List (List Nat) → Nat →
    Except CmdError (List (List Nat) × Nat)
  | [], acc, pos => .ok (acc, pos)
  | n :: ns, acc, pos =>
    let c := slotChannel n
    let p := slotPacket n
    if pres.getD n 0 = 1 then do
      let refOK := refApplies c (pres.getD (Config.maxp + p) 0 == 1)
      let pkt ← pktDec st refOK (acc.getD (Config.maxp + p) []) c p pos
      decPackets st pres ns (acc ++ [pkt.samples]) pkt.after
    else decPackets st pres ns (acc ++ [List.replicate Config.nsmp 0]) pos

/-- R207: `Σ_p pres[c][p]·2^p` over bits listed from p = 0. -/
def presenceValue : List Nat → Nat
  | [] => 0
  | b :: bs => b + 2 * presenceValue bs

/-- R207: PRESENCE[c] from the record's bitmap. -/
def presenceWord (pres : List Nat) (c : Nat) : BitVec 14 :=
  BitVec.ofNat 14 (presenceValue ((pres.drop (c * Config.maxp)).take Config.maxp))

/-- A waveform record as it is read from the stream. -/
structure WfRecord where
  size : Nat
  timestamp : Word
  scan : Word
  bitmap : List Nat
  packets : List (List Nat)
  after : Nat
  deriving DecidableEq, Repr

/-- R207: reads a record from stream bit `pos` on. -/
def readWfRecord (s : State) (pos : Nat) : Except CmdError WfRecord := do
  let st := s.stream
  let (size, pos) ← take st pos s.cwfSizeBits.toNat
  let (ts, pos) ← take st pos (s.fieldBits 17)
  let (scan, pos) ← take st pos (s.fieldBits 18)
  let (pres, pos) ← takeMany st 1 (Config.nch * Config.maxp) pos
  let (packets, pos) ← decPackets st pres slots [] pos
  .ok ⟨size, scalarDec s 17 ts, scalarDec s 18 scan, pres, packets, pos⟩

/-- R207: the size cross-check of both record decoders (field 39 or 40), ERR_INFO the bytes consumed. -/
def checkSize (fid : BitVec 8) (size taken : Nat) : Except CmdError Unit :=
  require (ceil8 taken = size) ⟨.decodeError, fid, noIndex, BitVec.ofNat 64 (ceil8 taken)⟩

/-- R207: every SMP word is written, so the memory is the record's samples. -/
def wfRecDec (s : State) : Except CmdError State := do
  wfCfg s
  let b := 8 * s.argU 0
  let r ← readWfRecord s b
  checkSize 40#8 r.size (r.after - b)
  .ok ({ s with
    wfTimestamp := r.timestamp
    wfScan := r.scan
    presence := Vector.ofFn fun c => presenceWord r.bitmap c.val
    smpMem := Memory.ofUnits 0 (sampleWords r.packets.flatten) }.writeRes [(r.size : Int), ((r.after - b : Nat) : Int)])

/-- R206. -/
def execWfRecEnc (s : State) : Host.Outcome State Fault Refusal := runCommand .wfRecEnc s (wfRecEnc s)

/-- R207. -/
def execWfRecDec (s : State) : Host.Outcome State Fault Refusal := runCommand .wfRecDec s (wfRecDec s)

end Sys2Proof.Machine
end

