-- ==== Sys2Proof/Machine/PointRecord.lean ====
section
/-! DEFINITION. The point-record serializer, 43_point_record.md: PR_ENC (R230) and PR_DEC (R231). The record's
layout (R221, R225) is written once, as a list of items; encoder and decoder both follow it. -/

namespace Sys2Proof.Machine

/-- How one item of the record is packed. -/
inductive PrKind where
  /-- scalar field `k` at FBITS[k] bits (R222) -/
  | scalar (k : Nat)
  /-- a latitude at W_POS bits (R142), reported as field `fid` -/
  | lat (fid : BitVec 8)
  /-- the platform longitude, always at full resolution (R144, D17) -/
  | lonFull (fid : BitVec 8)
  /-- a longitude in the record's mode, relative to the platform longitude (R147) -/
  | lon (fid : BitVec 8)
  deriving DecidableEq, Repr

/-- One item: how it is packed, the REC word it holds, and its ERR_INDEX. -/
structure PrItem where
  kind : PrKind
  word : Nat
  index : BitVec 24
  deriving DecidableEq, Repr

/-- R221 rows 3 to 6: the items before the longitude mode is known to a decoder. -/
def prLead : List PrItem :=
  [⟨.scalar 0, 9, noIndex⟩, ⟨.scalar 1, 10, noIndex⟩, ⟨.lat 32#8, 11, noIndex⟩, ⟨.lonFull 33#8, 12, noIndex⟩]

/-- R221 rows 7 to 14. -/
def prPlatform : List PrItem :=
  [⟨.scalar 2, 13, noIndex⟩, ⟨.scalar 3, 14, noIndex⟩, ⟨.scalar 4, 15, noIndex⟩, ⟨.scalar 5, 16, noIndex⟩,
    ⟨.scalar 6, 17, noIndex⟩, ⟨.scalar 7, 18, noIndex⟩, ⟨.lat 34#8, 19, noIndex⟩, ⟨.lon 35#8, 20, noIndex⟩,
    ⟨.scalar 8, 21, noIndex⟩, ⟨.scalar 9, 22, noIndex⟩, ⟨.scalar 10, 23, noIndex⟩]

/-- R221 row 15: return `r` of channel `c`. -/
def prReturn (c r : Nat) : List PrItem :=
  let ix := errIdx c r idxNA
  [⟨.lat 36#8, retAddr c r 0, ix⟩, ⟨.lon 37#8, retAddr c r 1, ix⟩, ⟨.scalar 11, retAddr c r 2, ix⟩,
    ⟨.scalar 12, retAddr c r 3, ix⟩, ⟨.scalar 13, retAddr c r 4, ix⟩, ⟨.scalar 14, retAddr c r 5, ix⟩,
    ⟨.scalar 15, retAddr c r 6, ix⟩]

/-- R221 row 15: channel `c` with `n` returns, then its waveform class. -/
def prChannel (c n : Nat) : List PrItem :=
  (List.range n).flatMap (prReturn c) ++ [⟨.scalar 16, 24 + c, errIdx c idxNA idxNA⟩]

/-- R221 row 15: all channels, given their return counts. -/
def prChannels (counts : List Nat) : List PrItem :=
  (List.range Config.nch).flatMap fun c => prChannel c (counts.getD c 0)

/-- R221 rows 7 to 15. -/
def prBody (counts : List Nat) : List PrItem := prPlatform ++ prChannels counts

/-- R224: `PrCfg`. -/
def prCfg (s : State) : Except CmdError Unit := do
  geoCfg true s
  requireSizeBits s.cxySizeBits.toNat 0x110
  requireFieldBits s (List.range 17)

/-- The width of an item in a record whose platform latitude is `plat`. -/
def itemWidth (s : State) (plat : Int) : PrKind → Nat
  | .scalar k => s.fieldBits k
  | .lat _ => wPos s.scale
  | .lonFull _ => wPos s.scale
  | .lon _ => (lonMode s.scale s.lonBase plat).width

/-- The packed value of a REC word as an item. -/
def itemEnc (s : State) (plat plon : Int) (index : BitVec 24) (w : Word) : PrKind → Except CmdError Nat
  | .scalar k => scalarEnc s k w index
  | .lat fid => latEnc s.scale (s64 w) fid index
  | .lonFull fid => lonFullEnc s.scale (s64 w) fid index
  | .lon fid => lonEnc s.scale s.lonBase (s64 w) plon plat fid index

/-- The REC word of a packed value. -/
def itemDec (s : State) (plat plon : Int) (p : Nat) : PrKind → Word
  | .scalar k => scalarDec s k p
  | .lat _ => wrap64 (latDec s.scale p)
  | .lonFull _ => wrap64 (lonFullDec s.scale p)
  | .lon _ => wrap64 (lonDec s.scale s.lonBase p plon plat)

/-- R225: the fields of the listed items, or the first violation. -/
def encItems (s : State) (plat plon : Int) : List PrItem → Except CmdError (List Field)
  | [] => .ok []
  | it :: its => do
    let p ← itemEnc s plat plon it.index (s.recWord it.word) it.kind
    let rest ← encItems s plat plon its
    .ok ((itemWidth s plat it.kind, p) :: rest)

/-- R231: reads the listed items from stream bit `pos` on, as (REC address, word) pairs. -/
def decItems (s : State) (plat plon : Int) : List PrItem → Nat → Except CmdError (List (Nat × Word) × Nat)
  | [], pos => .ok ([], pos)
  | it :: its, pos => do
    let (p, pos) ← take s.stream pos (itemWidth s plat it.kind)
    let (ws, pos) ← decItems s plat plon its pos
    .ok ((it.word, itemDec s plat plon p it.kind) :: ws, pos)

/-- R225: the return counts as REC holds them. -/
def State.counts (s : State) : List Nat := (List.range Config.nch).map fun c => u64 (s.recWord c)

/-- R225, R231: the first return count above 4, in order from channel `c` on, is an error. -/
def checkCounts (kind : ErrKind) : Nat → List Nat → Except CmdError Unit
  | _, [] => .ok ()
  | c, n :: ns => do
    require (n ≤ Config.nret) ⟨kind, 38#8, errIdx c idxNA idxNA, BitVec.ofNat 64 n⟩
    checkCounts kind (c + 1) ns

/-- R221: the platform latitude and longitude of the record in REC. -/
def State.plat (s : State) : Int := s64 (s.recWord 11)

/-- R221: the platform longitude of the record in REC. -/
def State.plon (s : State) : Int := s64 (s.recWord 12)

/-- R225: `PrFields`. -/
def prFields (s : State) : Except CmdError (List Field) := do
  checkCounts .valueOutOfRange 0 s.counts
  let items ← encItems s s.plat s.plon (prLead ++ prBody s.counts)
  .ok (s.counts.map (fun n => (3, n)) ++ items)

/-- Signed minimum of two words (R232). -/
def minS (a b : Word) : Word := if s64 a ≤ s64 b then a else b

/-- Signed maximum of two words (R232). -/
def maxS (a b : Word) : Word := if s64 a ≤ s64 b then b else a

/-- R232: the platform position enters the bounds. -/
def Bounds.addPlatform (b : Bounds) (lat lon : Word) : Bounds :=
  { b with minPlat := minS b.minPlat lat, maxPlat := maxS b.maxPlat lat
           minPlon := minS b.minPlon lon, maxPlon := maxS b.maxPlon lon }

/-- R232: the position of a return enters the bounds. -/
def Bounds.addReturn (b : Bounds) (lat lon : Word) : Bounds :=
  { b with minLat := minS b.minLat lat, maxLat := maxS b.maxLat lat
           minLon := minS b.minLon lon, maxLon := maxS b.maxLon lon }

/-- R232: the present returns of a record, as (channel, return) pairs in record order. -/
def presentReturns (counts : List Nat) : List (Nat × Nat) :=
  (List.range Config.nch).flatMap fun c => (List.range (counts.getD c 0)).map fun r => (c, r)

/-- R232: `BoundsUpdate()`. -/
def State.boundsUpdate (s : State) : Bounds :=
  (presentReturns s.counts).foldl
    (fun b cr => b.addReturn (s.recWord (retAddr cr.1 cr.2 0)) (s.recWord (retAddr cr.1 cr.2 1)))
    (s.bounds.addPlatform (s.recWord 11) (s.recWord 12))

/-- R230, R231: what both commands report: size, Wl, full, band. -/
def prResults (s : State) (size : Nat) (plat : Int) : List Int :=
  let mode := lonMode s.scale s.lonBase plat
  [(size : Int), mode.width, mode.full.toNat, latBand s.scale plat]

/-- R230. -/
def prEnc (s : State) : Except CmdError State := do
  prCfg s
  let out ← prFields s
  let bits := s.cxySizeBits.toNat
  let t ← writeRecord s bits 39#8 out
  .ok ({ t with bounds := if s.append then s.boundsUpdate else s.bounds }.writeRes
    (prResults s (recordSize bits out) s.plat))

/-- R231: `take(3)` for each channel from `c` on, each count checked as it is read. -/
def takeCounts (st : Stream) : Nat → Nat → Nat → Except CmdError (List Nat × Nat)
  | 0, _, pos => .ok ([], pos)
  | k + 1, c, pos => do
    let (n, pos) ← take st pos 3
    require (n ≤ Config.nret) ⟨.decodeError, 38#8, errIdx c idxNA idxNA, BitVec.ofNat 64 n⟩
    let (ns, pos) ← takeCounts st k (c + 1) pos
    .ok (n :: ns, pos)

/-- The word written last to REC address `j` by a list of writes, as an integer (log 16); 0 if there is none. -/
def writtenS (ws : List (Nat × Word)) (j : Nat) : Int :=
  match ws.find? (fun p => p.1 == j) with
  | some p => s64 p.2
  | none => 0

/-- R231, D33: items 0 … 6 of the unused return slots become 0. -/
def unusedSlots (counts : List Nat) : List (Nat × Word) :=
  (List.range Config.nch).flatMap fun c =>
    ((List.range Config.nret).filter fun r => decide (counts.getD c 0 ≤ r)).flatMap fun r =>
      (List.range 7).map fun q => (retAddr c r q, 0#64)

/-- Performs a list of writes to REC. -/
def writeRec : Memory 64 → List (Nat × Word) → Memory 64
  | m, [] => m
  | m, p :: ps => writeRec (m.set p.1 p.2) ps

/-- R231: the return counts as REC words. -/
def countWrites (counts : List Nat) : List (Nat × Word) :=
  (List.range Config.nch).map fun c => (c, BitVec.ofNat 64 (counts.getD c 0))

/-- A point record as it is read from the stream. -/
structure PrRecord where
  size : Nat
  plat : Int
  writes : List (Nat × Word)
  after : Nat
  deriving DecidableEq, Repr

/-- R231: reads a record from stream bit `pos` on; the mode is that of the decoded platform latitude. -/
def readPrRecord (s : State) (pos : Nat) : Except CmdError PrRecord := do
  let st := s.stream
  let (size, pos) ← take st pos s.cxySizeBits.toNat
  let (counts, pos) ← takeCounts st Config.nch 0 pos
  let (lead, pos) ← decItems s 0 0 prLead pos
  let plat := writtenS lead 11
  let plon := writtenS lead 12
  let (body, pos) ← decItems s plat plon (prBody counts) pos
  .ok ⟨size, plat, countWrites counts ++ lead ++ body ++ unusedSlots counts, pos⟩

/-- R231. -/
def prDec (s : State) : Except CmdError State := do
  prCfg s
  let b := 8 * s.argU 0
  let r ← readPrRecord s b
  checkSize 39#8 r.size (r.after - b)
  .ok ({ s with recMem := writeRec s.recMem r.writes }.writeRes (prResults s r.size r.plat))

/-- R230. -/
def execPrEnc (s : State) : Host.Outcome State Fault Refusal := runCommand .prEnc s (prEnc s)

/-- R231. -/
def execPrDec (s : State) : Host.Outcome State Fault Refusal := runCommand .prDec s (prDec s)

end Sys2Proof.Machine
end

