-- ==== Sys2Proof/Machine/Status.lean ====
section
/-! DEFINITION. The status helpers and the bounds command of 43_point_record.md: BOUNDS_RESET (R240),
SET_STATUS (R241), GET_STATUS (R242). -/

namespace Sys2Proof.Machine

/-- R240: RES registers are not written. -/
def execBoundsReset (s : State) : Host.Outcome State Fault Refusal :=
  runCommand .boundsReset s (.ok { s with bounds := Bounds.sentinel })

/-- R241: the status word with the mask's bits set or cleared. -/
def setStatusWord (v : BitVec 1) (st mask : Word) : Word := if v = 1#1 then st ||| mask else st &&& ~~~mask

/-- R241. -/
def execSetStatus (v : BitVec 1) (s : State) : Host.Outcome State Fault Refusal :=
  runCommand (.setStatus v) s (.ok (s.writeRes [(u64 (setStatusWord v (s.argWord 0) (s.argWord 1)) : Int)]))

/-- R242: 1 if any bit of the mask is set in the status word. -/
def getStatusBit (st mask : Word) : Nat := if st &&& mask ≠ 0#64 then 1 else 0

/-- R242. -/
def execGetStatus (s : State) : Host.Outcome State Fault Refusal :=
  runCommand .getStatus s (.ok (s.writeRes [(getStatusBit (s.argWord 0) (s.argWord 1) : Int)]))

end Sys2Proof.Machine
end

