-- ==== Sys2Proof/Machine/Dispatch.lean ====
section
/-! DEFINITION. The meaning of each command, one arm per constructor. -/

namespace Sys2Proof.Machine

def exec (i : Instr) (s : State) : Host.Outcome State Fault Refusal :=
  match i with
  | .nop => Sys2Proof.Machine.execNop s
  | .bpack32 w => Sys2Proof.Machine.execBpack32 w s
  | .bunpack32 w => Sys2Proof.Machine.execBunpack32 w s
  | .bpack64 w => Sys2Proof.Machine.execBpack64 w s
  | .bunpack64 w => Sys2Proof.Machine.execBunpack64 w s
  | .geoMode => Sys2Proof.Machine.execGeoMode s
  | .geoLatEnc => Sys2Proof.Machine.execGeoLatEnc s
  | .geoLatDec => Sys2Proof.Machine.execGeoLatDec s
  | .geoLonEnc => Sys2Proof.Machine.execGeoLonEnc s
  | .geoLonDec => Sys2Proof.Machine.execGeoLonDec s
  | .wfPktEnc ch pkt => Sys2Proof.Machine.execWfPktEnc ch pkt s
  | .wfPktDec ch pkt => Sys2Proof.Machine.execWfPktDec ch pkt s
  | .wfRecEnc => Sys2Proof.Machine.execWfRecEnc s
  | .wfRecDec => Sys2Proof.Machine.execWfRecDec s
  | .prEnc => Sys2Proof.Machine.execPrEnc s
  | .prDec => Sys2Proof.Machine.execPrDec s
  | .boundsReset => Sys2Proof.Machine.execBoundsReset s
  | .setStatus v => Sys2Proof.Machine.execSetStatus v s
  | .getStatus => Sys2Proof.Machine.execGetStatus s

end Sys2Proof.Machine
end

