-- ==== Sys2Proof/Machine/HostBus.lean ====
section
/-! DEFINITION. The host side of the block: the host map (R60), accesses by width and alignment (R61), what each
register reads and what a host write to it does (R20 to R39, R70), the soft reset (R291), the BUSY contract
(R72), and how the host's next action, or the command in flight, advances the machine. -/

namespace Sys2Proof.Machine

/-- Bytes of an access. -/
def Width.bytes : Width → Nat
  | .w8 => 1
  | .w16 => 2
  | .w32 => 4
  | .w64 => 8

/-- The rows of the map of R60. -/
inductive RegionKind where
  /-- ID, CTRL, CMD, STATUS, ERR_CODE, ERR_CMD, ERR_FIELD, ERR_INDEX, ERR_INFO -/
  | control
  /-- ARG0 … ARG7 -/
  | argRegs
  /-- RES0 … RES7 -/
  | resRegs
  /-- POS_SCALE, LON_BASE_BITS, CXY_SIZE_BITS, CWF_SIZE_BITS -/
  | config
  /-- the bounds registers -/
  | bounds
  /-- PRESENCE[0 … 8], WF_TIMESTAMP, WF_SCAN -/
  | waveform
  /-- FBITS[k], FOFF[k] -/
  | fieldTable
  /-- REC[0 … 327] -/
  | record
  /-- the SMP memory -/
  | sample
  /-- BITBUF -/
  | buffer
  deriving DecidableEq, Repr

/-- One row of R60: its first address, its size in bytes, its access width. -/
structure Region where
  kind : RegionKind
  base : Nat
  size : Nat
  width : Width
  deriving DecidableEq, Repr

/-- R60, for an instance of `n` buffer bytes. -/
def hostMap (n : Nat) : List Region :=
  [⟨.control, 0x0000, 0x48, .w64⟩, ⟨.argRegs, 0x0080, 0x40, .w64⟩, ⟨.resRegs, 0x00C0, 0x40, .w64⟩,
    ⟨.config, 0x0100, 0x20, .w64⟩, ⟨.bounds, 0x0180, 0x40, .w64⟩, ⟨.waveform, 0x0200, 0x58, .w64⟩,
    ⟨.fieldTable, 0x1000, 0x130, .w64⟩, ⟨.record, 0x2000, 0xA40, .w64⟩, ⟨.sample, 0x4000, 0x3F00, .w16⟩,
    ⟨.buffer, 0x10000, n, .w8⟩]

/-- Whether byte `a` lies in a region. -/
def Region.covers (r : Region) (a : Nat) : Bool := decide (r.base ≤ a ∧ a < r.base + r.size)

/-- The region that maps byte `a`, if any. -/
def regionOf (n a : Nat) : Option Region := (hostMap n).find? fun r => r.covers a

/-- What a host access of a width at an address reaches (R61). -/
inductive Target where
  /-- register or memory unit `index` of a region -/
  | unit (kind : RegionKind) (index : Nat)
  /-- no mapped byte: a read returns 0, a write is ignored -/
  | unmapped
  /-- a wrong width or a misaligned address at a mapped region: no meaning -/
  | bad
  deriving DecidableEq, Repr

/-- R61: an access is one of its region's width at an address aligned to that width; one that touches no
mapped byte is unmapped; any other is bad (log 7). -/
def target (n : Nat) (wd : Width) (a : Nat) : Target :=
  match regionOf n a with
  | some r => if r.width = wd ∧ a % wd.bytes = 0 then .unit r.kind ((a - r.base) / wd.bytes) else .bad
  | none =>
    if (List.range wd.bytes).any (fun k => (regionOf n (a + k)).isSome) then .bad else .unmapped

/-- R34: bounds register `i` in address order. -/
def Bounds.read (b : Bounds) : Nat → Word
  | 0 => b.minLat
  | 1 => b.maxLat
  | 2 => b.minLon
  | 3 => b.maxLon
  | 4 => b.minPlat
  | 5 => b.maxPlat
  | 6 => b.minPlon
  | _ => b.maxPlon

/-- R21 to R25: control register `i` (at 8·i); CMD reads 0. -/
def readControl (s : State) : Nat → Word
  | 0 => Config.idValue
  | 1 => s.ctrl
  | 2 => 0#64
  | 3 => s.status
  | 4 => s.errCode.setWidth 64
  | 5 => s.errCmd
  | 6 => s.errField.setWidth 64
  | 7 => s.errIndex.setWidth 64
  | _ => s.errInfo

/-- R28, R30, R31: configuration register `i` (at 0x100 + 8·i). -/
def readConfig (s : State) : Nat → Word
  | 0 => s.posScale.setWidth 64
  | 1 => s.lonBaseBits.setWidth 64
  | 2 => s.cxySizeBits.setWidth 64
  | _ => s.cwfSizeBits.setWidth 64

/-- R35, R36: PRESENCE[0 … 8], then WF_TIMESTAMP, then WF_SCAN. -/
def readWaveform (s : State) (i : Nat) : Word :=
  if i < 9 then (s.presence.getD i 0#14).setWidth 64 else if i = 9 then s.wfTimestamp else s.wfScan

/-- R32: FBITS[k] at even and FOFF[k] at odd places. -/
def readFieldTable (s : State) (i : Nat) : Word :=
  if i % 2 = 0 then (s.fbits.getD (i / 2) 0#7).setWidth 64 else s.foff.getD (i / 2) 0#64

/-- What a host read of a mapped unit returns (R20: reserved bits read 0); no read has a side effect (R70). -/
def readUnit (s : State) : RegionKind → Nat → Word
  | .control, i => readControl s i
  | .argRegs, i => s.argWord i
  | .resRegs, i => s.resWord i
  | .config, i => readConfig s i
  | .bounds, i => s.bounds.read i
  | .waveform, i => readWaveform s i
  | .fieldTable, i => readFieldTable s i
  | .record, i => s.recMem.get i
  | .sample, i => (s.smpMem.get i).setWidth 64
  | .buffer, i => (s.bitbuf.get i).setWidth 64

/-- R291: every register takes its reset value; REC, SMP and BITBUF keep theirs, and so does what is not the
block's (log 15). -/
def State.softReset (s : State) : State :=
  { State.powerOn s.bitbufBytes s.recMem s.smpMem s.bitbuf with
    script := s.script, durations := s.durations, rdata := s.rdata }

/-- R22, R291: a host write of CTRL. -/
def writeCtrl (s : State) (v : Word) : State :=
  if v.getLsbD 2 then s.softReset else { s with irqEn := v.getLsbD 0, append := v.getLsbD 1 }

/-- R24: a host write of STATUS; DONE is cleared by writing 1, the rest is read-only. -/
def writeStatus (s : State) (v : Word) : State := if v.getLsbD 1 then { s with done := false } else s

/-- How the machine goes on from one step's point of view. -/
inductive Advance where
  /-- to this state -/
  | next (s : State)
  /-- the step has no meaning -/
  | refuse (r : Refusal)
  /-- the engine executes command word `w` in state `s`, to completion -/
  | execute (w : Word) (s : State)
  deriving DecidableEq, Repr

/-- R23, R260: a host write of CMD starts the command. It completes in this same step, or its transaction stays
in flight for the steps its duration says (R260: "in the same step as the write, or any finite number of host
steps later"; log 4). -/
def startCommand (s : State) (w : Word) : Advance :=
  match s.durations.headD 0 with
  | 0 => .execute w (s.issue w)
  | n + 1 => .next { s.issue w with inflight := some ⟨w, n⟩ }

/-- R21 to R25: a host write of control register `i`; ID and ERR_* are read-only. -/
def writeControl (s : State) (v : Word) : Nat → Advance
  | 1 => .next (writeCtrl s v)
  | 2 => startCommand s v
  | 3 => .next (writeStatus s v)
  | _ => .next s

/-- R28, R30, R31: a host write of configuration register `i` keeps the implemented bits (R20). -/
def writeConfig (s : State) (v : Word) : Nat → State
  | 0 => { s with posScale := v.setWidth 32 }
  | 1 => { s with lonBaseBits := v.setWidth 7 }
  | 2 => { s with cxySizeBits := v.setWidth 7 }
  | _ => { s with cwfSizeBits := v.setWidth 7 }

/-- R35, R36: a host write of PRESENCE[i], WF_TIMESTAMP or WF_SCAN. -/
def writeWaveform (s : State) (v : Word) (i : Nat) : State :=
  if i < 9 then { s with presence := s.presence.setIfInBounds i (v.setWidth 14) }
  else if i = 9 then { s with wfTimestamp := v } else { s with wfScan := v }

/-- R32: a host write of FBITS[k] or FOFF[k]. -/
def writeFieldTable (s : State) (v : Word) (i : Nat) : State :=
  if i % 2 = 0 then { s with fbits := s.fbits.setIfInBounds (i / 2) (v.setWidth 7) }
  else { s with foff := s.foff.setIfInBounds (i / 2) v }

/-- What a host write to a mapped unit does; writes to read-only registers are ignored (R20). -/
def writeUnit (s : State) (v : Word) : RegionKind → Nat → Advance
  | .control, i => writeControl s v i
  | .argRegs, i => .next { s with arg := s.arg.setIfInBounds i v }
  | .resRegs, _ => .next s
  | .config, i => .next (writeConfig s v i)
  | .bounds, _ => .next s
  | .waveform, i => .next (writeWaveform s v i)
  | .fieldTable, i => .next (writeFieldTable s v i)
  | .record, i => .next { s with recMem := s.recMem.set i v }
  | .sample, i => .next { s with smpMem := s.smpMem.set i (v.setWidth 16) }
  | .buffer, i => .next { s with bitbuf := s.bitbuf.set i (v.setWidth 8) }

/-- R72: while BUSY, a unit other than STATUS may not be accessed (nor an unmapped address, log 7). -/
def busyForbids (s : State) (t : Target) : Bool := s.busy && decide (t ≠ .unit .control 3)

/-- A host write of `v` at an address (R61, R70, R72). -/
def busWrite (s : State) (wd : Width) (a : BitVec 32) (v : Word) : Advance :=
  let t := target s.bitbufBytes wd a.toNat
  match t with
  | .bad => .refuse .badAccess
  | .unmapped => if busyForbids s t then .refuse .busyAccess else .next s
  | .unit k i => if busyForbids s t then .refuse .busyAccess else writeUnit s v k i

/-- A host read at an address; the value read becomes `rdata` (R61, R70, R72). -/
def busRead (s : State) (wd : Width) (a : BitVec 32) : Advance :=
  let t := target s.bitbufBytes wd a.toNat
  match t with
  | .bad => .refuse .badAccess
  | .unmapped => if busyForbids s t then .refuse .busyAccess else .next { s with rdata := 0#64 }
  | .unit k i => if busyForbids s t then .refuse .busyAccess else .next { s with rdata := readUnit s k i }

/-- One host action, `s` being the state with the action taken off its script. WAIT reads STATUS and stays until
DONE is 1; CHECK reads STATUS and ends the script if ERR is 1 (R97, R98; log 9). -/
def hostAct (s : State) : HostOp → Advance
  | .write wd a v => busWrite s wd a v
  | .read wd a => busRead s wd a
  | .wait => .next { s with rdata := s.status, script := if s.done then s.script else .wait :: s.script }
  | .check => .next { s with rdata := s.status, script := if s.err then [] else s.script }

/-- The host's turn: its next action, or nothing, in which case all state is kept (R277; log 3). -/
def hostTurn (s : State) : Advance :=
  match s.script with
  | [] => .next s
  | op :: rest => hostAct { s with script := rest } op

/-- One step of the machine before any command executes: a command in flight whose time has come completes;
otherwise the host acts, and the time of a command in flight runs down (R260, R297; log 4). -/
def advance (s : State) : Advance :=
  match s.inflight with
  | none => hostTurn s
  | some f =>
    match f.remaining with
    | 0 => .execute f.word s
    | n + 1 => hostTurn { s with inflight := some ⟨f.word, n⟩ }

/-- R23: the host address of CMD. -/
def addrCmd : BitVec 32 := 0x010#32

/-- The state whose next step is the host's write of command word `w` to CMD, completed in that step: no
command in flight, the write first in the script, and a duration of 0 for it (log 8). -/
def State.withCommand (s : State) (w : Word) : State :=
  { s with inflight := none, script := .write .w64 addrCmd w :: s.script, durations := 0 :: s.durations }

end Sys2Proof.Machine
end

