-- ==== Sys2Proof/Machine/Step.lean ====
section
/-! DEFINITION. The step function: one host action, one idle step, or one command executed to completion
(R16, R260). -/

namespace Sys2Proof.Machine

/-- R260: the engine executes a command word: the command it decodes to, or ILLEGAL_COMMAND (R94). -/
def runWord (w : Word) (s : State) : Host.Outcome State Fault Refusal :=
  match decode w with
  | .ok i => exec i s
  | .error _ => .next (illegalCommand w s)

/-- One step of the machine. -/
def step (s : State) : Host.Outcome State Fault Refusal :=
  match advance s with
  | .next t => .next t
  | .refuse r => .refused r
  | .execute w t => runWord w t

/-- `s` with the command whose bits are `w`, numbered as the opcode table numbers them, as the host's next write
to CMD (log 8): the very next step executes it. -/
def State.withFetchWord (s : State) (nbits w : Nat) : State := s.withCommand (BitVec.ofNat 64 (w % 2 ^ nbits))

end Sys2Proof.Machine
end

