-- ==== Sys2Proof/Machine/Script.lean ====
section
/-! DEFINITION. The host script language of R97 and the pseudo-instructions of R98, as lists of host actions.
Addresses of registers and memories are those of 10_state.md. -/

namespace Sys2Proof.Machine

/-- R26: the address of ARG`i`. -/
def addrArg (i : Nat) : BitVec 32 := BitVec.ofNat 32 (0x080 + 8 * i)
/-- R27: the address of RES`i`. -/
def addrRes (i : Nat) : BitVec 32 := BitVec.ofNat 32 (0x0C0 + 8 * i)
/-- R22: the address of CTRL. -/
def addrCtrl : BitVec 32 := 0x008#32
/-- R24: the address of STATUS. -/
def addrStatus : BitVec 32 := 0x018#32
/-- R28: the address of POS_SCALE. -/
def addrPosScale : BitVec 32 := 0x100#32
/-- R30: the address of LON_BASE_BITS. -/
def addrLonBase : BitVec 32 := 0x108#32
/-- R31: the address of CXY_SIZE_BITS. -/
def addrCxySize : BitVec 32 := 0x110#32
/-- R31: the address of CWF_SIZE_BITS. -/
def addrCwfSize : BitVec 32 := 0x118#32
/-- R35: the address of PRESENCE[c]. -/
def addrPresence (c : Nat) : BitVec 32 := BitVec.ofNat 32 (0x200 + 8 * c)
/-- R32: the address of FBITS[k]. -/
def addrFbits (k : Nat) : BitVec 32 := BitVec.ofNat 32 (0x1000 + 16 * k)
/-- R32: the address of FOFF[k]. -/
def addrFoff (k : Nat) : BitVec 32 := BitVec.ofNat 32 (0x1008 + 16 * k)
/-- R38: the address of REC[j]. -/
def addrRec (j : Nat) : BitVec 32 := BitVec.ofNat 32 (0x2000 + 8 * j)
/-- R37: the address of SMP[c][p][i]. -/
def addrSmp (c p i : Nat) : BitVec 32 := BitVec.ofNat 32 (0x4000 + 2 * smpAddr c p i)
/-- R39: the address of BITBUF[a]. -/
def addrBuf (a : Nat) : BitVec 32 := BitVec.ofNat 32 (0x10000 + a)

/-- R97 `WR <reg>, <value>`; a negative value is written as `wrap64` of it. -/
def wr (a : BitVec 32) (v : Int) : HostOp := .write .w64 a (wrap64 v)
/-- R97 `WR16 SMP[c][p][i], <value>`. -/
def wr16 (c p i : Nat) (v : Int) : HostOp := .write .w16 (addrSmp c p i) (wrap64 v)
/-- R97 `WR8 BITBUF[a], <value>`. -/
def wr8 (a : Nat) (v : Int) : HostOp := .write .w8 (addrBuf a) (wrap64 v)
/-- R97 `RD <reg>`. -/
def rd (a : BitVec 32) : HostOp := .read .w64 a
/-- R97 `RD16 SMP[c][p][i]`. -/
def rd16 (c p i : Nat) : HostOp := .read .w16 (addrSmp c p i)
/-- R97 `RD8 BITBUF[a]`. -/
def rd8 (a : Nat) : HostOp := .read .w8 (addrBuf a)
/-- R97 `CMD <mnemonic> [fields]`: a host write of the assembled word to CMD. -/
def cmd (i : Instr) : HostOp := .write .w64 addrCmd (encode i)

/-- R98 `RUN <mnemonic> [fields]`. -/
def run (i : Instr) : List HostOp := [cmd i, .wait]
/-- R98 `PACK32 b, w, v`. -/
def pack32 (b : Int) (w : BitVec 7) (v : Int) : List HostOp := wr (addrArg 0) b :: wr (addrArg 1) v :: run (.bpack32 w)
/-- R98 `UNPACK32 b, w`. -/
def unpack32 (b : Int) (w : BitVec 7) : List HostOp := wr (addrArg 0) b :: run (.bunpack32 w)
/-- R98 `PACK64 b, w, v`. -/
def pack64 (b : Int) (w : BitVec 7) (v : Int) : List HostOp := wr (addrArg 0) b :: wr (addrArg 1) v :: run (.bpack64 w)
/-- R98 `UNPACK64 b, w`. -/
def unpack64 (b : Int) (w : BitVec 7) : List HostOp := wr (addrArg 0) b :: run (.bunpack64 w)
/-- R98 `LATENC lat`. -/
def latenc (lat : Int) : List HostOp := wr (addrArg 0) lat :: run .geoLatEnc
/-- R98 `LONENC val, ref, plat`. -/
def lonenc (val ref plat : Int) : List HostOp :=
  wr (addrArg 0) val :: wr (addrArg 1) ref :: wr (addrArg 2) plat :: run .geoLonEnc

end Sys2Proof.Machine
end

