-- ==== Sys2Proof/Safety.lean ====
section
/-! DEFINITION. The terms the statements use: the invariant of the block, the conditions on state and operands under which each
command succeeds (read from the range and configuration rules) and the checks of R265, what a failed command leaves, what
it means that BITBUF holds given fields, the samples a decoder rebuilds from a packet, which words of REC a point record
holds, the rows of the host map as numbers, and what it is for a register or memory unit to read as a word and to read back. -/

namespace Sys2Proof.Machine

/-! ### The invariant -/

/-- R263: the field identifiers an error can record (0 is also the reset value). -/
abbrev errFieldLegal (f : BitVec 8) : Prop := f.toNat ≤ 18 ∨ (32 ≤ f.toNat ∧ f.toNat ≤ 45) ∨ f.toNat = 255

/-- What every step of the block keeps: a legal instance, canonical memories of the sizes the spec gives, status
and last-error registers that agree and hold only codes and field identifiers the spec lists, and DONE = 0
while BUSY = 1. -/
structure State.Inv (s : State) : Prop where
  /-- R8 -/
  instanceLegal : Config.legalBitbufBytes s.bitbufBytes
  /-- R38 -/
  recCanonical : Memory.wf Config.recWords s.recMem
  /-- R37 -/
  smpCanonical : Memory.wf Config.smpWords s.smpMem
  /-- R39 -/
  bufCanonical : Memory.wf s.bitbufBytes s.bitbuf
  /-- R261 -/
  codeLegal : s.code.toNat ≤ 7
  /-- R261 -/
  errCodeLegal : s.errCode.toNat ≤ 7
  /-- R24 -/
  errIffCode : s.err = true ↔ s.code ≠ 0#8
  /-- R260: a failure writes the same code to STATUS and ERR_CODE -/
  codeRecorded : s.err = true → s.errCode = s.code
  /-- R263 -/
  fieldLegal : errFieldLegal s.errField
  /-- R260 -/
  busyNotDone : s.busy = true → s.done = false

/-! ### Conditions on configuration and values -/

/-- R141: POS_SCALE is legal. -/
abbrev State.scaleLegal (s : State) : Prop := 1 ≤ s.scale

/-- R141: LON_BASE_BITS is legal. -/
abbrev State.lonBaseLegal (s : State) : Prop := 1 ≤ s.lonBase ∧ s.lonBase ≤ 61

/-- R142: a latitude fits its field. -/
abbrev latFits (S : Nat) (lat : Int) : Prop := 0 ≤ lat + 90 * S ∧ lat + 90 * S < 2 ^ wPos S

/-- R144: a full-resolution longitude fits its field. -/
abbrev lonFullFits (S : Nat) (lon : Int) : Prop := 0 ≤ lon + 180 * S ∧ lon + 180 * S < 2 ^ wPos S

/-- R146: "The representable differences are −2^(W−1) ≤ ref − val ≤ 2^(W−1) − 1". -/
abbrev lonDeltaFits (w : Nat) (val ref : Int) : Prop :=
  -(2 ^ (w - 1) : Int) ≤ ref - val ∧ ref - val ≤ 2 ^ (w - 1) - 1

/-- R147: a longitude fits its field in the mode of `plat`. -/
abbrev lonFits (S B : Nat) (val ref plat : Int) : Prop :=
  if (lonMode S B plat).full = true then lonFullFits S val else lonDeltaFits (lonMode S B plat).width val ref

/-- R222: the word `w` fits scalar field `k`. -/
abbrev State.scalarFits (s : State) (k : Nat) (w : Word) : Prop :=
  0 ≤ scalarValue k w + s.fieldOffset k ∧ scalarValue k w + s.fieldOffset k < 2 ^ s.fieldBits k

/-- R265: the configuration a waveform record needs. -/
structure State.WfConfig (s : State) : Prop where
  sizeBits : 1 ≤ s.cwfSizeBits.toNat ∧ s.cwfSizeBits.toNat ≤ 64
  bits17 : s.fieldBits 17 ≤ 64
  bits18 : s.fieldBits 18 ≤ 64

/-- R265: the configuration a point record needs. -/
structure State.PrConfig (s : State) : Prop where
  scale : s.scaleLegal
  lonBase : s.lonBaseLegal
  sizeBits : 1 ≤ s.cxySizeBits.toNat ∧ s.cxySizeBits.toNat ≤ 64
  fieldBits : ∀ k, k < 17 → s.fieldBits k ≤ 64

/-- R265: the configuration checks of each command in their order, each as whether the register is legal and the
register's address (R28, R30 to R32). -/
def configChecks (i : Instr) (s : State) : List (Bool × Nat) :=
  let scale := (decide (1 ≤ s.scale), 0x100)
  let lonBase := (decide (1 ≤ s.lonBase ∧ s.lonBase ≤ 61), 0x108)
  let fieldBits (k : Nat) := (decide (s.fieldBits k ≤ 64), 0x1000 + 16 * k)
  match i with
  | .geoMode => [scale, lonBase]
  | .geoLonEnc => [scale, lonBase]
  | .geoLonDec => [scale, lonBase]
  | .geoLatEnc => [scale]
  | .geoLatDec => [scale]
  | .wfRecEnc => [(decide (1 ≤ s.cwfSizeBits.toNat ∧ s.cwfSizeBits.toNat ≤ 64), 0x118), fieldBits 17, fieldBits 18]
  | .wfRecDec => [(decide (1 ≤ s.cwfSizeBits.toNat ∧ s.cwfSizeBits.toNat ≤ 64), 0x118), fieldBits 17, fieldBits 18]
  | .prEnc => [scale, lonBase, (decide (1 ≤ s.cxySizeBits.toNat ∧ s.cxySizeBits.toNat ≤ 64), 0x110)] ++
      (List.range 17).map fieldBits
  | .prDec => [scale, lonBase, (decide (1 ≤ s.cxySizeBits.toNat ∧ s.cxySizeBits.toNat ≤ 64), 0x110)] ++
      (List.range 17).map fieldBits
  | .nop => []
  | .bpack32 _ => []
  | .bunpack32 _ => []
  | .bpack64 _ => []
  | .bunpack64 _ => []
  | .wfPktEnc _ _ => []
  | .wfPktDec _ _ => []
  | .boundsReset => []
  | .setStatus _ => []
  | .getStatus => []

/-- R37, R180: every sample of a packet is legal. -/
abbrev samplesLegal (xs : List Nat) : Prop := ∀ x ∈ xs, x ≤ Config.maxSample

/-- R206: the values a waveform record needs: timestamp and scan angle that fit their fields, and legal samples
in every present packet. -/
structure State.WfValues (s : State) : Prop where
  timestamp : s.scalarFits 17 s.wfTimestamp
  scan : s.scalarFits 18 s.wfScan
  samples : ∀ c p, c < Config.nch → p < Config.maxp → s.present c p = true → samplesLegal (s.samples c p)

/-- R263: the field an item of a point record is reported as. -/
def PrKind.field : PrKind → BitVec 8
  | .scalar k => BitVec.ofNat 8 k
  | .lat fid => fid
  | .lonFull fid => fid
  | .lon fid => fid

/-- R225: a REC word fits the item it is packed as. -/
def State.itemFits (s : State) (w : Word) : PrKind → Prop
  | .scalar k => s.scalarFits k w
  | .lat _ => latFits s.scale (s64 w)
  | .lonFull _ => lonFullFits s.scale (s64 w)
  | .lon _ => lonFits s.scale s.lonBase (s64 w) s.plon s.plat

/-- R225: the values a point record needs: return counts up to 4, and every item of the record within its
field. -/
structure State.PrValues (s : State) : Prop where
  counts : ∀ c, c < Config.nch → (s.recWord c).toNat ≤ 4
  items : ∀ it ∈ prLead ++ prBody s.counts, s.itemFits (s.recWord it.word) it.kind

/-! ### Fields in BITBUF -/

/-- From stream bit `b` on, BITBUF holds the listed fields (R63), each value within its width. -/
def fieldsAt (m : Memory 8) : Nat → List Field → Prop
  | _, [] => True
  | b, f :: fs => bitRead m b f.1 = f.2 ∧ fieldsAt m (b + f.1) fs

/-- Two buffers agree outside stream bits `b … b + n − 1`. -/
abbrev sameBitsOutside (b n : Nat) (m m' : Memory 8) : Prop :=
  ∀ i, ¬ (b ≤ i ∧ i < b + n) → streamBit m' i = streamBit m i

/-- Two buffers agree in every byte outside bytes `a … a + n − 1`. -/
abbrev sameBytesOutside (a n : Nat) (m m' : Memory 8) : Prop :=
  ∀ k, ¬ (a ≤ k ∧ k < a + n) → m'.get k = m.get k

/-! ### Records -/

/-- R171 to R174: the encoding of type `t` of a packet, with `r` its reference samples. -/
def typeFields (t : Nat) (s r : List Nat) : List Field :=
  match t with
  | 0 => type0 s
  | 1 => type1 s
  | 2 => type2 s
  | _ => type3 s r

/-- R178: how many bits the packet of type `t` at stream bit `b` has, its width field as BITBUF holds it. -/
def rebuiltBits (m : Memory 8) (b t : Nat) : Nat :=
  match t with
  | 0 => 643
  | 1 => 28 + 63 * bitRead m (b + 24) 4
  | 2 => 51 + 62 * bitRead m (b + 47) 4
  | _ => 18 + 64 * bitRead m (b + 14) 4

/-- R178: sample `i` that the fields of the packet of type `t` at stream bit `b` rebuild, whatever they hold, before
the range check; `r` are the reference samples. -/
def rebuilt (m : Memory 8) (b t : Nat) (r : List Nat) (i : Nat) : Int :=
  match t with
  | 0 => bitRead m (b + 3 + 10 * i) 10
  | 1 =>
    let off1 : Int := bitRead m (b + 13) 11 - 1023
    let w := bitRead m (b + 24) 4
    bitRead m (b + 3) 10 + ∑ k ∈ Finset.range i, ((bitRead m (b + 28 + w * k) w : Int) - off1)
  | 2 =>
    let off1 : Int := bitRead m (b + 24) 11 - 1023
    let off2 : Int := bitRead m (b + 35) 12 - 2046
    let w := bitRead m (b + 47) 4
    bitRead m (b + 3) 10 + ∑ k ∈ Finset.range i, ((bitRead m (b + 13) 11 : Int) - off1 +
      ∑ j ∈ Finset.range k, ((bitRead m (b + 51 + w * j) w : Int) - off2))
  | _ =>
    let off3 : Int := bitRead m (b + 3) 11 - 1023
    let w := bitRead m (b + 14) 4
    r.getD i 0 + ((bitRead m (b + 18 + w * i) w : Int) - off3)

/-- R178, R180: a sample in range. -/
abbrev sampleInRange (x : Int) : Prop := 0 ≤ x ∧ x ≤ 1023

/-- A packet of the block: 64 samples of at most 1023 (R170). -/
abbrev packetLegal (xs : List Nat) : Prop := xs.length = 64 ∧ samplesLegal xs

/-- R233 law 1: the REC words a record with these return counts holds. -/
def prHolds (counts : List Nat) (j : Nat) : Bool :=
  decide (j < 33) ||
    (decide (40 ≤ j ∧ j < Config.recWords) &&
      (decide ((j - 40) % 8 ≤ 6) && decide ((j - 40) / 8 % 4 < counts.getD ((j - 40) / 32) 0)))

/-- R231: the REC words a decoder sets to 0, items 0 … 6 of the unused return slots. -/
def prUnused (counts : List Nat) (j : Nat) : Bool :=
  decide (40 ≤ j ∧ j < Config.recWords) &&
    (decide ((j - 40) % 8 ≤ 6) && decide (counts.getD ((j - 40) / 32) 0 ≤ (j - 40) / 8 % 4))

/-- R294: the configuration two states need to agree in for a point record. -/
structure State.SamePrConfig (s t : State) : Prop where
  scale : s.posScale = t.posScale
  lonBase : s.lonBaseBits = t.lonBaseBits
  sizeBits : s.cxySizeBits = t.cxySizeBits
  bits : s.fbits = t.fbits
  offsets : s.foff = t.foff

/-- R294: the configuration two states need to agree in for a waveform record. -/
structure State.SameWfConfig (s t : State) : Prop where
  sizeBits : s.cwfSizeBits = t.cwfSizeBits
  bits : s.fbits = t.fbits
  offsets : s.foff = t.foff

/-! ### Words and results -/

/-- R94, R91, R93, read off the tables: the words that are not illegal. -/
def legalWord (w : Word) : Prop :=
  let op := w.toNat % 256
  (w.toNat < 2 ^ 8 ∧ op ∈ [0x00, 0x10, 0x11, 0x12, 0x13, 0x14, 0x22, 0x23, 0x30, 0x31, 0x32, 0x41]) ∨
    (w.toNat < 2 ^ 15 ∧ op ∈ [0x01, 0x02, 0x03, 0x04]) ∨
    (w.toNat < 2 ^ 16 ∧ op ∈ [0x20, 0x21] ∧ w.toNat / 2 ^ 8 % 16 ≤ 8 ∧ w.toNat / 2 ^ 12 ≤ 13) ∨
    (w.toNat < 2 ^ 9 ∧ op = 0x40)

/-- R260, R262: `s` after command word `w` has failed with this error. -/
abbrev State.failedWith (s : State) (code : BitVec 8) (w : Word) (field : BitVec 8) (index : BitVec 24) (info : Word) :
    State :=
  { s with
    inflight := none, done := true, err := true, code := code
    errCode := code, errCmd := w, errField := field, errIndex := index, errInfo := info }

/-- R60 as numbers: a row's first and last byte and its access width in bytes, for an instance of `n` buffer bytes. -/
def hostRows (n : Nat) : List (Nat × Nat × Nat) :=
  [(0x0000, 0x0047, 8), (0x0080, 0x00BF, 8), (0x00C0, 0x00FF, 8), (0x0100, 0x011F, 8), (0x0180, 0x01BF, 8),
    (0x0200, 0x0257, 8), (0x1000, 0x112F, 8), (0x2000, 0x2A3F, 8), (0x4000, 0x7EFF, 2), (0x10000, 0x10000 + n - 1, 1)]

/-- A host read of width `wd` at `a` returns `w` and has no side effect (R70). -/
abbrev State.reads (s : State) (wd : Width) (a : BitVec 32) (w : Word) : Prop :=
  busRead s wd a = .next { s with rdata := w }

/-- A host write of `v` leads from `s` to `t`, and a host read of the same place then returns the low `bits` bits of
`v` and changes nothing else. -/
abbrev State.readsBack (s : State) (wd : Width) (a : BitVec 32) (v : Word) (bits : Nat) (t : State) : Prop :=
  busWrite s wd a v = .next t ∧ t.reads wd a (BitVec.ofNat 64 (v.toNat % 2 ^ bits))

/-- The RES registers of `t` are those of `s` but for RES0, RES1, …, which hold the listed words (R27). -/
abbrev resAre (s t : State) (ws : List Word) : Prop :=
  ∀ j, j < 8 → t.resWord j = ws.getD j (s.resWord j)

/-- How many RES registers, from RES0 on, each command's rule writes. -/
def resCount : Instr → Nat
  | .nop => 0
  | .bpack32 _ => 1
  | .bunpack32 _ => 2
  | .bpack64 _ => 1
  | .bunpack64 _ => 2
  | .geoMode => 4
  | .geoLatEnc => 2
  | .geoLatDec => 2
  | .geoLonEnc => 3
  | .geoLonDec => 3
  | .wfPktEnc _ _ => 7
  | .wfPktDec _ _ => 3
  | .wfRecEnc => 2
  | .wfRecDec => 2
  | .prEnc => 4
  | .prDec => 4
  | .boundsReset => 0
  | .setStatus _ => 1
  | .getStatus => 1

/-- R177: type `t` may encode a packet (type 3 only where it applies). -/
abbrev typeApplies (t : Nat) (refOK : Bool) : Prop := t ≤ 2 ∨ (t = 3 ∧ refOK = true)

/-- R177: `t` is the chosen type: the least size, and the least type of that size. -/
abbrev typeChosen (t : Nat) (refOK : Bool) (s r : List Nat) : Prop :=
  typeApplies t refOK ∧ ∀ u, typeApplies u refOK →
    packetSize (typeFields t s r) ≤ packetSize (typeFields u s r) ∧
      (u < t → packetSize (typeFields t s r) < packetSize (typeFields u s r))

/-- R205 rows 2 to 5: the fields of the waveform record in `s` after its size field. -/
def State.wfOut (s : State) : List Field :=
  [(s.fieldBits 17, (scalarValue 17 s.wfTimestamp + s.fieldOffset 17).toNat),
    (s.fieldBits 18, (scalarValue 18 s.wfScan + s.fieldOffset 18).toNat)] ++
    (slots.map fun n => (1, (s.present (slotChannel n) (slotPacket n)).toNat)) ++
    slots.flatMap fun n =>
      if s.present (slotChannel n) (slotPacket n) then
        (pktSelect (s.samples (slotChannel n) (slotPacket n)) (s.reference (slotChannel n) (slotPacket n))).2
      else []

/-- R221: the packed value of a REC word as an item. -/
def State.itemValue (s : State) (w : Word) : PrKind → Int
  | .scalar k => scalarValue k w + s.fieldOffset k
  | .lat _ => s64 w + 90 * s.scale
  | .lonFull _ => s64 w + 180 * s.scale
  | .lon _ =>
    if (lonMode s.scale s.lonBase s.plat).full then s64 w + 180 * s.scale
    else (s.plon - s64 w) + 2 ^ ((lonMode s.scale s.lonBase s.plat).width - 1)

/-- R221 rows 2 to 15: the fields of the point record in `s` after its size field. -/
def State.prOut (s : State) : List Field :=
  (s.counts.map fun n => (3, n)) ++
    (prLead ++ prBody s.counts).map fun it =>
      (itemWidth s s.plat it.kind, (s.itemValue (s.recWord it.word) it.kind).toNat)

/-- R72: the host actions allowed while a command is in flight. -/
def respectsBusy : HostOp → Bool
  | .write wd a _ => decide (wd = .w64 ∧ a = addrStatus)
  | .read wd a => decide (wd = .w64 ∧ a = addrStatus)
  | .wait => true
  | .check => true

end Sys2Proof.Machine
end

