-- ==== Sys2Proof/Certificates/Slice0/Obligations.lean ====
section
/-! DEFINITION. The statements for the provers. Each is about the machine, for every state and operand that meets
its hypotheses; the docstring names the rule it formalises. -/

open Sys2Proof Sys2Proof.Machine

/-! ### Encoding (30_encoding.md) -/

/-- R90 to R93: decoding the word of a well-formed command gives the command back, at every operand value. -/
def Obligations.DecodeAfterEncode : Prop :=
  ∀ i : Instr, i.wellFormed = true → decode (encode i) = .ok i

/-- R90 to R94: a word that decodes is the word of exactly that command, and the command is well formed: no bit is
dropped and no two commands share a word. -/
def Obligations.EncodeAfterDecode : Prop :=
  ∀ (w : Word) (i : Instr), decode w = .ok i → encode i = w ∧ i.wellFormed = true

/-- R94: the words that are not one of the 19 opcodes with reserved bits 0 and CH ≤ 8, PKT ≤ 13 are exactly those
the decoder refuses, and such a word, issued in any state, changes nothing but the error and status registers:
ILLEGAL_COMMAND (3), ERR_FIELD 0xFF, ERR_INFO the command word. -/
def Obligations.IllegalWordsAbort : Prop :=
  ∀ w : Word, ((∃ i, decode w = .ok i) ↔ legalWord w) ∧
    (¬ legalWord w → ∀ s : State, runWord w s = .next { s with
      inflight := none, done := true, err := true, code := 3#8
      errCode := 3#8, errCmd := w, errField := 0xFF#8, errIndex := 0xFFFFFF#24, errInfo := w })

/-- Sanity: words written out from the formats of R91 and the opcodes of R93, one per format and family. -/
def Obligations.SampleWordsDecode : Prop :=
  decode (0#48 ++ 0b0000101000000001#16) = .ok (.bpack32 10#7) ∧
    decode (0#48 ++ 0b0000000000010000#16) = .ok .geoMode ∧
    decode (0#48 ++ 0b1101001000100000#16) = .ok (.wfPktEnc 2#4 13#4) ∧
    decode (0#48 ++ 0b0000000000110000#16) = .ok .prEnc ∧
    decode (0#48 ++ 0b0000000101000000#16) = .ok (.setStatus 1#1)

/-! ### Steps (60_exceptions.md R260, 70_reset_and_hazards.md R297) -/

/-- R23, R260, R297: a step runs the issued command word: the command it decodes to, or, for an illegal word, the
abort IllegalWordsAbort gives. When no command is in flight and the host's next action is a write of `w` to CMD, one
step takes the action off the script, clears DONE and sets BUSY; with the free duration 0 it runs `w` there and then,
with duration n + 1 it leaves `w` in flight. A command in flight runs in the step in which its time has come; before
that a step lets time pass, and the host acts. Any other host access at the head of the script answers what the bus
answers for the state with that action taken off; WAIT and CHECK read STATUS (R97, R98); a host with nothing to do
changes nothing. The script and the durations are the model's own (logs 3, 4, 9). -/
def Obligations.StepRunsIssuedCommand : Prop :=
  ∀ (s : State) (w : Word),
    (∀ i : Instr, decode w = .ok i → runWord w s = exec i s) ∧
    (∀ rest : List HostOp, s.inflight = none → s.script = .write .w64 0x010#32 w :: rest →
      (s.durations.headD 0 = 0 → step s = runWord w { s with
        script := rest, done := false, inflight := some ⟨w, 0⟩, durations := s.durations.tail }) ∧
      ∀ n, s.durations.headD 0 = n + 1 → step s = .next { s with
        script := rest, done := false, inflight := some ⟨w, n⟩, durations := s.durations.tail }) ∧
    (s.inflight = some ⟨w, 0⟩ → step s = runWord w s) ∧
    ∀ base : State, (s.inflight = none ∧ base = s) ∨
        (∃ n, s.inflight = some ⟨w, n + 1⟩ ∧ base = { s with inflight := some ⟨w, n⟩ }) →
      (s.script = [] → step s = .next base) ∧
      ∀ rest : List HostOp,
        (∀ (wd : Width) (a : BitVec 32) (v : Word) (answer : Advance), s.script = .write wd a v :: rest →
          busWrite { base with script := rest } wd a v = answer →
          (∀ t, answer = .next t → step s = .next t) ∧ ∀ r, answer = .refuse r → step s = .refused r) ∧
        (∀ (wd : Width) (a : BitVec 32) (answer : Advance), s.script = .read wd a :: rest →
          busRead { base with script := rest } wd a = answer →
          (∀ t, answer = .next t → step s = .next t) ∧ ∀ r, answer = .refuse r → step s = .refused r) ∧
        (s.script = .wait :: rest → step s = .next { base with
          rdata := base.status, script := if base.done then rest else .wait :: rest }) ∧
        (s.script = .check :: rest → step s = .next { base with
          rdata := base.status, script := if base.err then [] else rest })

/-- R297: "STATUS.BUSY always returns to 0 and a host that waits always sees completion". A host that keeps the
BUSY contract (it only polls STATUS or clears DONE) reaches, after exactly the command's free duration, a state with BUSY = 0
and DONE = 1. The host as a script and the durations are the model's own (logs 3, 4, 9). -/
def Obligations.BusyAlwaysEnds : Prop :=
  ∀ (s : State) (f : InFlight), s.inflight = some f → (∀ op ∈ s.script, respectsBusy op = true) →
    ∃ t, core.run (f.remaining + 1) s = .next t ∧ t.busy = false ∧ t.done = true

/-! ### Every command (R260, R262, R269, R26, R27) -/

/-- R260, R269: every command, on every state, ends in a next state with BUSY = 0 and DONE = 1 that either reports
success (ERR = 0, CODE = 0) and keeps the last-error record, or an error code 1 … 7, recorded with the command
word. For ill-formed operands, which no word decodes to, that is the model's choice (log 10). -/
def Obligations.EveryCommandCompletes : Prop :=
  ∀ (i : Instr) (s : State), ∃ t, exec i s = .next t ∧ t.busy = false ∧ t.done = true ∧
    ((t.err = false ∧ t.code = 0#8 ∧ t.errCode = s.errCode ∧ t.errCmd = s.errCmd ∧ t.errField = s.errField ∧
        t.errIndex = s.errIndex ∧ t.errInfo = s.errInfo) ∨
      (t.err = true ∧ 1 ≤ t.code.toNat ∧ t.code.toNat ≤ 7 ∧ t.errCode = t.code ∧ t.errCmd = encode i))

/-- R262: a failed command, whatever its word (an illegal one too), changes only ERR_CODE, ERR_CMD, ERR_FIELD,
ERR_INDEX, ERR_INFO and STATUS. -/
def Obligations.FailedCommandChangesOnlyErrors : Prop :=
  ∀ (w : Word) (s t : State), runWord w s = .next t → t.err = true →
    t = { s with
      inflight := t.inflight, done := t.done, err := t.err, code := t.code
      errCode := t.errCode, errCmd := t.errCmd, errField := t.errField, errIndex := t.errIndex
      errInfo := t.errInfo }

/-- R265, R141, R206, R224: the first configuration register that a command's row of R265 lists and that holds an
illegal value makes the command raise CONFIG_INVALID (5) with ERR_FIELD 0xFF and ERR_INFO the register's address,
whatever else is wrong; and a command checks no other configuration: when every check of its row passes, or its row
lists none, it does not end with code 5. -/
def Obligations.ConfigInvalidNamesRegister : Prop :=
  ∀ (s : State) (i : Instr), i.wellFormed = true →
    (∀ n, n < (configChecks i s).length →
      (∀ m, m < n → ((configChecks i s).getD m (true, 0)).1 = true) →
      ((configChecks i s).getD n (true, 0)).1 = false →
      exec i s = .next (s.failedWith 5#8 (encode i) 0xFF#8 0xFFFFFF#24
        (BitVec.ofNat 64 ((configChecks i s).getD n (true, 0)).2))) ∧
    ((∀ n, n < (configChecks i s).length → ((configChecks i s).getD n (true, 0)).1 = true) →
      ∃ t, exec i s = .next t ∧ t.code ≠ 5#8)

/-- R22, R26, R28 to R32: no command writes an ARG register, a configuration register, the field table or CTRL
(nor the model's own `bitbufBytes`, `script`, `durations` and `rdata`, logs 1, 3, 4). -/
def Obligations.CommandsKeepConfiguration : Prop :=
  ∀ (i : Instr) (s t : State), exec i s = .next t →
    t.arg = s.arg ∧ t.posScale = s.posScale ∧ t.lonBaseBits = s.lonBaseBits ∧ t.cxySizeBits = s.cxySizeBits ∧
      t.cwfSizeBits = s.cwfSizeBits ∧ t.fbits = s.fbits ∧ t.foff = s.foff ∧ t.irqEn = s.irqEn ∧
      t.append = s.append ∧ t.bitbufBytes = s.bitbufBytes ∧ t.script = s.script ∧ t.durations = s.durations ∧
      t.rdata = s.rdata

/-- R27: "A successful command writes exactly the RES registers its rule names; the others keep their values. A
failed command writes none". -/
def Obligations.OnlyNamedResultsAreWritten : Prop :=
  ∀ (i : Instr) (s t : State), exec i s = .next t →
    ∀ j, j < 8 → (t.err = true ∨ resCount i ≤ j) → t.resWord j = s.resWord j

/-! ### Frames -/

/-- The commands that write RES registers only (NOP, the unpackers, the geodetic commands, the status helpers)
leave every memory, PRESENCE, the waveform registers and the bounds alone. -/
def Obligations.RegisterCommandsFrame : Prop :=
  ∀ (i : Instr) (s t : State) (w : BitVec 7) (v : BitVec 1),
    i ∈ [.nop, .bunpack32 w, .bunpack64 w, .geoMode, .geoLatEnc, .geoLatDec, .geoLonEnc, .geoLonDec, .setStatus v,
      .getStatus] → exec i s = .next t →
    (∀ a, t.bitbuf.get a = s.bitbuf.get a) ∧ (∀ a, t.smpMem.get a = s.smpMem.get a) ∧
      (∀ a, t.recMem.get a = s.recMem.get a) ∧ t.presence = s.presence ∧ t.wfTimestamp = s.wfTimestamp ∧
      t.wfScan = s.wfScan ∧ t.bounds = s.bounds

/-- R64, R121, R123, R200: the commands that write a bit range of BITBUF change no bit outside it (ARG0 is its
first bit; RES0 of a packer and RES2 of WF_PKT_ENC is the first bit after it), and nothing else but RES and
STATUS. -/
def Obligations.BitWritersFrame : Prop :=
  ∀ (i : Instr) (s t : State) (w : BitVec 7) (ch pkt : BitVec 4),
    i ∈ [.bpack32 w, .bpack64 w, .wfPktEnc ch pkt] → Config.legalBitbufBytes s.bitbufBytes →
    exec i s = .next t → t.err = false →
    (∀ k, k < s.argU 0 ∨ (t.resWord (if i = .wfPktEnc ch pkt then 2 else 0)).toNat ≤ k →
      streamBit t.bitbuf k = streamBit s.bitbuf k) ∧
      (∀ a, t.smpMem.get a = s.smpMem.get a) ∧ (∀ a, t.recMem.get a = s.recMem.get a) ∧
      t.presence = s.presence ∧ t.wfTimestamp = s.wfTimestamp ∧ t.wfScan = s.wfScan ∧ t.bounds = s.bounds

/-- R206, R230: the record encoders change the bytes `a … a + size − 1` of BITBUF (a = ARG0, size = RES0) and no
other byte; the waveform encoder never moves the bounds, and the point encoder moves them only under
CTRL.APPEND. -/
def Obligations.RecordEncodersFrame : Prop :=
  ∀ (i : Instr) (s t : State), i ∈ [.wfRecEnc, .prEnc] → Config.legalBitbufBytes s.bitbufBytes →
    exec i s = .next t → t.err = false →
    sameBytesOutside (s.argU 0) (t.resWord 0).toNat s.bitbuf t.bitbuf ∧
      (∀ a, t.smpMem.get a = s.smpMem.get a) ∧ (∀ a, t.recMem.get a = s.recMem.get a) ∧
      t.presence = s.presence ∧ t.wfTimestamp = s.wfTimestamp ∧ t.wfScan = s.wfScan ∧
      ((i = .wfRecEnc ∨ s.append = false) → t.bounds = s.bounds)

/-- R201, R207, R231: the decoders leave BITBUF and the bounds alone; WF_PKT_DEC changes the 64 words of its
packet and no other word of SMP, the record decoders each write their own memory only, and PR_DEC leaves
REC[33 … 39] and item 7 of every return slot. -/
def Obligations.DecodersFrame : Prop :=
  ∀ (i : Instr) (s t : State) (ch pkt : BitVec 4),
    i ∈ [.wfPktDec ch pkt, .wfRecDec, .prDec] → exec i s = .next t →
    (∀ a, t.bitbuf.get a = s.bitbuf.get a) ∧ t.bounds = s.bounds ∧
      (i = .wfPktDec ch pkt → (∀ a, t.recMem.get a = s.recMem.get a) ∧ t.presence = s.presence ∧
        t.wfTimestamp = s.wfTimestamp ∧ t.wfScan = s.wfScan ∧
        ∀ a, a < smpAddr ch.toNat pkt.toNat 0 ∨ smpAddr ch.toNat pkt.toNat 0 + 64 ≤ a →
          t.smpMem.get a = s.smpMem.get a) ∧
      (i = .wfRecDec → ∀ a, t.recMem.get a = s.recMem.get a) ∧
      (i = .prDec → (∀ a, t.smpMem.get a = s.smpMem.get a) ∧ t.presence = s.presence ∧
        t.wfTimestamp = s.wfTimestamp ∧ t.wfScan = s.wfScan ∧
        ∀ j, (33 ≤ j ∧ j ≤ 39) ∨ (40 ≤ j ∧ (j - 40) % 8 = 7) ∨ Config.recWords ≤ j →
          t.recMem.get j = s.recMem.get j)

/-! ### Bit packing (40_bitpack.md) -/

/-- R120: NOP, whose word is 0, changes STATUS only (CODE = 0, ERR = 0, DONE = 1). -/
def Obligations.NopOnlyCompletes : Prop :=
  encode .nop = 0#64 ∧ ∀ s : State, exec .nop s = .next { s with inflight := none, done := true, err := false, code := 0#8 }

/-- R121, R63, R64: BPACK32 with W ≤ 32 inside the buffer puts bit W−1−t of ARG1[31:0] at stream bit b + t, keeps
every other bit, and sets RES0 = b + W. -/
def Obligations.Pack32WritesField : Prop :=
  ∀ (s : State) (w : BitVec 7), w.toNat ≤ 32 → s.argU 0 + w.toNat ≤ 8 * s.bitbufBytes →
    ∃ t, exec (.bpack32 w) s = .next t ∧
      t = { s with bitbuf := t.bitbuf, res := t.res, inflight := none, done := true, err := false, code := 0#8 } ∧
      resAre s t [BitVec.ofNat 64 (s.argU 0 + w.toNat)] ∧
      ∀ i, streamBit t.bitbuf i =
        if s.argU 0 ≤ i ∧ i < s.argU 0 + w.toNat
        then ((s.argWord 1).setWidth 32).getLsbD (w.toNat - 1 - (i - s.argU 0)) else streamBit s.bitbuf i

/-- R123, R63, R64: BPACK64 likewise with W ≤ 64 and all of ARG1. -/
def Obligations.Pack64WritesField : Prop :=
  ∀ (s : State) (w : BitVec 7), w.toNat ≤ 64 → s.argU 0 + w.toNat ≤ 8 * s.bitbufBytes →
    ∃ t, exec (.bpack64 w) s = .next t ∧
      t = { s with bitbuf := t.bitbuf, res := t.res, inflight := none, done := true, err := false, code := 0#8 } ∧
      resAre s t [BitVec.ofNat 64 (s.argU 0 + w.toNat)] ∧
      ∀ i, streamBit t.bitbuf i =
        if s.argU 0 ≤ i ∧ i < s.argU 0 + w.toNat
        then (s.argWord 1).getLsbD (w.toNat - 1 - (i - s.argU 0)) else streamBit s.bitbuf i

/-- R122, R124, R63: BUNPACK32 (W ≤ 32) and BUNPACK64 (W ≤ 64) inside the buffer set RES0 to the sum R63 gives of
the stream bits b … b + W − 1, zero-extended, and RES1 = b + W, and change nothing else. -/
def Obligations.UnpackReadsField : Prop :=
  ∀ (s : State) (w : BitVec 7), s.argU 0 + w.toNat ≤ 8 * s.bitbufBytes →
    ∀ i, ((i = .bunpack32 w ∧ w.toNat ≤ 32) ∨ (i = .bunpack64 w ∧ w.toNat ≤ 64)) →
      ∃ t, exec i s = .next t ∧
        t = { s with res := t.res, inflight := none, done := true, err := false, code := 0#8 } ∧
        resAre s t
          [BitVec.ofNat 64 (∑ k ∈ Finset.range w.toNat,
              (streamBit s.bitbuf (s.argU 0 + k)).toNat * 2 ^ (w.toNat - 1 - k)),
            BitVec.ofNat 64 (s.argU 0 + w.toNat)]

/-- R125: a width above 32 (BPACK32, BUNPACK32) or 64 (BPACK64, BUNPACK64) raises BAD_WIDTH (4) with ERR_INFO = W,
whatever the bound check would say. -/
def Obligations.WideWidthRaisesBadWidth : Prop :=
  ∀ (s : State) (w : BitVec 7) (i : Instr),
    ((i = .bpack32 w ∨ i = .bunpack32 w) ∧ 33 ≤ w.toNat) ∨ ((i = .bpack64 w ∨ i = .bunpack64 w) ∧ 65 ≤ w.toNat) →
    exec i s = .next { s with
      inflight := none, done := true, err := true, code := 4#8
      errCode := 4#8, errCmd := encode i, errField := 0xFF#8, errIndex := 0xFFFFFF#24
      errInfo := BitVec.ofNat 64 w.toNat }

/-- R65, R121 to R124, R200, R201, R206, R207, R230, R231, R264: a command whose bits or bytes would pass the end of
BITBUF raises BUFFER_OVERRUN (2) with ERR_FIELD 45 and ERR_INFO = ARG0: the packers at a legal width; WF_PKT_ENC on
legal samples, with ERR_INDEX (channel, packet, 0xFF); the record encoders on legal values and a size that fits its
field; WF_PKT_DEC when its tag, or the packet its tag and width field announce, does not fit; the record decoders
when their size field does not fit. -/
def Obligations.PackersRaiseOverrun : Prop :=
  ∀ s : State,
    (∀ (w : BitVec 7) (i : Instr), 8 * s.bitbufBytes < s.argU 0 + w.toNat →
      ((i = .bpack32 w ∨ i = .bunpack32 w) ∧ w.toNat ≤ 32) ∨ ((i = .bpack64 w ∨ i = .bunpack64 w) ∧ w.toNat ≤ 64) →
      exec i s = .next (s.failedWith 2#8 (encode i) 45#8 0xFFFFFF#24 (s.argWord 0))) ∧
    (∀ (ch pkt : BitVec 4) (ty : Nat), ch.toNat ≤ 8 → pkt.toNat ≤ 13 →
      let x := s.samples ch.toNat pkt.toNat
      let r := s.samples 1 pkt.toNat
      let refOK := decide (2 ≤ ch.toNat ∧ ch.toNat ≤ 7) && s.present 1 pkt.toNat
      samplesLegal x → (refOK = true → samplesLegal r) → typeChosen ty refOK x r →
      8 * s.bitbufBytes < s.argU 0 + fieldsWidth (typeFields ty x r) →
      exec (.wfPktEnc ch pkt) s = .next (s.failedWith 2#8 (encode (.wfPktEnc ch pkt)) 45#8
        (BitVec.ofNat 24 (ch.toNat + 256 * pkt.toNat + 65536 * 255)) (s.argWord 0))) ∧
    (s.WfConfig → s.WfValues → recordSize s.cwfSizeBits.toNat s.wfOut < 2 ^ s.cwfSizeBits.toNat →
      s.bitbufBytes < s.argU 0 + recordSize s.cwfSizeBits.toNat s.wfOut →
      exec .wfRecEnc s = .next (s.failedWith 2#8 0x22#64 45#8 0xFFFFFF#24 (s.argWord 0))) ∧
    (s.PrConfig → s.PrValues → recordSize s.cxySizeBits.toNat s.prOut < 2 ^ s.cxySizeBits.toNat →
      s.bitbufBytes < s.argU 0 + recordSize s.cxySizeBits.toNat s.prOut →
      exec .prEnc s = .next (s.failedWith 2#8 0x30#64 45#8 0xFFFFFF#24 (s.argWord 0))) ∧
    (∀ ch pkt : BitVec 4, ch.toNat ≤ 8 → pkt.toNat ≤ 13 →
      let tag := bitRead s.bitbuf (s.argU 0) 3
      8 * s.bitbufBytes < s.argU 0 + 3 ∨
        (typeApplies tag (decide (2 ≤ ch.toNat ∧ ch.toNat ≤ 7) && s.present 1 pkt.toNat) ∧
          8 * s.bitbufBytes < s.argU 0 + rebuiltBits s.bitbuf (s.argU 0) tag) →
      exec (.wfPktDec ch pkt) s = .next (s.failedWith 2#8 (encode (.wfPktDec ch pkt)) 45#8 0xFFFFFF#24 (s.argWord 0))) ∧
    (s.WfConfig → 8 * s.bitbufBytes < 8 * s.argU 0 + s.cwfSizeBits.toNat →
      exec .wfRecDec s = .next (s.failedWith 2#8 0x23#64 45#8 0xFFFFFF#24 (s.argWord 0))) ∧
    (s.PrConfig → 8 * s.bitbufBytes < 8 * s.argU 0 + s.cxySizeBits.toNat →
      exec .prDec s = .next (s.failedWith 2#8 0x31#64 45#8 0xFFFFFF#24 (s.argWord 0)))

/-- R126 law 1: after a successful BPACK64 with (W, b, v), a BUNPACK64 with (W, b) in any state whose stream bits
b … b + W − 1 are still those returns `v mod 2^W`. -/
def Obligations.PackThenUnpackReturnsValue : Prop :=
  ∀ (s t u : State) (w : BitVec 7), exec (.bpack64 w) s = .next t → t.err = false →
    u.argWord 0 = s.argWord 0 → u.bitbufBytes = s.bitbufBytes →
    (∀ k, k < w.toNat → streamBit u.bitbuf (s.argU 0 + k) = streamBit t.bitbuf (s.argU 0 + k)) →
    ∃ v, exec (.bunpack64 w) u = .next v ∧ v.err = false ∧ (v.resWord 0).toNat = s.argU 1 % 2 ^ w.toNat

/-- R126 law 2: two BPACK64 with disjoint bit ranges leave the same BITBUF in either order (`s1` is `s` with the
operands of the first, and so on). -/
def Obligations.DisjointPacksCommute : Prop :=
  ∀ (s t1 t12 t2 t21 : State) (w1 w2 : BitVec 7) (a1 a2 : Vector Word 8),
    exec (.bpack64 w1) { s with arg := a1 } = .next t1 → exec (.bpack64 w2) { t1 with arg := a2 } = .next t12 →
    exec (.bpack64 w2) { s with arg := a2 } = .next t2 → exec (.bpack64 w1) { t2 with arg := a1 } = .next t21 →
    t1.err = false → t12.err = false → t2.err = false → t21.err = false →
    ((a1.getD 0 0#64).toNat + w1.toNat ≤ (a2.getD 0 0#64).toNat ∨
      (a2.getD 0 0#64).toNat + w2.toNat ≤ (a1.getD 0 0#64).toNat) →
    ∀ a, t12.bitbuf.get a = t21.bitbuf.get a

/-- R126 law 3: packing (W1, b, v1) and then (W2, b + W1, v2) gives the same bits as packing
(W1 + W2, b, v1 · 2^W2 + (v2 mod 2^W2)) when W1 + W2 ≤ 64 and v1 < 2^W1. -/
def Obligations.AdjacentPacksConcatenate : Prop :=
  ∀ (s t1 t2 t : State) (w1 w2 w : BitVec 7) (a1 a2 a : Vector Word 8),
    w.toNat = w1.toNat + w2.toNat → w.toNat ≤ 64 →
    (a1.getD 1 0#64).toNat < 2 ^ w1.toNat →
    (a2.getD 0 0#64).toNat = (a1.getD 0 0#64).toNat + w1.toNat →
    a.getD 0 0#64 = a1.getD 0 0#64 →
    (a.getD 1 0#64).toNat = (a1.getD 1 0#64).toNat * 2 ^ w2.toNat + (a2.getD 1 0#64).toNat % 2 ^ w2.toNat →
    exec (.bpack64 w1) { s with arg := a1 } = .next t1 → exec (.bpack64 w2) { t1 with arg := a2 } = .next t2 →
    exec (.bpack64 w) { s with arg := a } = .next t → t1.err = false → t2.err = false → t.err = false →
    ∀ k, t2.bitbuf.get k = t.bitbuf.get k

/-! ### Geodetic codec (41_geodetic.md) -/

/-- R29: W_POS is the least width that holds 360·S, and for legal S it is 9 … 41. -/
def Obligations.PositionWidthIsLeast : Prop :=
  ∀ S : Nat, 1 ≤ S → S ≤ 2 ^ 32 - 1 →
    360 * S < 2 ^ wPos S ∧ (∀ b, 360 * S < 2 ^ b → wPos S ≤ b) ∧ 9 ≤ wPos S ∧ wPos S ≤ 41

/-- R150, R143, R145: GEO_MODE with legal configuration sets RES0 to the clamped band, RES1 to the width, RES2 to
the full bit and RES3 to the thresholds crossed, chosen by |plat| against 60·S, 75·S, 82·S, 86·S. -/
def Obligations.GeoModeResult : Prop :=
  ∀ s : State, 1 ≤ s.posScale.toNat → 1 ≤ s.lonBaseBits.toNat → s.lonBaseBits.toNat ≤ 61 →
    ∃ t, exec .geoMode s = .next t ∧
      t = { s with res := t.res, inflight := none, done := true, err := false, code := 0#8 } ∧
      let S := s.posScale.toNat
      let B := s.lonBaseBits.toNat
      let plat := s64 (s.argWord 0)
      let band := BitVec.ofInt 64 (min (max (Int.fdiv plat S + 90) 0) 179)
      resAre s t (
        if 86 * S ≤ plat.natAbs then [band, BitVec.ofNat 64 (wPos S), 1#64, 4#64]
        else if 82 * S ≤ plat.natAbs then [band, BitVec.ofNat 64 (B + 3), 0#64, 3#64]
        else if 75 * S ≤ plat.natAbs then [band, BitVec.ofNat 64 (B + 2), 0#64, 2#64]
        else if 60 * S ≤ plat.natAbs then [band, BitVec.ofNat 64 (B + 1), 0#64, 1#64]
        else [band, BitVec.ofNat 64 B, 0#64, 0#64])

/-- R151, R142: GEO_LAT_ENC with legal POS_SCALE packs lat + 90·S when it fits W_POS bits, and otherwise raises
VALUE_OUT_OF_RANGE (1) with ERR_FIELD 42 and ERR_INFO = ARG0. LON_BASE_BITS is not checked. -/
def Obligations.GeoLatEncResult : Prop :=
  ∀ s : State, 1 ≤ s.posScale.toNat →
    let S := s.posScale.toNat
    let p := s64 (s.argWord 0) + 90 * S
    (0 ≤ p ∧ p < 2 ^ wPos S → ∃ t, exec .geoLatEnc s = .next t ∧
      t = { s with res := t.res, inflight := none, done := true, err := false, code := 0#8 } ∧
      resAre s t [BitVec.ofInt 64 p, BitVec.ofNat 64 (wPos S)]) ∧
    (¬ (0 ≤ p ∧ p < 2 ^ wPos S) → exec .geoLatEnc s = .next { s with
      inflight := none, done := true, err := true, code := 1#8
      errCode := 1#8, errCmd := 0x11#64, errField := 42#8, errIndex := 0xFFFFFF#24, errInfo := s.argWord 0 })

/-- R152: GEO_LAT_DEC with legal POS_SCALE always succeeds: RES0 = (ARG0 mod 2^W_POS) − 90·S, RES1 = W_POS. -/
def Obligations.GeoLatDecResult : Prop :=
  ∀ s : State, 1 ≤ s.posScale.toNat → ∃ t, exec .geoLatDec s = .next t ∧
    t = { s with res := t.res, inflight := none, done := true, err := false, code := 0#8 } ∧
    let S := s.posScale.toNat
    resAre s t [BitVec.ofInt 64 (((s.argWord 0).toNat % 2 ^ wPos S : Nat) - 90 * S), BitVec.ofNat 64 (wPos S)]

/-- R153, R144 to R147: GEO_LON_ENC with legal configuration packs val + 180·S at full resolution and
ref − val + 2^(W−1) below 86°, and raises VALUE_OUT_OF_RANGE (1) with ERR_FIELD 43 and ERR_INFO = ARG0 when that
does not fit W bits. -/
def Obligations.GeoLonEncResult : Prop :=
  ∀ s : State, 1 ≤ s.posScale.toNat → 1 ≤ s.lonBaseBits.toNat → s.lonBaseBits.toNat ≤ 61 →
    let S := s.posScale.toNat
    let mode := lonMode S s.lonBaseBits.toNat (s64 (s.argWord 2))
    let p := if mode.full then s64 (s.argWord 0) + 180 * S
      else s64 (s.argWord 1) - s64 (s.argWord 0) + 2 ^ (mode.width - 1)
    (0 ≤ p ∧ p < 2 ^ mode.width → ∃ t, exec .geoLonEnc s = .next t ∧
      t = { s with res := t.res, inflight := none, done := true, err := false, code := 0#8 } ∧
      resAre s t [BitVec.ofInt 64 p, BitVec.ofNat 64 mode.width, BitVec.ofNat 64 mode.full.toNat]) ∧
    (¬ (0 ≤ p ∧ p < 2 ^ mode.width) → exec .geoLonEnc s = .next { s with
      inflight := none, done := true, err := true, code := 1#8
      errCode := 1#8, errCmd := 0x13#64, errField := 43#8, errIndex := 0xFFFFFF#24, errInfo := s.argWord 0 })

/-- R154, R144, R146, R147: GEO_LON_DEC with legal configuration always succeeds, with p = ARG0 mod 2^W. -/
def Obligations.GeoLonDecResult : Prop :=
  ∀ s : State, 1 ≤ s.posScale.toNat → 1 ≤ s.lonBaseBits.toNat → s.lonBaseBits.toNat ≤ 61 →
    ∃ t, exec .geoLonDec s = .next t ∧
      t = { s with res := t.res, inflight := none, done := true, err := false, code := 0#8 } ∧
      let S := s.posScale.toNat
      let mode := lonMode S s.lonBaseBits.toNat (s64 (s.argWord 2))
      let p : Nat := (s.argWord 0).toNat % 2 ^ mode.width
      resAre s t
        [BitVec.ofInt 64 (if mode.full then (p : Int) - 180 * S else s64 (s.argWord 1) - ((p : Int) - 2 ^ (mode.width - 1))),
          BitVec.ofNat 64 mode.width, BitVec.ofNat 64 mode.full.toNat]

/-- R155 law 1: decoding what GEO_LAT_ENC packed gives the latitude back exactly. -/
def Obligations.LatitudeRoundTrip : Prop :=
  ∀ s t u : State, exec .geoLatEnc s = .next t → t.err = false →
    u.posScale = s.posScale → u.argWord 0 = t.resWord 0 →
    ∃ v, exec .geoLatDec u = .next v ∧ v.err = false ∧ v.resWord 0 = s.argWord 0

/-- R155 law 2: decoding what GEO_LON_ENC packed, with the same reference and platform latitude, gives the
longitude back exactly, in both modes. -/
def Obligations.LongitudeRoundTrip : Prop :=
  ∀ s t u : State, exec .geoLonEnc s = .next t → t.err = false →
    u.posScale = s.posScale → u.lonBaseBits = s.lonBaseBits → u.argWord 0 = t.resWord 0 →
    u.argWord 1 = s.argWord 1 → u.argWord 2 = s.argWord 2 →
    ∃ v, exec .geoLonDec u = .next v ∧ v.err = false ∧ v.resWord 0 = s.argWord 0 ∧ v.resWord 1 = t.resWord 1 ∧
      v.resWord 2 = t.resWord 2

/-! ### Waveform packets (42_waveform.md) -/

/-- R171 to R175: for 64 legal samples the four encodings have 643, 28 + 63·w1, 51 + 62·w2 and 18 + 64·w3 bits, where
w1, w2 and w3 are the bits needed for the greatest offset first difference, second difference and difference from the
reference; w1 ≤ 11, w2 ≤ 12, w3 ≤ 11, and every field's value fits its width. -/
def Obligations.PacketFieldsFit : Prop :=
  ∀ s r : List Nat, packetLegal s → packetLegal r →
    let w1 := bitsNeeded (maxNat (offsetList (firstDiffs s)))
    let w2 := bitsNeeded (maxNat (offsetList (diffs (firstDiffs s))))
    let w3 := bitsNeeded (maxNat (offsetList (crossDiffs s r)))
    fieldsWidth (type0 s) = 643 ∧
      (w1 ≤ 11 ∧ fieldsWidth (type1 s) = 28 + 63 * w1) ∧
      (w2 ≤ 12 ∧ fieldsWidth (type2 s) = 51 + 62 * w2) ∧
      (w3 ≤ 11 ∧ fieldsWidth (type3 s r) = 18 + 64 * w3) ∧
      ∀ t, ∀ f ∈ typeFields t s r, f.2 < 2 ^ f.1

/-- R200, R176, R177: WF_PKT_ENC, on legal samples (the reference's too, where type 3 applies) and inside the
buffer, writes the packet in the applicable type of least byte size (the least such type) at stream bit b,
keeps every other bit, and reports type, bits, next bit and the sizes. -/
def Obligations.PktEncWritesSmallest : Prop :=
  ∀ (s : State) (ch pkt : BitVec 4) (ty : Nat), ch.toNat ≤ 8 → pkt.toNat ≤ 13 →
    let c := ch.toNat
    let p := pkt.toNat
    let x := s.samples c p
    let r := s.samples 1 p
    let refOK := decide (2 ≤ c ∧ c ≤ 7) && s.present 1 p
    let n := fieldsWidth (typeFields ty x r)
    samplesLegal x → (refOK = true → samplesLegal r) → typeChosen ty refOK x r →
    s.argU 0 + n ≤ 8 * s.bitbufBytes →
    ∃ t, exec (.wfPktEnc ch pkt) s = .next t ∧
      t = { s with bitbuf := t.bitbuf, res := t.res, inflight := none, done := true, err := false, code := 0#8 } ∧
      fieldsAt t.bitbuf (s.argU 0) (typeFields ty x r) ∧ sameBitsOutside (s.argU 0) n s.bitbuf t.bitbuf ∧
      resAre s t [BitVec.ofNat 64 ty, BitVec.ofNat 64 n, BitVec.ofNat 64 (s.argU 0 + n),
        BitVec.ofNat 64 (packetSize (type0 x)), BitVec.ofNat 64 (packetSize (type1 x)),
        BitVec.ofNat 64 (packetSize (type2 x)),
        if refOK then BitVec.ofNat 64 (packetSize (type3 x r)) else 0xFFFFFFFFFFFFFFFF#64]

/-- R180, R200: the first sample word above 1023 makes WF_PKT_ENC raise VALUE_OUT_OF_RANGE (1) with ERR_FIELD 41,
ERR_INDEX c + 256·p + 65536·i and ERR_INFO the word; where type 3 applies and the packet's own samples are legal, so
does the first reference sample word above 1023, with the reference channel 1 in ERR_INDEX. -/
def Obligations.PktEncRejectsFirstBadSample : Prop :=
  ∀ (s : State) (ch pkt : BitVec 4) (i : Nat), ch.toNat ≤ 8 → pkt.toNat ≤ 13 → i < 64 →
    let word (c j : Nat) := s.smpMem.get (smpAddr c pkt.toNat j)
    ((∀ j, j < i → (word ch.toNat j).toNat ≤ 1023) → 1023 < (word ch.toNat i).toNat →
      exec (.wfPktEnc ch pkt) s = .next (s.failedWith 1#8 (encode (.wfPktEnc ch pkt)) 41#8
        (BitVec.ofNat 24 (ch.toNat + 256 * pkt.toNat + 65536 * i)) ((word ch.toNat i).setWidth 64))) ∧
    (2 ≤ ch.toNat → ch.toNat ≤ 7 → s.present 1 pkt.toNat = true →
      (∀ j, j < 64 → (word ch.toNat j).toNat ≤ 1023) →
      (∀ j, j < i → (word 1 j).toNat ≤ 1023) → 1023 < (word 1 i).toNat →
      exec (.wfPktEnc ch pkt) s = .next (s.failedWith 1#8 (encode (.wfPktEnc ch pkt)) 41#8
        (BitVec.ofNat 24 (1 + 256 * pkt.toNat + 65536 * i)) ((word 1 i).setWidth 64)))

/-- R201, R178: where BITBUF holds, at stream bit b, a legal packet in any type that is acceptable there (type 3
only with the present reference, whose words are used as stored), WF_PKT_DEC writes exactly its samples to its
64 words of SMP and reports type, bits and next bit; and so it does with any acceptable packet whose rebuilt samples
are in range, whatever its offset and width fields hold. -/
def Obligations.PktDecReadsPacket : Prop :=
  ∀ (s : State) (ch pkt : BitVec 4), ch.toNat ≤ 8 → pkt.toNat ≤ 13 →
    let c := ch.toNat
    let p := pkt.toNat
    let r := s.samples 1 p
    let refOK := decide (2 ≤ c ∧ c ≤ 7) && s.present 1 p
    let tag := bitRead s.bitbuf (s.argU 0) 3
    let decodes (ty : Nat) (x : List Nat) (n : Nat) :=
      ∃ t, exec (.wfPktDec ch pkt) s = .next t ∧
        t = { s with smpMem := t.smpMem, res := t.res, inflight := none, done := true, err := false, code := 0#8 } ∧
        t.samples c p = x ∧
        (∀ a, a < smpAddr c p 0 ∨ smpAddr c p 0 + 64 ≤ a → t.smpMem.get a = s.smpMem.get a) ∧
        resAre s t [BitVec.ofNat 64 ty, BitVec.ofNat 64 n, BitVec.ofNat 64 (s.argU 0 + n)]
    (∀ (ty : Nat) (x : List Nat), packetLegal x → typeApplies ty refOK →
      fieldsAt s.bitbuf (s.argU 0) (typeFields ty x r) →
      s.argU 0 + fieldsWidth (typeFields ty x r) ≤ 8 * s.bitbufBytes →
      decodes ty x (fieldsWidth (typeFields ty x r))) ∧
    (typeApplies tag refOK → s.argU 0 + rebuiltBits s.bitbuf (s.argU 0) tag ≤ 8 * s.bitbufBytes →
      (∀ i, i < 64 → sampleInRange (rebuilt s.bitbuf (s.argU 0) tag r i)) →
      decodes tag ((List.range 64).map fun i => (rebuilt s.bitbuf (s.argU 0) tag r i).toNat)
        (rebuiltBits s.bitbuf (s.argU 0) tag))

/-- R179, R178, R207: a tag of 4 … 7, or a tag of 3 where type 3 does not apply, makes WF_PKT_DEC raise
INVALID_PACKET_TYPE (6) with ERR_FIELD 44, ERR_INDEX (channel, packet, 0xFF) and ERR_INFO the tag; of an acceptable
packet that is whole in BITBUF, the first rebuilt sample outside 0 … 1023 makes it raise DECODE_ERROR (7) with
ERR_FIELD 41, ERR_INDEX (channel, packet, sample) and ERR_INFO the sample. WF_REC_DEC raises the same for the first
packet of its record, number n of the bitmap, for which type 3 never applies. -/
def Obligations.PktDecRejectsTag : Prop :=
  ∀ s : State,
    (∀ ch pkt : BitVec 4, ch.toNat ≤ 8 → pkt.toNat ≤ 13 → s.argU 0 + 3 ≤ 8 * s.bitbufBytes →
      let tag := bitRead s.bitbuf (s.argU 0) 3
      let refOK := decide (2 ≤ ch.toNat ∧ ch.toNat ≤ 7) && s.present 1 pkt.toNat
      let sample (i : Nat) := rebuilt s.bitbuf (s.argU 0) tag (s.samples 1 pkt.toNat) i
      ((4 ≤ tag ∧ tag ≤ 7) ∨
          (tag = 3 ∧ ¬ ((2 ≤ ch.toNat ∧ ch.toNat ≤ 7) ∧ s.present 1 pkt.toNat = true)) →
        exec (.wfPktDec ch pkt) s = .next (s.failedWith 6#8 (encode (.wfPktDec ch pkt)) 44#8
          (BitVec.ofNat 24 (ch.toNat + 256 * pkt.toNat + 65536 * 255)) (BitVec.ofNat 64 tag))) ∧
      ∀ i, i < 64 → typeApplies tag refOK → s.argU 0 + rebuiltBits s.bitbuf (s.argU 0) tag ≤ 8 * s.bitbufBytes →
        (∀ j, j < i → sampleInRange (sample j)) → ¬ sampleInRange (sample i) →
        exec (.wfPktDec ch pkt) s = .next (s.failedWith 7#8 (encode (.wfPktDec ch pkt)) 41#8
          (BitVec.ofNat 24 (ch.toNat + 256 * pkt.toNat + 65536 * i)) (BitVec.ofInt 64 (sample i)))) ∧
    (∀ n, n < 126 → s.WfConfig →
      let bits := 8 * s.argU 0 + s.cwfSizeBits.toNat + s.fieldBits 17 + s.fieldBits 18
      let tag := bitRead s.bitbuf (bits + 126) 3
      let sample (i : Nat) := rebuilt s.bitbuf (bits + 126) tag [] i
      (∀ m, m < n → streamBit s.bitbuf (bits + m) = false) → streamBit s.bitbuf (bits + n) = true →
      bits + 126 + 3 ≤ 8 * s.bitbufBytes →
      (3 ≤ tag → exec .wfRecDec s = .next (s.failedWith 6#8 0x23#64 44#8
        (BitVec.ofNat 24 (n / 14 + 256 * (n % 14) + 65536 * 255)) (BitVec.ofNat 64 tag))) ∧
      ∀ i, i < 64 → tag ≤ 2 → bits + 126 + rebuiltBits s.bitbuf (bits + 126) tag ≤ 8 * s.bitbufBytes →
        (∀ j, j < i → sampleInRange (sample j)) → ¬ sampleInRange (sample i) →
        exec .wfRecDec s = .next (s.failedWith 7#8 0x23#64 41#8
          (BitVec.ofNat 24 (n / 14 + 256 * (n % 14) + 65536 * i)) (BitVec.ofInt 64 (sample i))))

/-- R181 law 1: after a successful WF_PKT_ENC, WF_PKT_DEC of the same packet at the same bit offset, in any state
with the same buffer, the same reference packet and presence, succeeds, restores the samples and consumes exactly
the bits the encoder wrote. -/
def Obligations.PacketRoundTrip : Prop :=
  ∀ (s t u : State) (ch pkt : BitVec 4), exec (.wfPktEnc ch pkt) s = .next t → t.err = false →
    u.bitbuf = t.bitbuf → u.bitbufBytes = t.bitbufBytes → u.argWord 0 = t.argWord 0 →
    u.present 1 pkt.toNat = t.present 1 pkt.toNat → u.samples 1 pkt.toNat = t.samples 1 pkt.toNat →
    ∃ v, exec (.wfPktDec ch pkt) u = .next v ∧ v.err = false ∧
      v.samples ch.toNat pkt.toNat = s.samples ch.toNat pkt.toNat ∧
      v.resWord 0 = t.resWord 0 ∧ v.resWord 1 = t.resWord 1 ∧ v.resWord 2 = t.resWord 2

/-- R181 law 3: 64 equal samples are a 28-bit type-1 packet of 4 bytes where type 3 does not apply, and an 18-bit
type-3 packet of 3 bytes where the reference differs from it by a constant. -/
def Obligations.ConstantPacketIsSmall : Prop :=
  (∀ x, pktSelect (List.replicate 64 x) none = (1, type1 (List.replicate 64 x)) ∧
    fieldsWidth (type1 (List.replicate 64 x)) = 28 ∧ packetSize (type1 (List.replicate 64 x)) = 4) ∧
  ∀ x y, pktSelect (List.replicate 64 x) (some (List.replicate 64 y)) =
      (3, type3 (List.replicate 64 x) (List.replicate 64 y)) ∧
    fieldsWidth (type3 (List.replicate 64 x) (List.replicate 64 y)) = 18 ∧
    packetSize (type3 (List.replicate 64 x) (List.replicate 64 y)) = 3

/-! ### Waveform records (42_waveform.md) -/

/-- R206, R205: WF_REC_ENC, with legal configuration and values, a size that fits its field and a record inside the
buffer, writes the record (size, fields, bitmap, packets, zero pad) from byte ARG0 on, keeps every other byte, and
sets RES0 = size and RES1 = L. -/
def Obligations.WfRecEncWritesRecord : Prop :=
  ∀ s : State, s.WfConfig → s.WfValues →
    let bits := s.cwfSizeBits.toNat
    let L := bits + fieldsWidth s.wfOut
    let size := (L + 7) / 8
    size < 2 ^ bits → s.argU 0 + size ≤ s.bitbufBytes →
    ∃ t, exec .wfRecEnc s = .next t ∧
      t = { s with bitbuf := t.bitbuf, res := t.res, inflight := none, done := true, err := false, code := 0#8 } ∧
      fieldsAt t.bitbuf (8 * s.argU 0) ((bits, size) :: s.wfOut ++ [(8 * size - L, 0)]) ∧
      sameBytesOutside (s.argU 0) size s.bitbuf t.bitbuf ∧
      resAre s t [BitVec.ofNat 64 size, BitVec.ofNat 64 L]

/-- R207, R208, R209: where BITBUF holds, from byte ARG0 on and inside the buffer, the record that R205 gives for
the waveform of `s`, WF_REC_DEC in a state `u` of the same configuration restores PRESENCE, WF_TIMESTAMP, WF_SCAN and
the samples of every present packet, sets the samples of an absent packet to 0, and reports size and length; with any
other value in the size field it raises DECODE_ERROR (7) with ERR_FIELD 40 and ERR_INFO the bytes consumed. -/
def Obligations.WfRecDecReadsRecord : Prop :=
  ∀ (s u : State) (sizeField : Nat), s.WfConfig → s.WfValues → s.SameWfConfig u →
    let bits := s.cwfSizeBits.toNat
    let L := bits + fieldsWidth s.wfOut
    let size := (L + 7) / 8
    u.argU 0 + size ≤ u.bitbufBytes → fieldsAt u.bitbuf (8 * u.argU 0) ((bits, sizeField) :: s.wfOut) →
    (sizeField = size → ∃ v, exec .wfRecDec u = .next v ∧
      v = { u with
        presence := s.presence, wfTimestamp := s.wfTimestamp, wfScan := s.wfScan, smpMem := v.smpMem
        res := v.res, inflight := none, done := true, err := false, code := 0#8 } ∧
      resAre u v [BitVec.ofNat 64 size, BitVec.ofNat 64 L] ∧
      ∀ c p, c < 9 → p < 14 →
        v.samples c p = if s.present c p then s.samples c p else List.replicate 64 0) ∧
    (sizeField ≠ size →
      exec .wfRecDec u = .next (u.failedWith 7#8 0x23#64 40#8 0xFFFFFF#24 (BitVec.ofNat 64 size)))

/-- R209 law 1: after a successful WF_REC_ENC, WF_REC_DEC at the same address, in any state with the same buffer and
configuration, succeeds, returns the same size and length, and restores PRESENCE, WF_TIMESTAMP, WF_SCAN and the
samples of every present packet; the samples of an absent packet become 0. -/
def Obligations.WfRecordRoundTrip : Prop :=
  ∀ s t u : State, exec .wfRecEnc s = .next t → t.err = false →
    u.bitbuf = t.bitbuf → u.bitbufBytes = t.bitbufBytes → u.argWord 0 = t.argWord 0 → s.SameWfConfig u →
    ∃ v, exec .wfRecDec u = .next v ∧
      v = { u with
        presence := s.presence, wfTimestamp := s.wfTimestamp, wfScan := s.wfScan, smpMem := v.smpMem
        res := v.res, inflight := none, done := true, err := false, code := 0#8 } ∧
      resAre u v [t.resWord 0, t.resWord 1] ∧
      ∀ c p, c < 9 → p < 14 →
        v.samples c p = if s.present c p then s.samples c p else List.replicate 64 0

/-! ### Point records (43_point_record.md) -/

/-- R230, R221, R225, R232: PR_ENC, with legal configuration and values, a size that fits its field and a record
inside the buffer, writes the record (size, counts, fields, returns, zero pad) from byte ARG0 on, keeps every other
byte, moves the bounds exactly under CTRL.APPEND, and reports size, width, full bit and band. -/
def Obligations.PrEncWritesRecord : Prop :=
  ∀ s : State, s.PrConfig → s.PrValues →
    let bits := s.cxySizeBits.toNat
    let L := bits + fieldsWidth s.prOut
    let size := (L + 7) / 8
    let mode := lonMode s.scale s.lonBase s.plat
    size < 2 ^ bits → s.argU 0 + size ≤ s.bitbufBytes →
    ∃ t, exec .prEnc s = .next t ∧
      t = { s with
        bitbuf := t.bitbuf, bounds := if s.append then s.boundsUpdate else s.bounds, res := t.res
        inflight := none, done := true, err := false, code := 0#8 } ∧
      fieldsAt t.bitbuf (8 * s.argU 0) ((bits, size) :: s.prOut ++ [(8 * size - L, 0)]) ∧
      sameBytesOutside (s.argU 0) size s.bitbuf t.bitbuf ∧
      resAre s t [BitVec.ofNat 64 size, BitVec.ofNat 64 mode.width, BitVec.ofNat 64 mode.full.toNat,
        BitVec.ofInt 64 (latBand s.scale s.plat)]

/-- R233 law 4: the number of bits of a point record after its size field. -/
def Obligations.PrRecordLength : Prop :=
  ∀ s : State, fieldsWidth s.prOut =
    27 + (∑ k ∈ Finset.range 11, s.fieldBits k) + 3 * wPos s.scale +
      (lonMode s.scale s.lonBase s.plat).width +
      ∑ c ∈ Finset.range 9, ((s.recWord c).toNat *
        (wPos s.scale + (lonMode s.scale s.lonBase s.plat).width +
          ∑ k ∈ Finset.range 5, s.fieldBits (11 + k)) + s.fieldBits 16)

/-- R206, R225, R230: with legal configuration, a record encoder whose record holds a value outside its field raises
VALUE_OUT_OF_RANGE (1) for the first such value in record order, and changes nothing but the error and status
registers: PR_ENC, after the return counts (PrEncRejectsCountFirst), for the first item that does not fit, with the
item's ERR_FIELD and ERR_INDEX and ERR_INFO its REC word; WF_REC_ENC for the timestamp (17), the scan angle (18) and
then the first sample word above 1023 of a present packet (41); and, all values being legal, either encoder for a
size that does not fit its field (39 or 40), with ERR_INFO the size. -/
def Obligations.PrEncRejectsRange : Prop :=
  ∀ s : State,
    (s.PrConfig → ¬ s.PrValues → ∃ t, exec .prEnc s = .next t ∧ t = s.failedWith 1#8 0x30#64 t.errField t.errIndex t.errInfo) ∧
    (∀ (n : Nat) (it : PrItem), s.PrConfig → (∀ c, c < 9 → (s.recWord c).toNat ≤ 4) → (prLead ++ prBody s.counts)[n]? = some it →
      (∀ (m : Nat) (jt : PrItem), m < n → (prLead ++ prBody s.counts)[m]? = some jt → s.itemFits (s.recWord jt.word) jt.kind) →
      ¬ s.itemFits (s.recWord it.word) it.kind →
      exec .prEnc s = .next (s.failedWith 1#8 0x30#64 it.kind.field it.index (s.recWord it.word))) ∧
    (s.PrConfig → s.PrValues → 2 ^ s.cxySizeBits.toNat ≤ recordSize s.cxySizeBits.toNat s.prOut →
      exec .prEnc s = .next (s.failedWith 1#8 0x30#64 39#8 0xFFFFFF#24
        (BitVec.ofNat 64 (recordSize s.cxySizeBits.toNat s.prOut)))) ∧
    (s.WfConfig → ¬ s.scalarFits 17 s.wfTimestamp →
      exec .wfRecEnc s = .next (s.failedWith 1#8 0x22#64 17#8 0xFFFFFF#24 s.wfTimestamp)) ∧
    (s.WfConfig → s.scalarFits 17 s.wfTimestamp → ¬ s.scalarFits 18 s.wfScan →
      exec .wfRecEnc s = .next (s.failedWith 1#8 0x22#64 18#8 0xFFFFFF#24 s.wfScan)) ∧
    (∀ c p i, c < 9 → p < 14 → i < 64 → s.WfConfig → s.scalarFits 17 s.wfTimestamp → s.scalarFits 18 s.wfScan →
      (∀ c' p', p' < 14 → c' * 14 + p' < c * 14 + p → s.present c' p' = true → samplesLegal (s.samples c' p')) →
      s.present c p = true → (∀ j, j < i → (s.smpMem.get (smpAddr c p j)).toNat ≤ 1023) →
      1023 < (s.smpMem.get (smpAddr c p i)).toNat →
      exec .wfRecEnc s = .next (s.failedWith 1#8 0x22#64 41#8 (BitVec.ofNat 24 (c + 256 * p + 65536 * i))
        ((s.smpMem.get (smpAddr c p i)).setWidth 64))) ∧
    (s.WfConfig → s.WfValues → 2 ^ s.cwfSizeBits.toNat ≤ recordSize s.cwfSizeBits.toNat s.wfOut →
      exec .wfRecEnc s = .next (s.failedWith 1#8 0x22#64 40#8 0xFFFFFF#24
        (BitVec.ofNat 64 (recordSize s.cwfSizeBits.toNat s.wfOut))))

/-- R225, R231: a return count above 4, on the first channel that has one, is reported with ERR_FIELD 38, ERR_INDEX
(channel, 0xFF, 0xFF) and ERR_INFO the count: by PR_ENC as VALUE_OUT_OF_RANGE (1), before any other value is examined,
and by PR_DEC as DECODE_ERROR (7), the counts being the 3-bit fields after the size field. -/
def Obligations.PrEncRejectsCountFirst : Prop :=
  ∀ (s : State) (c : Nat), s.PrConfig → c < 9 →
    let count (d : Nat) := bitRead s.bitbuf (8 * s.argU 0 + s.cxySizeBits.toNat + 3 * d) 3
    ((∀ d, d < c → (s.recWord d).toNat ≤ 4) → 4 < (s.recWord c).toNat →
      exec .prEnc s = .next (s.failedWith 1#8 0x30#64 38#8 (BitVec.ofNat 24 (c + 256 * 255 + 65536 * 255))
        (s.recWord c))) ∧
    (8 * s.argU 0 + s.cxySizeBits.toNat + 3 * c + 3 ≤ 8 * s.bitbufBytes →
      (∀ d, d < c → count d ≤ 4) → 4 < count c →
      exec .prDec s = .next (s.failedWith 7#8 0x31#64 38#8 (BitVec.ofNat 24 (c + 256 * 255 + 65536 * 255))
        (BitVec.ofNat 64 (count c))))

/-- R231, R221: where BITBUF holds, from byte ARG0 on and inside the buffer, the record that R221 gives for the REC
words of `s`, PR_DEC in a state `u` of the same configuration restores every REC word the record holds, sets
items 0 … 6 of the unused return slots to 0, leaves REC[33 … 39] and item 7 of every slot, and reports size, width,
full bit and band; with any other value in the size field it raises DECODE_ERROR (7) with ERR_FIELD 39 and ERR_INFO
the bytes consumed. -/
def Obligations.PrDecReadsRecord : Prop :=
  ∀ (s u : State) (sizeField : Nat), s.PrConfig → s.PrValues → s.SamePrConfig u →
    let bits := s.cxySizeBits.toNat
    let L := bits + fieldsWidth s.prOut
    let size := (L + 7) / 8
    let mode := lonMode s.scale s.lonBase s.plat
    u.argU 0 + size ≤ u.bitbufBytes → fieldsAt u.bitbuf (8 * u.argU 0) ((bits, sizeField) :: s.prOut) →
    (sizeField = size → ∃ v, exec .prDec u = .next v ∧
      v = { u with recMem := v.recMem, res := v.res, inflight := none, done := true, err := false, code := 0#8 } ∧
      resAre u v [BitVec.ofNat 64 size, BitVec.ofNat 64 mode.width, BitVec.ofNat 64 mode.full.toNat,
        BitVec.ofInt 64 (latBand s.scale s.plat)] ∧
      ∀ j, v.recWord j =
        if prHolds s.counts j then s.recWord j else if prUnused s.counts j then 0#64 else u.recWord j) ∧
    (sizeField ≠ size →
      exec .prDec u = .next (u.failedWith 7#8 0x31#64 39#8 0xFFFFFF#24 (BitVec.ofNat 64 size)))

/-- R233 law 1: after a successful PR_ENC, PR_DEC at the same address, in any state with the same buffer and
configuration, succeeds, restores every REC word the record holds, sets the unused return slots to 0, leaves
REC[33 … 39] and item 7 of every slot, and reports what the encoder reported. -/
def Obligations.PointRecordRoundTrip : Prop :=
  ∀ s t u : State, exec .prEnc s = .next t → t.err = false →
    u.bitbuf = t.bitbuf → u.bitbufBytes = t.bitbufBytes → u.argWord 0 = t.argWord 0 → s.SamePrConfig u →
    ∃ v, exec .prDec u = .next v ∧
      v = { u with recMem := v.recMem, res := v.res, inflight := none, done := true, err := false, code := 0#8 } ∧
      resAre u v [t.resWord 0, t.resWord 1, t.resWord 2, t.resWord 3] ∧
      ∀ j, v.recWord j =
        if prHolds s.counts j then s.recWord j else if prUnused s.counts j then 0#64 else u.recWord j

/-- R232: after a successful PR_ENC with CTRL.APPEND = 1, MIN_PLAT and MAX_PLAT are the signed minimum and maximum of
their old values and the platform latitude, and MIN_LAT and MAX_LAT bound their old values and the latitude of
every present return, one of which they equal; longitudes likewise. With CTRL.APPEND = 0 the bounds stay. -/
def Obligations.AppendMovesBounds : Prop :=
  ∀ s t : State, exec .prEnc s = .next t → t.err = false → (s.append = false → t.bounds = s.bounds) ∧ (s.append = true →
    let lats := (presentReturns s.counts).map fun cr => s64 (s.recWord (retAddr cr.1 cr.2 0))
    let lons := (presentReturns s.counts).map fun cr => s64 (s.recWord (retAddr cr.1 cr.2 1))
    s64 t.bounds.minPlat = min (s64 s.bounds.minPlat) (s64 (s.recWord 11)) ∧
      s64 t.bounds.maxPlat = max (s64 s.bounds.maxPlat) (s64 (s.recWord 11)) ∧
      s64 t.bounds.minPlon = min (s64 s.bounds.minPlon) (s64 (s.recWord 12)) ∧
      s64 t.bounds.maxPlon = max (s64 s.bounds.maxPlon) (s64 (s.recWord 12)) ∧
      s64 t.bounds.minLat = lats.foldl min (s64 s.bounds.minLat) ∧
      s64 t.bounds.maxLat = lats.foldl max (s64 s.bounds.maxLat) ∧
      s64 t.bounds.minLon = lons.foldl min (s64 s.bounds.minLon) ∧
      s64 t.bounds.maxLon = lons.foldl max (s64 s.bounds.maxLon))

/-! ### Status helpers and bounds (43_point_record.md) -/

/-- R240: BOUNDS_RESET, whose word is 0x32, sets each MIN to the greatest `s64` and each MAX to the least, and changes nothing else but
STATUS. -/
def Obligations.BoundsResetRestoresSentinels : Prop :=
  encode .boundsReset = 0x32#64 ∧ ∀ s : State, exec .boundsReset s = .next { s with
    bounds :=
      { minLat := 0x7FFFFFFFFFFFFFFF#64, maxLat := 0x8000000000000000#64
        minLon := 0x7FFFFFFFFFFFFFFF#64, maxLon := 0x8000000000000000#64
        minPlat := 0x7FFFFFFFFFFFFFFF#64, maxPlat := 0x8000000000000000#64
        minPlon := 0x7FFFFFFFFFFFFFFF#64, maxPlon := 0x8000000000000000#64 }
    inflight := none, done := true, err := false, code := 0#8 }

/-- R241, R242: SET_STATUS (words 0x40 and 0x140) sets RES0 to ARG0 with the bits of ARG1 set (V = 1) or cleared (V = 0), bit by bit;
GET_STATUS (word 0x41) sets RES0 to 1 if any bit of ARG1 is set in ARG0 and to 0 otherwise; neither changes anything else
but STATUS. -/
def Obligations.StatusHelpersResult : Prop :=
  (encode (.setStatus 0#1) = 0x40#64 ∧ encode (.setStatus 1#1) = 0x140#64 ∧ encode .getStatus = 0x41#64) ∧ ∀ s : State,
    (∀ v : BitVec 1, ∃ t, exec (.setStatus v) s = .next t ∧
      t = { s with res := t.res, inflight := none, done := true, err := false, code := 0#8 } ∧
      resAre s t [t.resWord 0] ∧
      ∀ k, k < 64 → (t.resWord 0).getLsbD k =
        if (s.argWord 1).getLsbD k then decide (v = 1#1) else (s.argWord 0).getLsbD k) ∧
    ∃ t, exec .getStatus s = .next t ∧
      t = { s with res := t.res, inflight := none, done := true, err := false, code := 0#8 } ∧
      resAre s t [if (List.range 64).any fun k => (s.argWord 0).getLsbD k && (s.argWord 1).getLsbD k
        then 1#64 else 0#64]

/-! ### Reset and host accesses (70_reset_and_hazards.md, 20_memory.md, 10_state.md) -/

/-- R290, R292: after power-on, whatever the memories hold, every register has the value of R290. -/
def Obligations.PowerOnRegisters : Prop :=
  ∀ (n : Nat) (recs : Memory 64) (smps : Memory 16) (buf : Memory 8),
    let s := State.powerOn n recs smps buf
    s.ctrl = 0#64 ∧ s.status = 0#64 ∧ s.irq = false ∧ readControl s 0 = 0x4744433100000007#64 ∧
      s.errCode = 0#8 ∧ s.errCmd = 0#64 ∧ s.errField = 0#8 ∧ s.errIndex = 0#24 ∧ s.errInfo = 0#64 ∧
      (∀ i, i < 8 → s.argWord i = 0#64 ∧ s.resWord i = 0#64) ∧
      s.posScale = 0#32 ∧ s.lonBaseBits = 0#7 ∧ s.cxySizeBits = 0#7 ∧ s.cwfSizeBits = 0#7 ∧
      (∀ k, k < 19 → s.fieldBits k = 0 ∧ s.fieldOffset k = 0) ∧
      s.bounds = Bounds.sentinel ∧ (∀ c p, c < 9 → p < 14 → s.present c p = false) ∧
      s.wfTimestamp = 0#64 ∧ s.wfScan = 0#64 ∧ s.recMem = recs ∧ s.smpMem = smps ∧ s.bitbuf = buf

/-- R291: with no command in flight, a host write to CTRL with bit 2 set gives every register its reset value,
whatever bits 0 and 1 hold, and keeps REC, SMP and BITBUF (and the model's own fields, log 15); while a command is
in flight it is refused; SOFT_RESET reads 0. -/
def Obligations.SoftResetKeepsMemories : Prop :=
  ∀ (s : State) (v : Word) (rest : List HostOp), s.script = .write .w64 0x008#32 v :: rest → v.getLsbD 2 = true →
    (s.inflight = none → step s = .next { State.powerOn s.bitbufBytes s.recMem s.smpMem s.bitbuf with
      script := rest, durations := s.durations, rdata := s.rdata }) ∧
    (∀ w n, s.inflight = some ⟨w, n + 1⟩ → step s = .refused .busyAccess) ∧
    (readControl s 1).getLsbD 2 = false

/-- R22, R24, R270: `IRQ = CTRL.IRQ_EN AND STATUS.DONE`; a host write of STATUS with bit 1 set clears DONE (and so
IRQ) and nothing else, with bit 1 clear it changes nothing, also while a command is in flight; a write of CTRL
without SOFT_RESET sets IRQ_EN and APPEND and leaves DONE. -/
def Obligations.StatusAndCtrlWrites : Prop :=
  ∀ (s : State) (v : Word),
    (s.irq = true ↔ s.irqEn = true ∧ s.done = true) ∧
      busWrite s .w64 0x018#32 v = .next (if v.getLsbD 1 then { s with done := false } else s) ∧
      (s.inflight = none → v.getLsbD 2 = false →
        busWrite s .w64 0x008#32 v = .next { s with irqEn := v.getLsbD 0, append := v.getLsbD 1 })

/-- R72: while a command is in flight a host access other than to STATUS is refused, to an unmapped address too
(the model's choice, log 7). -/
def Obligations.BusyContractIsRefused : Prop :=
  ∀ (s : State) (f : InFlight) (n : Nat) (wd : Width) (a : BitVec 32) (v : Word) (rest : List HostOp),
    s.inflight = some f → f.remaining = n + 1 → a ≠ 0x018#32 →
    s.script = .write wd a v :: rest ∨ s.script = .read wd a :: rest →
    ∃ r, step s = .refused r ∧ (r = .busyAccess ∨ r = .badAccess)

/-- R20 to R25, R27, R34, R60, R61, R70: with no command in flight, a host access none of whose bytes lies in a row of
the map reads 0 and writes nothing (what counts as unmapped is the model's reading, log 7), and one that touches a row
but is not an aligned access of that row's width is refused; a host write to a read-only register (ID, ERR_*, RES,
bounds) changes nothing, and a read of it returns its field, of CTRL bits 1 and 0 = APPEND and IRQ_EN, of CMD 0. STATUS
reads as CODE, ERR, DONE and BUSY at bits 15:8, 2, 1 and 0, also while a command is in flight. -/
def Obligations.IgnoredAccesses : Prop :=
  ∀ (s : State) (v : Word),
    s.reads .w64 0x018#32
      (BitVec.ofNat 64 (s.code.toNat * 256 + s.err.toNat * 4 + s.done.toNat * 2 + s.inflight.isSome.toNat)) ∧
    (s.inflight = none →
      (∀ (wd : Width) (a : BitVec 32),
        ((∀ k row, k < wd.bytes → row ∈ hostRows s.bitbufBytes → ¬ (row.1 ≤ a.toNat + k ∧ a.toNat + k ≤ row.2.1)) →
          busWrite s wd a v = .next s ∧ s.reads wd a 0#64) ∧
        ∀ k row, k < wd.bytes → row ∈ hostRows s.bitbufBytes → row.1 ≤ a.toNat + k → a.toNat + k ≤ row.2.1 →
          ¬ (wd.bytes = row.2.2 ∧ a.toNat % row.2.2 = 0) →
          busWrite s wd a v = .refuse .badAccess ∧ busRead s wd a = .refuse .badAccess) ∧
      s.reads .w64 0x008#32 (BitVec.ofNat 64 (s.append.toNat * 2 + s.irqEn.toNat)) ∧
      s.reads .w64 0x010#32 0#64 ∧
      (∀ (a : BitVec 32) (w : Word),
        (a, w) ∈ [(0x000#32, 0x4744433100000007#64), (0x020#32, BitVec.ofNat 64 s.errCode.toNat), (0x028#32, s.errCmd),
          (0x030#32, BitVec.ofNat 64 s.errField.toNat), (0x038#32, BitVec.ofNat 64 s.errIndex.toNat),
          (0x040#32, s.errInfo), (0x180#32, s.bounds.minLat), (0x188#32, s.bounds.maxLat), (0x190#32, s.bounds.minLon),
          (0x198#32, s.bounds.maxLon), (0x1A0#32, s.bounds.minPlat), (0x1A8#32, s.bounds.maxPlat),
          (0x1B0#32, s.bounds.minPlon), (0x1B8#32, s.bounds.maxPlon)] →
        busWrite s .w64 a v = .next s ∧ s.reads .w64 a w) ∧
      ∀ i, i < 8 → busWrite s .w64 (addrRes i) v = .next s ∧ s.reads .w64 (addrRes i) (s.resWord i))

/-- R20, R22, R26, R28, R30, R31, R32, R35, R36: with no command in flight, a host write to an RW register stores the
written word's implemented bits there and changes nothing else, not even the other registers of the same bank, and a host
read then returns those bits, the other bits 0; of CTRL, where bit 2 (SOFT_RESET) is not written, bits 0 and 1. -/
def Obligations.RegisterReadsBackImplementedBits : Prop :=
  ∀ (s : State) (v : Word), s.inflight = none →
    (∀ i, i < 8 → ∃ t, s.readsBack .w64 (addrArg i) v 64 t ∧ t = { s with arg := t.arg } ∧
      ∀ j, t.argWord j = if j = i then v else s.argWord j) ∧
    (v.getLsbD 2 = false → s.readsBack .w64 0x008#32 v 2 { s with irqEn := v.getLsbD 0, append := v.getLsbD 1 }) ∧
    s.readsBack .w64 0x100#32 v 32 { s with posScale := v.setWidth 32 } ∧
    s.readsBack .w64 0x108#32 v 7 { s with lonBaseBits := v.setWidth 7 } ∧
    s.readsBack .w64 0x110#32 v 7 { s with cxySizeBits := v.setWidth 7 } ∧
    s.readsBack .w64 0x118#32 v 7 { s with cwfSizeBits := v.setWidth 7 } ∧
    (∀ c, c < 9 → ∃ t, s.readsBack .w64 (addrPresence c) v 14 t ∧ t = { s with presence := t.presence } ∧
      ∀ d p, p < 14 → t.present d p = if d = c then v.getLsbD p else s.present d p) ∧
    s.readsBack .w64 0x248#32 v 64 { s with wfTimestamp := v } ∧
    s.readsBack .w64 0x250#32 v 64 { s with wfScan := v } ∧
    (∀ k, k < 19 → ∃ t, s.readsBack .w64 (addrFbits k) v 7 t ∧ t = { s with fbits := t.fbits } ∧
      ∀ j, t.fieldBits j = if j = k then v.toNat % 2 ^ 7 else s.fieldBits j) ∧
    ∀ k, k < 19 → ∃ t, s.readsBack .w64 (addrFoff k) v 64 t ∧ t = { s with foff := t.foff } ∧
      ∀ j, t.fieldOffset j = if j = k then s64 v else s.fieldOffset j

/-- R37, R38, R39: with no command in flight, a host write to a unit of REC, SMP or BITBUF at its width is read back
whole; every other unit of that memory, every register and the other memories keep their values. That a narrow write
stores the low bits of the word given is the model's convention (log 14). -/
def Obligations.MemoryReadsBackWhole : Prop :=
  ∀ (s : State) (v : Word), s.inflight = none → Config.legalBitbufBytes s.bitbufBytes →
    (∀ j, j < 328 → ∃ t, s.readsBack .w64 (addrRec j) v 64 t ∧ t = { s with recMem := t.recMem } ∧
      ∀ k, t.recMem.get k = if k = j then v else s.recMem.get k) ∧
    (∀ c p i, c < 9 → p < 14 → i < 64 → ∃ t, s.readsBack .w16 (addrSmp c p i) v 16 t ∧
      t = { s with smpMem := t.smpMem } ∧
      ∀ k, t.smpMem.get k = if k = smpAddr c p i then v.setWidth 16 else s.smpMem.get k) ∧
    ∀ a, a < s.bitbufBytes → ∃ t, s.readsBack .w8 (addrBuf a) v 8 t ∧ t = { s with bitbuf := t.bitbuf } ∧
      ∀ k, t.bitbuf.get k = if k = a then v.setWidth 8 else s.bitbuf.get k

/-! ### The invariant -/

/-- The invariant holds after power-on of every legal instance, whatever canonical contents its memories have. -/
def Obligations.PowerOnMeetsInvariant : Prop :=
  ∀ (n : Nat) (recs : Memory 64) (smps : Memory 16) (buf : Memory 8), Config.legalBitbufBytes n →
    Memory.wf Config.recWords recs → Memory.wf Config.smpWords smps → Memory.wf n buf →
    (State.powerOn n recs smps buf).Inv

/-- Every step keeps the invariant: the memories stay canonical and of their size, the status and last-error
registers stay in agreement and hold only listed codes and field identifiers, and DONE is 0 while BUSY is 1. -/
def Obligations.EveryStepKeepsInvariant : Prop :=
  ∀ s t : State, s.Inv → step s = .next t → t.Inv
end

