-- ==== Sys2Proof/Laws/Memory.lean ====
section
/-! SUPPORT. The laws of the sparse memories: what a read gives after each write, for every list (canonical or
not), and that every operation keeps the canonical form `Memory.wf`. -/

namespace Sys2Proof.Machine

variable {w : Nat}

@[simp] theorem Memory.get_nil (a : Nat) : Memory.get ([] : Memory w) a = 0#w := rfl

theorem Memory.get_cons (p : Nat × BitVec w) (m : Memory w) (a : Nat) :
    Memory.get (p :: m) a = if p.1 = a then p.2 else Memory.get m a := rfl

theorem Memory.insert_cons (p : Nat × BitVec w) (m : Memory w) (a : Nat) (v : BitVec w) :
    Memory.insert (p :: m) a v = if a < p.1 then (a, v) :: p :: m else p :: Memory.insert m a v := rfl

/-! ### Reads -/

theorem Memory.get_filter_ne (m : Memory w) (a b : Nat) :
    Memory.get (m.filter fun p => decide (p.1 ≠ a)) b = if b = a then 0#w else Memory.get m b := by
  induction m with
  | nil => simp
  | cons p m ih =>
    by_cases h : p.1 = a
    · rw [List.filter_cons_of_neg (by simp [h]), ih, Memory.get_cons]
      split <;> simp_all [eq_comm]
    · rw [List.filter_cons_of_pos (by simp [h]), Memory.get_cons, ih, Memory.get_cons]
      split <;> simp_all

theorem Memory.get_insert_ne {a b : Nat} (hb : b ≠ a) (m : Memory w) (v : BitVec w) :
    Memory.get (Memory.insert m a v) b = Memory.get m b := by
  induction m with
  | nil => simp [Memory.insert, Memory.get_cons, hb.symm]
  | cons p m ih =>
    rw [Memory.insert_cons]
    split <;> simp [Memory.get_cons, ih, hb.symm]

theorem Memory.get_insert_self {m : Memory w} {a : Nat} (h : ∀ p ∈ m, p.1 ≠ a) (v : BitVec w) :
    Memory.get (Memory.insert m a v) a = v := by
  induction m with
  | nil => simp [Memory.insert, Memory.get_cons]
  | cons p m ih =>
    have hp : p.1 ≠ a := h p (List.mem_cons_self ..)
    rw [Memory.insert_cons]
    split <;> simp [Memory.get_cons, hp, ih fun q hq => h q (List.mem_cons_of_mem _ hq)]

/-- A read after a write: the value written there, the old value everywhere else. -/
theorem Memory.get_set (m : Memory w) (a b : Nat) (v : BitVec w) :
    (m.set a v).get b = if b = a then v else m.get b := by
  have hne : ∀ p ∈ m.filter (fun p => decide (p.1 ≠ a)), p.1 ≠ a := fun p hp => by
    simpa using (List.mem_filter.1 hp).2
  unfold Memory.set
  by_cases hv : v = 0#w
  · simp only [hv, if_true, Memory.get_filter_ne]
  · simp only [hv, if_false]
    by_cases hb : b = a
    · subst hb; rw [if_pos rfl, Memory.get_insert_self hne]
    · rw [if_neg hb, Memory.get_insert_ne hb, Memory.get_filter_ne, if_neg hb]

@[simp] theorem Memory.get_set_self (m : Memory w) (a : Nat) (v : BitVec w) : (m.set a v).get a = v := by
  simp [Memory.get_set]

theorem Memory.get_set_ne {a b : Nat} (h : b ≠ a) (m : Memory w) (v : BitVec w) :
    (m.set a v).get b = m.get b := by
  simp [Memory.get_set, h]

/-- Consecutive writes: unit `a + k` gets the `k`-th value, every other unit keeps its own. -/
theorem Memory.get_setRange (m : Memory w) (a b : Nat) (vs : List (BitVec w)) :
    (m.setRange a vs).get b = if a ≤ b ∧ b < a + vs.length then vs.getD (b - a) 0#w else m.get b := by
  induction vs generalizing m a with
  | nil =>
    rw [if_neg (by simp)]
    rfl
  | cons v vs ih =>
    rw [Memory.setRange, ih, Memory.get_set]
    by_cases hb : b = a
    · subst hb
      simp
    · rw [if_neg hb]
      by_cases h : a + 1 ≤ b ∧ b < a + 1 + vs.length
      · obtain ⟨d, rfl⟩ := Nat.exists_eq_add_of_le h.1
        have e : a + 1 + d - a = d + 1 := by omega
        rw [if_pos h, if_pos (by simp only [List.length_cons]; omega), e]
        simp
      · rw [if_neg h, if_neg (by simp only [List.length_cons]; omega)]

/-- The memory built from a list reads as the list, and 0 outside it. -/
theorem Memory.get_ofUnits (a b : Nat) (vs : List (BitVec w)) :
    (Memory.ofUnits a vs).get b = if a ≤ b then vs.getD (b - a) 0#w else 0#w := by
  induction vs generalizing a with
  | nil => simp [Memory.ofUnits]
  | cons v vs ih =>
    have key : (if v = 0#w then Memory.ofUnits (a + 1) vs else (a, v) :: Memory.ofUnits (a + 1) vs).get b =
        if a = b then v else (Memory.ofUnits (a + 1) vs).get b := by
      by_cases hv : v = 0#w
      · simp only [hv, if_true, ih]
        by_cases hb : a = b
        · simp [hb]
        · simp [hb]
      · simp only [hv, if_false, Memory.get_cons]
    rw [Memory.ofUnits, key, ih]
    by_cases hb : a = b
    · simp [hb]
    · by_cases h : a + 1 ≤ b
      · have e : b - a = (b - (a + 1)) + 1 := by omega
        rw [if_neg hb, if_pos h, if_pos (by omega), e]
        simp
      · rw [if_neg hb, if_neg h, if_neg (by omega)]

/-! ### The canonical form -/

theorem Memory.wf_nil (n : Nat) : Memory.wf n ([] : Memory w) := by simp [Memory.wf]

theorem Memory.mem_insert {m : Memory w} {a : Nat} {v : BitVec w} {p : Nat × BitVec w}
    (h : p ∈ Memory.insert m a v) : p = (a, v) ∨ p ∈ m := by
  induction m with
  | nil => simpa [Memory.insert] using h
  | cons q m ih =>
    rw [Memory.insert_cons] at h
    split at h
    · simpa using h
    · rcases List.mem_cons.1 h with rfl | h
      · exact .inr (List.mem_cons_self ..)
      · exact (ih h).imp_right (List.mem_cons_of_mem _)

theorem Memory.pairwise_insert {m : Memory w} {a : Nat} (v : BitVec w)
    (hs : m.Pairwise fun p q => p.1 < q.1) (ha : ∀ p ∈ m, p.1 ≠ a) :
    (Memory.insert m a v).Pairwise fun p q => p.1 < q.1 := by
  induction m with
  | nil => simp [Memory.insert]
  | cons q m ih =>
    have hq := List.pairwise_cons.1 hs
    have hqa : q.1 ≠ a := ha q (List.mem_cons_self ..)
    rw [Memory.insert_cons]
    split
    · rename_i hlt
      refine List.pairwise_cons.2 ⟨fun p hp => ?_, hs⟩
      rcases List.mem_cons.1 hp with rfl | hp
      · exact hlt
      · exact Nat.lt_trans hlt (hq.1 p hp)
    · rename_i hlt
      refine List.pairwise_cons.2 ⟨fun p hp => ?_, ih hq.2 fun p hp => ha p (List.mem_cons_of_mem _ hp)⟩
      rcases Memory.mem_insert hp with rfl | hp
      · show q.1 < a
        omega
      · exact hq.1 p hp

/-- A write below the memory's size keeps the canonical form. -/
theorem Memory.wf_set {n : Nat} {m : Memory w} (h : Memory.wf n m) {a : Nat} (ha : a < n) (v : BitVec w) :
    Memory.wf n (m.set a v) := by
  have hs : (m.filter fun p => decide (p.1 ≠ a)).Pairwise fun p q => p.1 < q.1 := h.1.filter _
  have hm : ∀ p ∈ m.filter (fun p => decide (p.1 ≠ a)), p.1 < n ∧ p.2 ≠ 0#w := fun p hp =>
    h.2 p (List.mem_filter.1 hp).1
  unfold Memory.set
  by_cases hv : v = 0#w
  · simp only [hv, if_true]
    exact ⟨hs, hm⟩
  · simp only [hv, if_false]
    refine ⟨Memory.pairwise_insert v hs fun p hp => by simpa using (List.mem_filter.1 hp).2, fun p hp => ?_⟩
    rcases Memory.mem_insert hp with rfl | hp
    · exact ⟨ha, hv⟩
    · exact hm p hp

theorem Memory.wf_setRange {n : Nat} {m : Memory w} (h : Memory.wf n m) {a : Nat} {vs : List (BitVec w)}
    (ha : a + vs.length ≤ n) : Memory.wf n (m.setRange a vs) := by
  induction vs generalizing m a with
  | nil => exact h
  | cons v vs ih =>
    simp only [List.length_cons] at ha
    exact ih (Memory.wf_set h (by omega) v) (by omega)

theorem Memory.mem_ofUnits {a : Nat} {vs : List (BitVec w)} {p : Nat × BitVec w} (h : p ∈ Memory.ofUnits a vs) :
    a ≤ p.1 ∧ p.1 < a + vs.length ∧ p.2 ≠ 0#w := by
  induction vs generalizing a with
  | nil => simp [Memory.ofUnits] at h
  | cons v vs ih =>
    rw [Memory.ofUnits] at h
    simp only [List.length_cons]
    split at h
    · obtain ⟨h1, h2, h3⟩ := ih h
      exact ⟨by omega, by omega, h3⟩
    · rename_i hv
      rcases List.mem_cons.1 h with rfl | h
      · exact ⟨Nat.le_refl _, by simp, hv⟩
      · obtain ⟨h1, h2, h3⟩ := ih h
        exact ⟨by omega, by omega, h3⟩

theorem Memory.wf_ofUnits {n a : Nat} {vs : List (BitVec w)} (h : a + vs.length ≤ n) :
    Memory.wf n (Memory.ofUnits a vs) := by
  refine ⟨?_, fun p hp => ?_⟩
  · clear h
    induction vs generalizing a with
    | nil => simp [Memory.ofUnits]
    | cons v vs ih =>
      rw [Memory.ofUnits]
      split
      · exact ih
      · refine List.pairwise_cons.2 ⟨fun p hp => ?_, ih⟩
        show a < p.1
        have := Memory.mem_ofUnits hp
        omega
  · obtain ⟨_, h2, h3⟩ := Memory.mem_ofUnits hp
    exact ⟨by omega, h3⟩

/-- Canonical memories that read the same are equal. -/
theorem Memory.ext {n : Nat} {m m' : Memory w} (h : Memory.wf n m) (h' : Memory.wf n m')
    (hg : ∀ a, m.get a = m'.get a) : m = m' := by
  have below : ∀ {k : Nat} {l : Memory w}, (∀ q ∈ l, k < q.1) → l.get k = 0#w := by
    intro k l hl
    induction l with
    | nil => rfl
    | cons q l ih =>
      rw [Memory.get_cons, if_neg (by have := hl q (List.mem_cons_self ..); omega)]
      exact ih fun r hr => hl r (List.mem_cons_of_mem _ hr)
  induction m generalizing m' with
  | nil =>
    cases m' with
    | nil => rfl
    | cons q m' =>
      have := hg q.1
      rw [Memory.get_nil, Memory.get_cons, if_pos rfl] at this
      exact absurd this.symm (h'.2 q (List.mem_cons_self ..)).2
  | cons p m ih =>
    have hp := List.pairwise_cons.1 h.1
    have hp0 := (h.2 p (List.mem_cons_self ..)).2
    cases m' with
    | nil =>
      have := hg p.1
      rw [Memory.get_nil, Memory.get_cons, if_pos rfl] at this
      exact absurd this hp0
    | cons q m' =>
      have hq := List.pairwise_cons.1 h'.1
      have hq0 := (h'.2 q (List.mem_cons_self ..)).2
      have hpq : p.1 = q.1 := by
        rcases Nat.lt_trichotomy p.1 q.1 with hlt | heq | hgt
        · have := hg p.1
          rw [Memory.get_cons, if_pos rfl, Memory.get_cons, if_neg (by omega),
            below fun r hr => Nat.lt_trans hlt (hq.1 r hr)] at this
          exact absurd this hp0
        · exact heq
        · have := hg q.1
          rw [Memory.get_cons, if_neg (by omega), Memory.get_cons, if_pos rfl,
            below fun r hr => Nat.lt_trans hgt (hp.1 r hr)] at this
          exact absurd this.symm hq0
      have hv : p.2 = q.2 := by
        have := hg p.1
        rwa [Memory.get_cons, if_pos rfl, Memory.get_cons, if_pos hpq.symm] at this
      have htail : m = m' := by
        refine ih ⟨hp.2, fun r hr => h.2 r (List.mem_cons_of_mem _ hr)⟩
          ⟨hq.2, fun r hr => h'.2 r (List.mem_cons_of_mem _ hr)⟩ fun a => ?_
        by_cases ha : p.1 = a
        · subst ha
          rw [below hp.1, below fun r hr => by rw [hpq]; exact hq.1 r hr]
        · have := hg a
          rwa [Memory.get_cons, if_neg ha, Memory.get_cons, if_neg (by rw [← hpq]; exact ha)] at this
      rw [htail, Prod.ext hpq hv]

end Sys2Proof.Machine
end

