-- ==== Sys2Proof/Laws/Bits.lean ====
section
/-! SUPPORT. The laws of the bit stream (R62 to R65): one stream bit after a write, reads after writes, whole
output sequences, and the canonical form of BITBUF under them. -/

namespace Sys2Proof.Machine

/-! ### One bit -/

theorem getLsbD_setByteBit (v : Byte) {i j : Nat} (hi : i < 8) (hj : j < 8) (x : Bool) :
    (setByteBit v i x).getLsbD j = if j = i then x else v.getLsbD j := by
  unfold setByteBit
  cases x <;> by_cases h : j = i
  · simp [h]
  · simp [hj, h]
    omega
  · simp [h, hi]
  · simp [hj, h]
    omega

/-- Writing one stream bit changes that bit and no other. -/
theorem streamBit_setStreamBit (m : Memory 8) (b c : Nat) (x : Bool) :
    streamBit (setStreamBit m b x) c = if c = b then x else streamBit m c := by
  unfold streamBit setStreamBit
  rw [Memory.get_set]
  by_cases h : c / 8 = b / 8
  · rw [if_pos h, getLsbD_setByteBit _ (by omega) (by omega), h]
    by_cases hb : c = b
    · simp [hb]
    · rw [if_neg hb, if_neg (by omega)]
  · rw [if_neg h, if_neg (by intro e; exact h (by rw [e]))]

/-- A byte other than the one holding the bit keeps its value. -/
theorem get_setStreamBit_ne (m : Memory 8) {b a : Nat} (h : a ≠ b / 8) (x : Bool) :
    (setStreamBit m b x).get a = m.get a := Memory.get_set_ne h _ _

/-- The bits of a byte determine it. -/
theorem get_eq_of_streamBit {m m' : Memory 8} {a : Nat}
    (h : ∀ t, t < 8 → streamBit m (8 * a + t) = streamBit m' (8 * a + t)) : m.get a = m'.get a := by
  apply BitVec.eq_of_getLsbD_eq
  intro i hi
  have := h (7 - i) (by omega)
  simp only [streamBit] at this
  rwa [show (8 * a + (7 - i)) / 8 = a by omega, show 7 - (8 * a + (7 - i)) % 8 = i by omega] at this

/-! ### Fields -/

/-- R64: after a write, bit `t` of the field is bit `w − 1 − t` of the value, and every other stream bit is as
before. -/
theorem streamBit_bitWrite (m : Memory 8) (b w v i : Nat) :
    streamBit (bitWrite m b w v) i =
      if b ≤ i ∧ i < b + w then v.testBit (b + w - 1 - i) else streamBit m i := by
  induction w generalizing v with
  | zero => rw [if_neg (by omega)]; rfl
  | succ w ih =>
    rw [bitWrite, streamBit_setStreamBit, ih]
    by_cases hi : i = b + w
    · subst hi
      rw [if_pos rfl, if_pos (by omega)]
      congr 1; omega
    · rw [if_neg hi]
      by_cases h : b ≤ i ∧ i < b + w
      · rw [if_pos h, if_pos (by omega), ← Nat.testBit_succ]
        congr 1; omega
      · rw [if_neg h, if_neg (by omega)]

/-- A byte the field does not touch keeps its value. -/
theorem get_bitWrite_outside (m : Memory 8) {b w a : Nat} (v : Nat) (h : 8 * a + 8 ≤ b ∨ b + w ≤ 8 * a) :
    (bitWrite m b w v).get a = m.get a := by
  apply get_eq_of_streamBit
  intro t ht
  rw [streamBit_bitWrite, if_neg (by omega)]

theorem bitRead_lt (m : Memory 8) (b w : Nat) : bitRead m b w < 2 ^ w := by
  induction w with
  | zero => simp [bitRead]
  | succ w ih =>
    have := Bool.toNat_lt (streamBit m (b + w))
    rw [bitRead, Nat.pow_succ]
    omega

/-- R63: bit `t` of the value read is stream bit `b + (w − 1 − t)`. -/
theorem testBit_bitRead (m : Memory 8) (b w t : Nat) :
    (bitRead m b w).testBit t = (decide (t < w) && streamBit m (b + (w - 1 - t))) := by
  induction w generalizing t with
  | zero => simp [bitRead]
  | succ w ih =>
    have hx : (streamBit m (b + w)).toNat < 2 := Bool.toNat_lt _
    cases t with
    | zero =>
      rw [bitRead, Nat.testBit_zero, Nat.add_mod]
      cases h : streamBit m (b + w) <;> simp [h]
    | succ t =>
      rw [bitRead, Nat.testBit_succ, show (2 * bitRead m b w + (streamBit m (b + w)).toNat) / 2 = bitRead m b w by omega,
        ih]
      congr 2
      · simp
      · congr 1; omega

/-- A read depends on the bits of its range only. -/
theorem bitRead_congr {m m' : Memory 8} {b w : Nat}
    (h : ∀ t, t < w → streamBit m (b + t) = streamBit m' (b + t)) : bitRead m b w = bitRead m' b w := by
  induction w with
  | zero => rfl
  | succ w ih =>
    rw [bitRead, bitRead, ih fun t ht => h t (by omega), h w (by omega)]

/-- A read of what was written gives the value's low bits. -/
theorem bitRead_bitWrite_self (m : Memory 8) (b w v : Nat) : bitRead (bitWrite m b w v) b w = v % 2 ^ w := by
  apply Nat.eq_of_testBit_eq
  intro t
  rw [testBit_bitRead, streamBit_bitWrite, Nat.testBit_mod_two_pow]
  by_cases ht : t < w
  · rw [if_pos (by omega)]
    congr 2; omega
  · simp [ht]

/-- A read of a range disjoint from the written one gives what it gave before. -/
theorem bitRead_bitWrite_disjoint (m : Memory 8) {b w b' w' : Nat} (v : Nat) (h : b' + w' ≤ b ∨ b + w ≤ b') :
    bitRead (bitWrite m b w v) b' w' = bitRead m b' w' := by
  apply bitRead_congr
  intro t ht
  rw [streamBit_bitWrite, if_neg (by omega)]

/-- Reading two adjacent fields at once. -/
theorem bitRead_add (m : Memory 8) (b w1 w2 : Nat) :
    bitRead m b (w1 + w2) = bitRead m b w1 * 2 ^ w2 + bitRead m (b + w1) w2 := by
  induction w2 with
  | zero => simp [bitRead]
  | succ w2 ih =>
    rw [← Nat.add_assoc, bitRead, ih, bitRead, Nat.pow_succ, Nat.add_assoc b w1 w2]
    ring

/-- R63 as the manual writes it, a sum over the bits of the range. -/
theorem bitRead_eq_sum (m : Memory 8) (b w : Nat) :
    bitRead m b w = ∑ t ∈ Finset.range w, (streamBit m (b + t)).toNat * 2 ^ (w - 1 - t) := by
  induction w with
  | zero => simp [bitRead]
  | succ w ih =>
    rw [bitRead, ih, Finset.sum_range_succ, Finset.mul_sum]
    congr 1
    · apply Finset.sum_congr rfl
      intro t ht
      have : w + 1 - 1 - t = (w - 1 - t) + 1 := by have := Finset.mem_range.1 ht; omega
      rw [this, Nat.pow_succ]
      ring
    · simp

theorem wf_setStreamBit {n : Nat} {m : Memory 8} (h : Memory.wf n m) {b : Nat} (hb : b < 8 * n) (x : Bool) :
    Memory.wf n (setStreamBit m b x) := Memory.wf_set h (by omega) _

/-- A write inside the buffer keeps its canonical form. -/
theorem wf_bitWrite {n : Nat} {m : Memory 8} (h : Memory.wf n m) {b w : Nat} (hb : b + w ≤ 8 * n) (v : Nat) :
    Memory.wf n (bitWrite m b w v) := by
  induction w generalizing v with
  | zero => exact h
  | succ w ih => exact wf_setStreamBit (ih (by omega) _) (by omega) _

/-! ### Output sequences -/

@[simp] theorem fieldsWidth_nil : fieldsWidth [] = 0 := rfl

@[simp] theorem fieldsWidth_cons (f : Field) (fs : List Field) : fieldsWidth (f :: fs) = f.1 + fieldsWidth fs := rfl

@[simp] theorem fieldsWidth_append (fs gs : List Field) :
    fieldsWidth (fs ++ gs) = fieldsWidth fs + fieldsWidth gs := by
  induction fs with
  | nil => simp
  | cons f fs ih => simp [ih, Nat.add_assoc]

/-- Equal-width fields. -/
theorem fieldsWidth_map_const {α : Type} (w : Nat) (g : α → Nat) (xs : List α) :
    fieldsWidth (xs.map fun x => (w, g x)) = xs.length * w := by
  induction xs with
  | nil => simp
  | cons x xs ih => simp [ih, Nat.add_mul, Nat.add_comm]

theorem writeFields_append (m : Memory 8) (b : Nat) (fs gs : List Field) :
    writeFields m b (fs ++ gs) = writeFields (writeFields m b fs) (b + fieldsWidth fs) gs := by
  induction fs generalizing m b with
  | nil => rfl
  | cons f fs ih =>
    rw [List.cons_append, writeFields, ih, writeFields, fieldsWidth_cons, Nat.add_assoc]

/-- Writing fields changes no stream bit outside them. -/
theorem streamBit_writeFields_outside (m : Memory 8) (b : Nat) (fs : List Field) {i : Nat}
    (h : ¬ (b ≤ i ∧ i < b + fieldsWidth fs)) : streamBit (writeFields m b fs) i = streamBit m i := by
  induction fs generalizing m b with
  | nil => rfl
  | cons f fs ih =>
    rw [fieldsWidth_cons] at h
    rw [writeFields, ih _ _ (by omega), streamBit_bitWrite, if_neg (by omega)]

/-- Writing fields changes no byte outside them. -/
theorem get_writeFields_outside (m : Memory 8) {b a : Nat} (fs : List Field)
    (h : 8 * a + 8 ≤ b ∨ b + fieldsWidth fs ≤ 8 * a) : (writeFields m b fs).get a = m.get a := by
  apply get_eq_of_streamBit
  intro t ht
  exact streamBit_writeFields_outside m b fs (by omega)

theorem wf_writeFields {n : Nat} {m : Memory 8} (h : Memory.wf n m) {b : Nat} {fs : List Field}
    (hb : b + fieldsWidth fs ≤ 8 * n) : Memory.wf n (writeFields m b fs) := by
  induction fs generalizing m b with
  | nil => exact h
  | cons f fs ih =>
    rw [fieldsWidth_cons] at hb
    exact ih (wf_bitWrite h (by omega) _) (by omega)

/-! ### Fields found in BITBUF -/

@[simp] theorem fieldsAt_nil (m : Memory 8) (b : Nat) : fieldsAt m b [] := trivial

@[simp] theorem fieldsAt_cons (m : Memory 8) (b : Nat) (f : Field) (fs : List Field) :
    fieldsAt m b (f :: fs) ↔ bitRead m b f.1 = f.2 ∧ fieldsAt m (b + f.1) fs := Iff.rfl

@[simp] theorem fieldsAt_append (m : Memory 8) (b : Nat) (fs gs : List Field) :
    fieldsAt m b (fs ++ gs) ↔ fieldsAt m b fs ∧ fieldsAt m (b + fieldsWidth fs) gs := by
  induction fs generalizing b with
  | nil => simp
  | cons f fs ih => simp [ih, Nat.add_assoc, and_assoc]

/-- What is found depends on the bits of the fields only. -/
theorem fieldsAt_congr {m m' : Memory 8} {b : Nat} {fs : List Field}
    (h : ∀ i, b ≤ i → i < b + fieldsWidth fs → streamBit m i = streamBit m' i) (hf : fieldsAt m b fs) :
    fieldsAt m' b fs := by
  induction fs generalizing b with
  | nil => trivial
  | cons f fs ih =>
    rw [fieldsWidth_cons] at h
    refine ⟨?_, ih (fun i h1 h2 => h i (by omega) (by omega)) hf.2⟩
    rw [← hf.1]
    exact bitRead_congr fun t ht => (h (b + t) (by omega) (by omega)).symm

/-- Fields that fit their widths are found where they were written. -/
theorem fieldsAt_writeFields (m : Memory 8) (b : Nat) {fs : List Field} (h : ∀ f ∈ fs, f.2 < 2 ^ f.1) :
    fieldsAt (writeFields m b fs) b fs := by
  induction fs generalizing m b with
  | nil => trivial
  | cons f fs ih =>
    refine ⟨?_, ih _ _ fun g hg => h g (List.mem_cons_of_mem _ hg)⟩
    rw [writeFields, bitRead_congr (m' := bitWrite m b f.1 f.2)
      fun t ht => streamBit_writeFields_outside _ _ _ (by omega), bitRead_bitWrite_self]
    exact Nat.mod_eq_of_lt (h f (List.mem_cons_self ..))

end Sys2Proof.Machine
end

