-- ==== Sys2Proof/Laws/Integers.lean ====
section
/-! SUPPORT. The integer helpers: `bitsNeeded`, `ceil8`, `packUnsigned`, `wrap64` and `s64`. -/

namespace Sys2Proof.Machine

/-- R11: `bits_needed(n)` bits suffice. -/
theorem lt_two_pow_bitsNeeded (n : Nat) : n < 2 ^ bitsNeeded n := by
  unfold bitsNeeded
  split
  · simp_all
  · exact Nat.lt_log2_self

/-- R11: `bits_needed(n)` is the least such width. -/
theorem bitsNeeded_le_iff (n b : Nat) : bitsNeeded n ≤ b ↔ n < 2 ^ b := by
  constructor
  · intro h
    exact Nat.lt_of_lt_of_le (lt_two_pow_bitsNeeded n) (Nat.pow_le_pow_right (by omega) h)
  · intro h
    unfold bitsNeeded
    split
    · omega
    · rename_i hn
      have := (Nat.log2_lt hn).2 h
      omega

theorem bitsNeeded_mono {m n : Nat} (h : m ≤ n) : bitsNeeded m ≤ bitsNeeded n :=
  (bitsNeeded_le_iff _ _).2 (Nat.lt_of_le_of_lt h (lt_two_pow_bitsNeeded n))

theorem le_eight_mul_ceil8 (n : Nat) : n ≤ 8 * ceil8 n := by unfold ceil8; omega

theorem eight_mul_ceil8_lt (n : Nat) : 8 * ceil8 n < n + 8 := by unfold ceil8; omega

theorem ceil8_mono {m n : Nat} (h : m ≤ n) : ceil8 m ≤ ceil8 n := by unfold ceil8; omega

/-- `packUnsigned` answers exactly the value, when it fits. -/
theorem packUnsigned_of_fits {p : Int} {w : Nat} (h0 : 0 ≤ p) (h1 : p < 2 ^ w) (e : CmdError) :
    packUnsigned p w e = .ok p.toNat := by
  unfold packUnsigned
  rw [if_pos ⟨h0, by push_cast; exact h1⟩]

/-- `packUnsigned` answers the error, when the value does not fit. -/
theorem packUnsigned_of_not_fits {p : Int} {w : Nat} (h : ¬ (0 ≤ p ∧ p < 2 ^ w)) (e : CmdError) :
    packUnsigned p w e = .error e := by
  unfold packUnsigned
  rw [if_neg (by push_cast; exact h)]

/-- What an answer of `packUnsigned` says. -/
theorem packUnsigned_ok {p : Int} {w n : Nat} {e : CmdError} (h : packUnsigned p w e = .ok n) :
    (n : Int) = p ∧ n < 2 ^ w := by
  unfold packUnsigned at h
  split at h
  · rename_i hp
    cases h
    exact ⟨Int.toNat_of_nonneg hp.1, by have := hp.2; omega⟩
  · cases h

theorem packUnsigned_error {p : Int} {w : Nat} {e e' : CmdError} (h : packUnsigned p w e = .error e') :
    e' = e := by
  unfold packUnsigned at h
  split at h <;> cases h
  rfl

/-- R11: a word is `wrap64` of its signed value. -/
@[simp] theorem wrap64_s64 (w : Word) : wrap64 (s64 w) = w := by simp [wrap64, s64]

/-- R11: a word is `wrap64` of its unsigned value. -/
@[simp] theorem wrap64_u64 (w : Word) : wrap64 (u64 w : Int) = w := by simp [wrap64, u64]

/-- R11: an integer in the signed range is the signed value of its word. -/
theorem s64_wrap64 {z : Int} (h0 : -2 ^ 63 ≤ z) (h1 : z < 2 ^ 63) : s64 (wrap64 z) = z := by
  simp only [s64, wrap64, BitVec.toInt_ofInt]
  exact Int.bmod_eq_of_le (by omega) (by omega)

/-- R11: an integer in the unsigned range is the unsigned value of its word. -/
theorem u64_wrap64 {n : Nat} (h : n < 2 ^ 64) : u64 (wrap64 n) = n := by
  simp only [u64, wrap64, BitVec.ofInt_natCast, BitVec.toNat_ofNat]
  exact Nat.mod_eq_of_lt h

theorem s64_bounds (w : Word) : -2 ^ 63 ≤ s64 w ∧ s64 w < 2 ^ 63 := by
  have h1 := BitVec.le_toInt w
  have h2 := BitVec.toInt_lt (x := w)
  exact ⟨by simpa [s64] using h1, by simpa [s64] using h2⟩

/-! ### W_POS (R29) -/

theorem wPos_pos {S : Nat} (h : 1 ≤ S) : 1 ≤ wPos S := by
  by_contra h0
  have := (bitsNeeded_le_iff (360 * S) 0).1 (by unfold wPos at h0; omega)
  omega

theorem two_pow_wPos_gt (S : Nat) : 360 * S < 2 ^ wPos S := lt_two_pow_bitsNeeded _

end Sys2Proof.Machine
end

