-- ==== Sys2Proof/Laws/State.lean ====
section
/-! SUPPORT. One lemma per field for each shared update of State: completion (R260), abort (R262), writing RES
registers (R27), starting a command (R260) and the soft reset (R291). -/

namespace Sys2Proof.Machine

/-! ### Successful completion -/

@[simp] theorem State.succeed_irqEn (s : State) : (s.succeed).irqEn = s.irqEn := rfl
@[simp] theorem State.succeed_append (s : State) : (s.succeed).append = s.append := rfl
@[simp] theorem State.succeed_inflight (s : State) : (s.succeed).inflight = none := rfl
@[simp] theorem State.succeed_done (s : State) : (s.succeed).done = true := rfl
@[simp] theorem State.succeed_err (s : State) : (s.succeed).err = false := rfl
@[simp] theorem State.succeed_code (s : State) : (s.succeed).code = 0#8 := rfl
@[simp] theorem State.succeed_errCode (s : State) : (s.succeed).errCode = s.errCode := rfl
@[simp] theorem State.succeed_errCmd (s : State) : (s.succeed).errCmd = s.errCmd := rfl
@[simp] theorem State.succeed_errField (s : State) : (s.succeed).errField = s.errField := rfl
@[simp] theorem State.succeed_errIndex (s : State) : (s.succeed).errIndex = s.errIndex := rfl
@[simp] theorem State.succeed_errInfo (s : State) : (s.succeed).errInfo = s.errInfo := rfl
@[simp] theorem State.succeed_arg (s : State) : (s.succeed).arg = s.arg := rfl
@[simp] theorem State.succeed_res (s : State) : (s.succeed).res = s.res := rfl
@[simp] theorem State.succeed_posScale (s : State) : (s.succeed).posScale = s.posScale := rfl
@[simp] theorem State.succeed_lonBaseBits (s : State) : (s.succeed).lonBaseBits = s.lonBaseBits := rfl
@[simp] theorem State.succeed_cxySizeBits (s : State) : (s.succeed).cxySizeBits = s.cxySizeBits := rfl
@[simp] theorem State.succeed_cwfSizeBits (s : State) : (s.succeed).cwfSizeBits = s.cwfSizeBits := rfl
@[simp] theorem State.succeed_fbits (s : State) : (s.succeed).fbits = s.fbits := rfl
@[simp] theorem State.succeed_foff (s : State) : (s.succeed).foff = s.foff := rfl
@[simp] theorem State.succeed_bounds (s : State) : (s.succeed).bounds = s.bounds := rfl
@[simp] theorem State.succeed_presence (s : State) : (s.succeed).presence = s.presence := rfl
@[simp] theorem State.succeed_wfTimestamp (s : State) : (s.succeed).wfTimestamp = s.wfTimestamp := rfl
@[simp] theorem State.succeed_wfScan (s : State) : (s.succeed).wfScan = s.wfScan := rfl
@[simp] theorem State.succeed_recMem (s : State) : (s.succeed).recMem = s.recMem := rfl
@[simp] theorem State.succeed_smpMem (s : State) : (s.succeed).smpMem = s.smpMem := rfl
@[simp] theorem State.succeed_bitbuf (s : State) : (s.succeed).bitbuf = s.bitbuf := rfl
@[simp] theorem State.succeed_bitbufBytes (s : State) : (s.succeed).bitbufBytes = s.bitbufBytes := rfl
@[simp] theorem State.succeed_script (s : State) : (s.succeed).script = s.script := rfl
@[simp] theorem State.succeed_durations (s : State) : (s.succeed).durations = s.durations := rfl
@[simp] theorem State.succeed_rdata (s : State) : (s.succeed).rdata = s.rdata := rfl

/-! ### Abort -/

@[simp] theorem State.abort_irqEn (s : State) (w : Word) (e : CmdError) : (s.abort w e).irqEn = s.irqEn := rfl
@[simp] theorem State.abort_append (s : State) (w : Word) (e : CmdError) : (s.abort w e).append = s.append := rfl
@[simp] theorem State.abort_inflight (s : State) (w : Word) (e : CmdError) : (s.abort w e).inflight = none := rfl
@[simp] theorem State.abort_done (s : State) (w : Word) (e : CmdError) : (s.abort w e).done = true := rfl
@[simp] theorem State.abort_err (s : State) (w : Word) (e : CmdError) : (s.abort w e).err = true := rfl
@[simp] theorem State.abort_code (s : State) (w : Word) (e : CmdError) : (s.abort w e).code = e.kind.number := rfl
@[simp] theorem State.abort_errCode (s : State) (w : Word) (e : CmdError) : (s.abort w e).errCode = e.kind.number := rfl
@[simp] theorem State.abort_errCmd (s : State) (w : Word) (e : CmdError) : (s.abort w e).errCmd = w := rfl
@[simp] theorem State.abort_errField (s : State) (w : Word) (e : CmdError) : (s.abort w e).errField = e.field := rfl
@[simp] theorem State.abort_errIndex (s : State) (w : Word) (e : CmdError) : (s.abort w e).errIndex = e.index := rfl
@[simp] theorem State.abort_errInfo (s : State) (w : Word) (e : CmdError) : (s.abort w e).errInfo = e.info := rfl
@[simp] theorem State.abort_arg (s : State) (w : Word) (e : CmdError) : (s.abort w e).arg = s.arg := rfl
@[simp] theorem State.abort_res (s : State) (w : Word) (e : CmdError) : (s.abort w e).res = s.res := rfl
@[simp] theorem State.abort_posScale (s : State) (w : Word) (e : CmdError) : (s.abort w e).posScale = s.posScale := rfl
@[simp] theorem State.abort_lonBaseBits (s : State) (w : Word) (e : CmdError) : (s.abort w e).lonBaseBits = s.lonBaseBits := rfl
@[simp] theorem State.abort_cxySizeBits (s : State) (w : Word) (e : CmdError) : (s.abort w e).cxySizeBits = s.cxySizeBits := rfl
@[simp] theorem State.abort_cwfSizeBits (s : State) (w : Word) (e : CmdError) : (s.abort w e).cwfSizeBits = s.cwfSizeBits := rfl
@[simp] theorem State.abort_fbits (s : State) (w : Word) (e : CmdError) : (s.abort w e).fbits = s.fbits := rfl
@[simp] theorem State.abort_foff (s : State) (w : Word) (e : CmdError) : (s.abort w e).foff = s.foff := rfl
@[simp] theorem State.abort_bounds (s : State) (w : Word) (e : CmdError) : (s.abort w e).bounds = s.bounds := rfl
@[simp] theorem State.abort_presence (s : State) (w : Word) (e : CmdError) : (s.abort w e).presence = s.presence := rfl
@[simp] theorem State.abort_wfTimestamp (s : State) (w : Word) (e : CmdError) : (s.abort w e).wfTimestamp = s.wfTimestamp := rfl
@[simp] theorem State.abort_wfScan (s : State) (w : Word) (e : CmdError) : (s.abort w e).wfScan = s.wfScan := rfl
@[simp] theorem State.abort_recMem (s : State) (w : Word) (e : CmdError) : (s.abort w e).recMem = s.recMem := rfl
@[simp] theorem State.abort_smpMem (s : State) (w : Word) (e : CmdError) : (s.abort w e).smpMem = s.smpMem := rfl
@[simp] theorem State.abort_bitbuf (s : State) (w : Word) (e : CmdError) : (s.abort w e).bitbuf = s.bitbuf := rfl
@[simp] theorem State.abort_bitbufBytes (s : State) (w : Word) (e : CmdError) : (s.abort w e).bitbufBytes = s.bitbufBytes := rfl
@[simp] theorem State.abort_script (s : State) (w : Word) (e : CmdError) : (s.abort w e).script = s.script := rfl
@[simp] theorem State.abort_durations (s : State) (w : Word) (e : CmdError) : (s.abort w e).durations = s.durations := rfl
@[simp] theorem State.abort_rdata (s : State) (w : Word) (e : CmdError) : (s.abort w e).rdata = s.rdata := rfl

/-! ### RES registers -/

@[simp] theorem State.writeRes_irqEn (s : State) (zs : List Int) : (s.writeRes zs).irqEn = s.irqEn := rfl
@[simp] theorem State.writeRes_append (s : State) (zs : List Int) : (s.writeRes zs).append = s.append := rfl
@[simp] theorem State.writeRes_inflight (s : State) (zs : List Int) : (s.writeRes zs).inflight = s.inflight := rfl
@[simp] theorem State.writeRes_done (s : State) (zs : List Int) : (s.writeRes zs).done = s.done := rfl
@[simp] theorem State.writeRes_err (s : State) (zs : List Int) : (s.writeRes zs).err = s.err := rfl
@[simp] theorem State.writeRes_code (s : State) (zs : List Int) : (s.writeRes zs).code = s.code := rfl
@[simp] theorem State.writeRes_errCode (s : State) (zs : List Int) : (s.writeRes zs).errCode = s.errCode := rfl
@[simp] theorem State.writeRes_errCmd (s : State) (zs : List Int) : (s.writeRes zs).errCmd = s.errCmd := rfl
@[simp] theorem State.writeRes_errField (s : State) (zs : List Int) : (s.writeRes zs).errField = s.errField := rfl
@[simp] theorem State.writeRes_errIndex (s : State) (zs : List Int) : (s.writeRes zs).errIndex = s.errIndex := rfl
@[simp] theorem State.writeRes_errInfo (s : State) (zs : List Int) : (s.writeRes zs).errInfo = s.errInfo := rfl
@[simp] theorem State.writeRes_arg (s : State) (zs : List Int) : (s.writeRes zs).arg = s.arg := rfl
@[simp] theorem State.writeRes_res (s : State) (zs : List Int) : (s.writeRes zs).res = writeResFrom s.res 0 zs := rfl
@[simp] theorem State.writeRes_posScale (s : State) (zs : List Int) : (s.writeRes zs).posScale = s.posScale := rfl
@[simp] theorem State.writeRes_lonBaseBits (s : State) (zs : List Int) : (s.writeRes zs).lonBaseBits = s.lonBaseBits := rfl
@[simp] theorem State.writeRes_cxySizeBits (s : State) (zs : List Int) : (s.writeRes zs).cxySizeBits = s.cxySizeBits := rfl
@[simp] theorem State.writeRes_cwfSizeBits (s : State) (zs : List Int) : (s.writeRes zs).cwfSizeBits = s.cwfSizeBits := rfl
@[simp] theorem State.writeRes_fbits (s : State) (zs : List Int) : (s.writeRes zs).fbits = s.fbits := rfl
@[simp] theorem State.writeRes_foff (s : State) (zs : List Int) : (s.writeRes zs).foff = s.foff := rfl
@[simp] theorem State.writeRes_bounds (s : State) (zs : List Int) : (s.writeRes zs).bounds = s.bounds := rfl
@[simp] theorem State.writeRes_presence (s : State) (zs : List Int) : (s.writeRes zs).presence = s.presence := rfl
@[simp] theorem State.writeRes_wfTimestamp (s : State) (zs : List Int) : (s.writeRes zs).wfTimestamp = s.wfTimestamp := rfl
@[simp] theorem State.writeRes_wfScan (s : State) (zs : List Int) : (s.writeRes zs).wfScan = s.wfScan := rfl
@[simp] theorem State.writeRes_recMem (s : State) (zs : List Int) : (s.writeRes zs).recMem = s.recMem := rfl
@[simp] theorem State.writeRes_smpMem (s : State) (zs : List Int) : (s.writeRes zs).smpMem = s.smpMem := rfl
@[simp] theorem State.writeRes_bitbuf (s : State) (zs : List Int) : (s.writeRes zs).bitbuf = s.bitbuf := rfl
@[simp] theorem State.writeRes_bitbufBytes (s : State) (zs : List Int) : (s.writeRes zs).bitbufBytes = s.bitbufBytes := rfl
@[simp] theorem State.writeRes_script (s : State) (zs : List Int) : (s.writeRes zs).script = s.script := rfl
@[simp] theorem State.writeRes_durations (s : State) (zs : List Int) : (s.writeRes zs).durations = s.durations := rfl
@[simp] theorem State.writeRes_rdata (s : State) (zs : List Int) : (s.writeRes zs).rdata = s.rdata := rfl

/-! ### Starting a command -/

@[simp] theorem State.issue_irqEn (s : State) (w : Word) : (s.issue w).irqEn = s.irqEn := rfl
@[simp] theorem State.issue_append (s : State) (w : Word) : (s.issue w).append = s.append := rfl
@[simp] theorem State.issue_inflight (s : State) (w : Word) : (s.issue w).inflight = some ⟨w, s.durations.headD 0⟩ := rfl
@[simp] theorem State.issue_done (s : State) (w : Word) : (s.issue w).done = false := rfl
@[simp] theorem State.issue_err (s : State) (w : Word) : (s.issue w).err = s.err := rfl
@[simp] theorem State.issue_code (s : State) (w : Word) : (s.issue w).code = s.code := rfl
@[simp] theorem State.issue_errCode (s : State) (w : Word) : (s.issue w).errCode = s.errCode := rfl
@[simp] theorem State.issue_errCmd (s : State) (w : Word) : (s.issue w).errCmd = s.errCmd := rfl
@[simp] theorem State.issue_errField (s : State) (w : Word) : (s.issue w).errField = s.errField := rfl
@[simp] theorem State.issue_errIndex (s : State) (w : Word) : (s.issue w).errIndex = s.errIndex := rfl
@[simp] theorem State.issue_errInfo (s : State) (w : Word) : (s.issue w).errInfo = s.errInfo := rfl
@[simp] theorem State.issue_arg (s : State) (w : Word) : (s.issue w).arg = s.arg := rfl
@[simp] theorem State.issue_res (s : State) (w : Word) : (s.issue w).res = s.res := rfl
@[simp] theorem State.issue_posScale (s : State) (w : Word) : (s.issue w).posScale = s.posScale := rfl
@[simp] theorem State.issue_lonBaseBits (s : State) (w : Word) : (s.issue w).lonBaseBits = s.lonBaseBits := rfl
@[simp] theorem State.issue_cxySizeBits (s : State) (w : Word) : (s.issue w).cxySizeBits = s.cxySizeBits := rfl
@[simp] theorem State.issue_cwfSizeBits (s : State) (w : Word) : (s.issue w).cwfSizeBits = s.cwfSizeBits := rfl
@[simp] theorem State.issue_fbits (s : State) (w : Word) : (s.issue w).fbits = s.fbits := rfl
@[simp] theorem State.issue_foff (s : State) (w : Word) : (s.issue w).foff = s.foff := rfl
@[simp] theorem State.issue_bounds (s : State) (w : Word) : (s.issue w).bounds = s.bounds := rfl
@[simp] theorem State.issue_presence (s : State) (w : Word) : (s.issue w).presence = s.presence := rfl
@[simp] theorem State.issue_wfTimestamp (s : State) (w : Word) : (s.issue w).wfTimestamp = s.wfTimestamp := rfl
@[simp] theorem State.issue_wfScan (s : State) (w : Word) : (s.issue w).wfScan = s.wfScan := rfl
@[simp] theorem State.issue_recMem (s : State) (w : Word) : (s.issue w).recMem = s.recMem := rfl
@[simp] theorem State.issue_smpMem (s : State) (w : Word) : (s.issue w).smpMem = s.smpMem := rfl
@[simp] theorem State.issue_bitbuf (s : State) (w : Word) : (s.issue w).bitbuf = s.bitbuf := rfl
@[simp] theorem State.issue_bitbufBytes (s : State) (w : Word) : (s.issue w).bitbufBytes = s.bitbufBytes := rfl
@[simp] theorem State.issue_script (s : State) (w : Word) : (s.issue w).script = s.script := rfl
@[simp] theorem State.issue_durations (s : State) (w : Word) : (s.issue w).durations = s.durations.tail := rfl
@[simp] theorem State.issue_rdata (s : State) (w : Word) : (s.issue w).rdata = s.rdata := rfl

/-! ### Soft reset -/

@[simp] theorem State.softReset_irqEn (s : State) : (s.softReset).irqEn = false := rfl
@[simp] theorem State.softReset_append (s : State) : (s.softReset).append = false := rfl
@[simp] theorem State.softReset_inflight (s : State) : (s.softReset).inflight = none := rfl
@[simp] theorem State.softReset_done (s : State) : (s.softReset).done = false := rfl
@[simp] theorem State.softReset_err (s : State) : (s.softReset).err = false := rfl
@[simp] theorem State.softReset_code (s : State) : (s.softReset).code = 0#8 := rfl
@[simp] theorem State.softReset_errCode (s : State) : (s.softReset).errCode = 0#8 := rfl
@[simp] theorem State.softReset_errCmd (s : State) : (s.softReset).errCmd = 0#64 := rfl
@[simp] theorem State.softReset_errField (s : State) : (s.softReset).errField = 0#8 := rfl
@[simp] theorem State.softReset_errIndex (s : State) : (s.softReset).errIndex = 0#24 := rfl
@[simp] theorem State.softReset_errInfo (s : State) : (s.softReset).errInfo = 0#64 := rfl
@[simp] theorem State.softReset_arg (s : State) : (s.softReset).arg = Vector.replicate 8 0#64 := rfl
@[simp] theorem State.softReset_res (s : State) : (s.softReset).res = Vector.replicate 8 0#64 := rfl
@[simp] theorem State.softReset_posScale (s : State) : (s.softReset).posScale = 0#32 := rfl
@[simp] theorem State.softReset_lonBaseBits (s : State) : (s.softReset).lonBaseBits = 0#7 := rfl
@[simp] theorem State.softReset_cxySizeBits (s : State) : (s.softReset).cxySizeBits = 0#7 := rfl
@[simp] theorem State.softReset_cwfSizeBits (s : State) : (s.softReset).cwfSizeBits = 0#7 := rfl
@[simp] theorem State.softReset_fbits (s : State) : (s.softReset).fbits = Vector.replicate 19 0#7 := rfl
@[simp] theorem State.softReset_foff (s : State) : (s.softReset).foff = Vector.replicate 19 0#64 := rfl
@[simp] theorem State.softReset_bounds (s : State) : (s.softReset).bounds = Bounds.sentinel := rfl
@[simp] theorem State.softReset_presence (s : State) : (s.softReset).presence = Vector.replicate 9 0#14 := rfl
@[simp] theorem State.softReset_wfTimestamp (s : State) : (s.softReset).wfTimestamp = 0#64 := rfl
@[simp] theorem State.softReset_wfScan (s : State) : (s.softReset).wfScan = 0#64 := rfl
@[simp] theorem State.softReset_recMem (s : State) : (s.softReset).recMem = s.recMem := rfl
@[simp] theorem State.softReset_smpMem (s : State) : (s.softReset).smpMem = s.smpMem := rfl
@[simp] theorem State.softReset_bitbuf (s : State) : (s.softReset).bitbuf = s.bitbuf := rfl
@[simp] theorem State.softReset_bitbufBytes (s : State) : (s.softReset).bitbufBytes = s.bitbufBytes := rfl
@[simp] theorem State.softReset_script (s : State) : (s.softReset).script = s.script := rfl
@[simp] theorem State.softReset_durations (s : State) : (s.softReset).durations = s.durations := rfl
@[simp] theorem State.softReset_rdata (s : State) : (s.softReset).rdata = s.rdata := rfl

/-! ### The operands after a completion or a RES write are those before -/

@[simp] theorem State.argWord_succeed (s : State) (i : Nat) : (s.succeed).argWord i = s.argWord i := rfl
@[simp] theorem State.argWord_writeRes (s : State) (zs : List Int) (i : Nat) :
    (s.writeRes zs).argWord i = s.argWord i := rfl
@[simp] theorem State.argU_succeed (s : State) (i : Nat) : (s.succeed).argU i = s.argU i := rfl
@[simp] theorem State.argU_writeRes (s : State) (zs : List Int) (i : Nat) :
    (s.writeRes zs).argU i = s.argU i := rfl
@[simp] theorem State.argS_succeed (s : State) (i : Nat) : (s.succeed).argS i = s.argS i := rfl
@[simp] theorem State.argS_writeRes (s : State) (zs : List Int) (i : Nat) :
    (s.writeRes zs).argS i = s.argS i := rfl
@[simp] theorem State.scale_succeed (s : State) : (s.succeed).scale = s.scale := rfl
@[simp] theorem State.scale_writeRes (s : State) (zs : List Int) :
    (s.writeRes zs).scale = s.scale  := rfl
@[simp] theorem State.lonBase_succeed (s : State) : (s.succeed).lonBase = s.lonBase := rfl
@[simp] theorem State.lonBase_writeRes (s : State) (zs : List Int) :
    (s.writeRes zs).lonBase = s.lonBase  := rfl
@[simp] theorem State.fieldBits_succeed (s : State) (k : Nat) : (s.succeed).fieldBits k = s.fieldBits k := rfl
@[simp] theorem State.fieldBits_writeRes (s : State) (zs : List Int) (k : Nat) :
    (s.writeRes zs).fieldBits k = s.fieldBits k := rfl
@[simp] theorem State.fieldOffset_succeed (s : State) (k : Nat) : (s.succeed).fieldOffset k = s.fieldOffset k := rfl
@[simp] theorem State.fieldOffset_writeRes (s : State) (zs : List Int) (k : Nat) :
    (s.writeRes zs).fieldOffset k = s.fieldOffset k := rfl
@[simp] theorem State.samples_succeed (s : State) (c p : Nat) : (s.succeed).samples c p = s.samples c p := rfl
@[simp] theorem State.samples_writeRes (s : State) (zs : List Int) (c p : Nat) :
    (s.writeRes zs).samples c p = s.samples c p := rfl
@[simp] theorem State.present_succeed (s : State) (c p : Nat) : (s.succeed).present c p = s.present c p := rfl
@[simp] theorem State.present_writeRes (s : State) (zs : List Int) (c p : Nat) :
    (s.writeRes zs).present c p = s.present c p := rfl
@[simp] theorem State.recWord_succeed (s : State) (j : Nat) : (s.succeed).recWord j = s.recWord j := rfl
@[simp] theorem State.recWord_writeRes (s : State) (zs : List Int) (j : Nat) :
    (s.writeRes zs).recWord j = s.recWord j := rfl
@[simp] theorem State.streamBits_succeed (s : State) : (s.succeed).streamBits = s.streamBits := rfl
@[simp] theorem State.streamBits_writeRes (s : State) (zs : List Int) :
    (s.writeRes zs).streamBits = s.streamBits  := rfl
@[simp] theorem State.resWord_succeed (s : State) (i : Nat) : (s.succeed).resWord i = s.resWord i := rfl

end Sys2Proof.Machine
end

