-- ==== Sys2Proof/Laws/Commands.lean ====
section
/-! SUPPORT. What the shared operations of a command can do: `require`, `take` and `takeMany`, the configuration checks,
writing RES registers, the two ways a command ends (R260), and which errors its data can raise (`DataError`). -/

namespace Sys2Proof.Machine

/-! ### Except -/

@[simp] theorem bind_ok {α β : Type} (a : α) (f : α → Except CmdError β) : (Except.ok a >>= f) = f a := rfl

@[simp] theorem bind_error {α β : Type} (e : CmdError) (f : α → Except CmdError β) :
    ((Except.error e : Except CmdError α) >>= f) = .error e := rfl

/-- A sequence succeeds only if its first part does. -/
theorem bind_eq_ok {α β : Type} {x : Except CmdError α} {f : α → Except CmdError β} {b : β}
    (h : (x >>= f) = .ok b) : ∃ a, x = .ok a ∧ f a = .ok b := by
  cases x with
  | error e => cases h
  | ok a => exact ⟨a, rfl, h⟩

/-- A sequence fails in its first part, or after it. -/
theorem bind_eq_error {α β : Type} {x : Except CmdError α} {f : α → Except CmdError β} {e : CmdError}
    (h : (x >>= f) = .error e) : x = .error e ∨ ∃ a, x = .ok a ∧ f a = .error e := by
  cases x with
  | error e' => exact .inl (by cases h; rfl)
  | ok a => exact .inr ⟨a, rfl, h⟩

theorem require_of {p : Prop} [Decidable p] (h : p) (e : CmdError) : require p e = .ok () := if_pos h

theorem require_of_not {p : Prop} [Decidable p] (h : ¬ p) (e : CmdError) : require p e = .error e := if_neg h

theorem require_ok {p : Prop} [Decidable p] {e : CmdError} {u : Unit} (h : require p e = .ok u) : p := by
  unfold require at h
  split at h
  · assumption
  · cases h

theorem require_error {p : Prop} [Decidable p] {e e' : CmdError} (h : require p e = .error e') :
    ¬ p ∧ e' = e := by
  unfold require at h
  split at h
  · cases h
  · exact ⟨‹_›, by cases h; rfl⟩

/-! ### The input stream -/

theorem take_of_le {st : Stream} {pos w : Nat} (h : pos + w ≤ st.limit) :
    take st pos w = .ok (bitRead st.mem pos w, pos + w) := by
  unfold take
  rw [if_neg (by omega)]

theorem take_of_gt {st : Stream} {pos w : Nat} (h : st.limit < pos + w) :
    take st pos w = .error (overrunError noIndex st.start) := if_pos h

/-- Everything `take` can answer. -/
theorem take_ok {st : Stream} {pos w : Nat} {r : Nat × Nat} (h : take st pos w = .ok r) :
    pos + w ≤ st.limit ∧ r = (bitRead st.mem pos w, pos + w) := by
  unfold take at h
  split at h
  · cases h
  · exact ⟨by omega, by cases h; rfl⟩

theorem take_error {st : Stream} {pos w : Nat} {e : CmdError} (h : take st pos w = .error e) :
    e = overrunError noIndex st.start := by
  unfold take at h
  split at h <;> cases h
  rfl

/-- `r` reads the stream up to bit `n` and answers `v`, or overruns a stream that ends before. -/
def Reads {α : Type} (st : Stream) (n : Nat) (v : α) (r : Except CmdError α) : Prop :=
  (n ≤ st.limit ∧ r = .ok v) ∨ (st.limit < n ∧ r = .error (overrunError noIndex st.start))

theorem Reads.done {α : Type} {st : Stream} {n : Nat} (h : n ≤ st.limit) (v : α) : Reads st n v (.ok v) := .inl ⟨h, rfl⟩

/-- Reading on: what is read first ends at bit `m`. -/
theorem Reads.bind {α β : Type} {st : Stream} {m n : Nat} {u : α} {v : β} {r : Except CmdError α}
    {f : α → Except CmdError β} (hr : Reads st m u r) (hn : m ≤ n) (h : m ≤ st.limit → Reads st n v (f u)) :
    Reads st n v (r >>= f) := by
  rcases hr with ⟨hm, rfl⟩ | ⟨hm, rfl⟩
  · exact h hm
  · exact .inr ⟨by omega, rfl⟩

/-- Everything `take` can do. -/
theorem take_reads (st : Stream) (pos w : Nat) : Reads st (pos + w) (bitRead st.mem pos w, pos + w) (take st pos w) := by
  by_cases h : pos + w ≤ st.limit
  · exact .inl ⟨h, take_of_le h⟩
  · exact .inr ⟨not_le.1 h, take_of_gt (not_le.1 h)⟩

/-- Everything a run of one or more `take`s can do. -/
theorem takeMany_reads (st : Stream) (w n pos : Nat) : Reads st (pos + (n + 1) * w)
    ((List.range (n + 1)).map fun k => bitRead st.mem (pos + w * k) w, pos + (n + 1) * w)
    (takeMany st w (n + 1) pos) := by
  induction n generalizing pos with
  | zero =>
    refine (take_reads st pos w).bind (by omega) fun h => ?_
    simpa [takeMany] using Reads.done h _
  | succ n ih =>
    have hm : pos + (n + 1 + 1) * w = pos + w + (n + 1) * w := by rw [Nat.add_mul (n + 1) 1]; omega
    refine (take_reads st pos w).bind (by omega) fun _ => (ih (pos + w)).bind (by omega) fun h => ?_
    dsimp only
    rw [hm, List.range_succ_eq_map (n := n + 1), List.map_cons, List.map_map]
    have hk : ∀ k, pos + w + w * k = pos + w * (k + 1) := fun k => by rw [Nat.mul_add, Nat.mul_one]; omega
    simp only [hk, Nat.mul_zero, Nat.add_zero, Function.comp_def, Nat.succ_eq_add_one]
    exact .done h _

/-- `take` of a field that is there. -/
theorem take_field {st : Stream} {pos : Nat} {f : Field} {fs : List Field} (hf : fieldsAt st.mem pos (f :: fs))
    (h : pos + fieldsWidth (f :: fs) ≤ st.limit) : take st pos f.1 = .ok (f.2, pos + f.1) := by
  rw [fieldsWidth_cons] at h
  rw [take_of_le (by omega), hf.1]

/-- Repeated `take`s of equal-width fields that are there. -/
theorem takeMany_fields {st : Stream} {w : Nat} {vs : List Nat} {pos : Nat}
    (hf : fieldsAt st.mem pos (vs.map fun v => (w, v))) (h : pos + vs.length * w ≤ st.limit) :
    takeMany st w vs.length pos = .ok (vs, pos + vs.length * w) := by
  induction vs generalizing pos with
  | nil => simp [takeMany]
  | cons v vs ih =>
    simp only [List.length_cons, Nat.add_mul, Nat.one_mul] at h
    simp only [List.map_cons, fieldsAt_cons] at hf
    simp only [List.length_cons, takeMany, take_of_le (show pos + w ≤ st.limit by omega), hf.1, bind_ok,
      ih hf.2 (by omega), Nat.add_mul, Nat.one_mul]
    congr 2
    omega

/-- What a successful run of `take`s has read. -/
theorem takeMany_ok {st : Stream} {w n pos : Nat} {vs : List Nat} {pos' : Nat}
    (h : takeMany st w n pos = .ok (vs, pos')) :
    vs.length = n ∧ pos' = pos + n * w ∧ fieldsAt st.mem pos (vs.map fun v => (w, v)) := by
  induction n generalizing pos vs pos' with
  | zero =>
    cases h
    simp
  | succ n ih =>
    obtain ⟨⟨v, p⟩, ht, h⟩ := bind_eq_ok h
    obtain ⟨⟨us, q⟩, hm, h⟩ := bind_eq_ok h
    cases h
    obtain ⟨_, hr⟩ := take_ok ht
    cases hr
    obtain ⟨h1, h2, h3⟩ := ih hm
    refine ⟨by simp [h1], by rw [h2, Nat.add_mul, Nat.one_mul]; omega, ?_⟩
    simp only [List.map_cons, fieldsAt_cons]
    exact ⟨trivial, h3⟩

theorem takeMany_error {st : Stream} {w n pos : Nat} {e : CmdError} (h : takeMany st w n pos = .error e) :
    e = overrunError noIndex st.start := by
  induction n generalizing pos with
  | zero => cases h
  | succ n ih =>
    rcases bind_eq_error h with h | ⟨⟨v, p⟩, _, h⟩
    · exact take_error h
    · rcases bind_eq_error h with h | ⟨⟨us, q⟩, _, h⟩
      · exact ih h
      · cases h

/-! ### Errors -/

/-- R265, R266: what a command raises once its configuration checks have passed. -/
structure DataError (e : CmdError) : Prop where
  kind : e.kind ≠ .configInvalid
  /-- R263 -/
  field : errFieldLegal e.field

theorem DataError.overrun (ix : BitVec 24) (start : Word) : DataError (overrunError ix start) :=
  ⟨by simp [overrunError], by simp [overrunError, errFieldLegal]⟩

theorem DataError.range {f : BitVec 8} (hf : errFieldLegal f) (ix : BitVec 24) (info : Word) :
    DataError (rangeError f ix info) := ⟨by simp [rangeError], hf⟩

theorem DataError.illegal (w : Word) : DataError (illegalError w) :=
  ⟨by simp [illegalError], by simp [illegalError, noField, errFieldLegal]⟩

theorem DataError.badWidth (w : Nat) : DataError (badWidthError w) :=
  ⟨by simp [badWidthError], by simp [badWidthError, noField, errFieldLegal]⟩

theorem DataError.of {e : CmdError} {k : ErrKind} {f : BitVec 8} (h : e.kind = k ∧ e.field = f) (hk : k ≠ .configInvalid)
    (hf : errFieldLegal f) : DataError e := ⟨h.1 ▸ hk, h.2 ▸ hf⟩

theorem DataError.of_take {st : Stream} {pos w : Nat} {e : CmdError} (h : take st pos w = .error e) : DataError e :=
  take_error h ▸ .overrun _ _

theorem DataError.of_takeMany {st : Stream} {w n pos : Nat} {e : CmdError} (h : takeMany st w n pos = .error e) :
    DataError e := takeMany_error h ▸ .overrun _ _

/-! ### RES registers -/

theorem writeResFrom_getD (r : Vector Word 8) (i : Nat) (zs : List Int) (j : Nat) :
    (writeResFrom r i zs).getD j 0#64 =
      if i ≤ j ∧ j < i + zs.length ∧ j < 8 then wrap64 (zs.getD (j - i) 0) else r.getD j 0#64 := by
  induction zs generalizing r i with
  | nil =>
    rw [if_neg (by simp; omega)]
    rfl
  | cons z zs ih =>
    rw [writeResFrom, ih]
    by_cases hj : i + 1 ≤ j ∧ j < i + 1 + zs.length ∧ j < 8
    · rw [if_pos hj, if_pos (by simp only [List.length_cons]; omega), show j - i = (j - (i + 1)) + 1 by omega]
      simp
    · rw [if_neg hj]
      by_cases hij : i = j
      · subst hij
        by_cases h8 : i < 8
        · rw [if_pos (by simp only [List.length_cons]; omega)]
          simp [Vector.getD, h8]
        · rw [if_neg (by omega)]
          simp [Vector.getD, h8]
      · rw [if_neg (by simp only [List.length_cons]; omega)]
        by_cases h8 : j < 8 <;> simp [Vector.getD, h8, hij]

/-- R27: a command's RES writes, register by register. -/
theorem resWord_writeRes (s : State) (zs : List Int) (j : Nat) :
    (s.writeRes zs).resWord j = if j < zs.length ∧ j < 8 then wrap64 (zs.getD j 0) else s.resWord j := by
  simp [State.resWord, writeResFrom_getD]

/-! ### The state after a successful command, by the memories it writes

Each says that only what it names has changed: what is on the right is the old state. -/

/-- A command that writes RES only. -/
theorem frame_res {s t : State} {zs : List Int} (h : t = (s.writeRes zs).succeed) :
    t = { s with res := t.res, inflight := none, done := true, err := false, code := 0#8 } := by
  subst h
  rfl

/-- A command that writes BITBUF and RES. -/
theorem frame_bitbuf {s t : State} {m : Memory 8} {zs : List Int}
    (h : t = ({ s with bitbuf := m }.writeRes zs).succeed) :
    t = { s with bitbuf := t.bitbuf, res := t.res, inflight := none, done := true, err := false, code := 0#8 } ∧
      t.bitbuf = m := by
  subst h
  exact ⟨rfl, rfl⟩

/-- A command that writes SMP and RES. -/
theorem frame_smpMem {s t : State} {m : Memory 16} {zs : List Int}
    (h : t = ({ s with smpMem := m }.writeRes zs).succeed) :
    t = { s with smpMem := t.smpMem, res := t.res, inflight := none, done := true, err := false, code := 0#8 } ∧
      t.smpMem = m := by
  subst h
  exact ⟨rfl, rfl⟩

/-- A command that writes REC and RES. -/
theorem frame_recMem {s t : State} {m : Memory 64} {zs : List Int}
    (h : t = ({ s with recMem := m }.writeRes zs).succeed) :
    t = { s with recMem := t.recMem, res := t.res, inflight := none, done := true, err := false, code := 0#8 } ∧
      t.recMem = m := by
  subst h
  exact ⟨rfl, rfl⟩

/-- A command that writes BITBUF, the bounds and RES. -/
theorem frame_bitbuf_bounds {s t : State} {m : Memory 8} {b : Bounds} {zs : List Int}
    (h : t = ({ s with bitbuf := m, bounds := b }.writeRes zs).succeed) :
    t = { s with bitbuf := t.bitbuf, bounds := b, res := t.res, inflight := none, done := true, err := false, code := 0#8 } ∧
      t.bitbuf = m := by
  subst h
  exact ⟨rfl, rfl⟩

/-- A command that writes the waveform registers, SMP and RES. -/
theorem frame_waveform {s t : State} {ts scan : Word} {pr : Vector (BitVec 14) 9} {m : Memory 16} {zs : List Int}
    (h : t = ({ s with wfTimestamp := ts, wfScan := scan, presence := pr, smpMem := m }.writeRes zs).succeed) :
    t = { s with
      presence := pr, wfTimestamp := ts, wfScan := scan, smpMem := t.smpMem, res := t.res
      inflight := none, done := true, err := false, code := 0#8 } ∧ t.smpMem = m := by
  subst h
  exact ⟨rfl, rfl⟩

/-! ### Configuration checks -/

theorem requireSizeBits_ok {bits addr : Nat} {u : Unit} (h : requireSizeBits bits addr = .ok u) :
    1 ≤ bits ∧ bits ≤ 64 := require_ok h

/-- R265: the field-width checks pass exactly when every listed width is at most 64. -/
theorem requireFieldBits_ok_iff (s : State) (ks : List Nat) :
    requireFieldBits s ks = .ok () ↔ ∀ k ∈ ks, s.fieldBits k ≤ 64 := by
  induction ks with
  | nil => simp [requireFieldBits]
  | cons k ks ih =>
    rw [requireFieldBits]
    by_cases h : s.fieldBits k ≤ 64
    · rw [require_of h, bind_ok, ih]
      simp [h]
    · rw [require_of_not h, bind_error]
      simp [h]

theorem requireFieldBits_error {s : State} {ks : List Nat} {e : CmdError} (h : requireFieldBits s ks = .error e) :
    ∃ addr, e = configError addr := by
  induction ks with
  | nil => cases h
  | cons k ks ih =>
    rcases bind_eq_error h with h | ⟨_, _, h⟩
    · exact ⟨_, (require_error h).2⟩
    · exact ih h

/-! ### The end of a command -/

/-- R260: a command ends in success with its writes, or in an abort of the state it started from. -/
theorem runCommand_cases {i : Instr} {s t : State} {r : Except CmdError State} (h : runCommand i s r = .next t) :
    (∃ u, r = .ok u ∧ t = u.succeed) ∨ (∃ e, r = .error e ∧ t = s.abort (encode i) e) := by
  unfold runCommand at h
  cases r with
  | ok u => exact .inl ⟨u, rfl, by cases h; rfl⟩
  | error e => exact .inr ⟨e, rfl, by cases h; rfl⟩

theorem runCommand_ok (i : Instr) (s u : State) : runCommand i s (.ok u) = .next u.succeed := rfl

theorem runCommand_error (i : Instr) (s : State) (e : CmdError) :
    runCommand i s (.error e) = .next (s.abort (encode i) e) := rfl

theorem runCommand_of_ok {i : Instr} {s u : State} {r : Except CmdError State} (h : r = .ok u) :
    runCommand i s r = .next u.succeed := by rw [h, runCommand_ok]

theorem runCommand_of_error {i : Instr} {s : State} {r : Except CmdError State} {e : CmdError} (h : r = .error e) :
    runCommand i s r = .next (s.abort (encode i) e) := by rw [h, runCommand_error]

/-- STATUS.ERR tells the two ends apart. -/
theorem runCommand_err_false {i : Instr} {s t : State} {r : Except CmdError State} (h : runCommand i s r = .next t)
    (he : t.err = false) : ∃ u, r = .ok u ∧ t = u.succeed := by
  rcases runCommand_cases h with hs | ⟨e, _, rfl⟩
  · exact hs
  · simp at he

theorem runCommand_err_true {i : Instr} {s t : State} {r : Except CmdError State} (h : runCommand i s r = .next t)
    (he : t.err = true) : ∃ e, r = .error e ∧ t = s.abort (encode i) e := by
  rcases runCommand_cases h with ⟨u, _, rfl⟩ | hs
  · simp at he
  · exact hs

end Sys2Proof.Machine
end

