-- ==== Sys2Proof/Laws/BitPack.lean ====
section
/-! SUPPORT. What the bit packers can do (R121 to R125), and the RES registers after a successful command (R27). -/

namespace Sys2Proof.Machine

/-! ### RES registers after a command -/

theorem wrap64_natCast (n : Nat) : wrap64 (n : Int) = BitVec.ofNat 64 n := by
  simp [wrap64]

/-- R27: after the writes of a successful command, the listed RES registers hold `wrap64` of the listed values and
the others are as they were in any state with the same RES. -/
theorem resAre_writeRes (s u : State) (zs : List Int) (hu : u.res = s.res) :
    resAre s (u.writeRes zs).succeed (zs.map wrap64) := by
  intro j hj
  have h0 : (u.writeRes zs).succeed.resWord j = (u.writeRes zs).resWord j := rfl
  have h1 : u.resWord j = s.resWord j := by simp [State.resWord, hu]
  rw [h0, resWord_writeRes, h1]
  by_cases h : j < zs.length
  · simp [h, hj, List.getD_eq_getElem?_getD]
  · simp [h, List.getD_eq_getElem?_getD]

/-- The same for a register number. -/
theorem resWord_of_writeRes (s : State) (zs : List Int) (j : Nat) (hj : j < zs.length) (h8 : zs.length ≤ 8) :
    (s.writeRes zs).succeed.resWord j = wrap64 (zs.getD j 0) := by
  have h0 : (s.writeRes zs).succeed.resWord j = (s.writeRes zs).resWord j := rfl
  rw [h0, resWord_writeRes, if_pos ⟨hj, by omega⟩]

/-! ### Packers and unpackers -/

/-- R121, R123, R125, everything a packer can do. -/
theorem packBits_eq (max w v : Nat) (s : State) : packBits max w v s =
    if max < w then .error (badWidthError w)
    else if s.streamBits < s.argU 0 + w then .error (overrunError noIndex (s.argWord 0))
    else .ok ({ s with bitbuf := bitWrite s.bitbuf (s.argU 0) w v }.writeRes [((s.argU 0 + w : Nat) : Int)]) := by
  unfold packBits
  dsimp only
  by_cases h : w ≤ max
  · rw [require_of h, if_neg (by omega), bind_ok]
    by_cases h2 : s.argU 0 + w ≤ s.streamBits
    · rw [require_of h2, if_neg (by omega), bind_ok]
    · rw [require_of_not h2, if_pos (by omega), bind_error]
  · rw [require_of_not h, if_pos (by omega), bind_error]

/-- R122, R124, R125, everything an unpacker can do. -/
theorem unpackBits_eq (max w : Nat) (s : State) : unpackBits max w s =
    if max < w then .error (badWidthError w)
    else if s.streamBits < s.argU 0 + w then .error (overrunError noIndex (s.argWord 0))
    else .ok (s.writeRes [(bitRead s.bitbuf (s.argU 0) w : Int), ((s.argU 0 + w : Nat) : Int)]) := by
  unfold unpackBits
  dsimp only
  by_cases h : w ≤ max
  · rw [require_of h, if_neg (by omega), bind_ok]
    by_cases h2 : s.argU 0 + w ≤ s.streamBits
    · rw [require_of h2, if_neg (by omega), bind_ok]
    · rw [require_of_not h2, if_pos (by omega), bind_error]
  · rw [require_of_not h, if_pos (by omega), bind_error]

theorem packBits_ok {max w v : Nat} {s t : State} (h : packBits max w v s = .ok t) :
    w ≤ max ∧ s.argU 0 + w ≤ s.streamBits ∧
      t = { s with bitbuf := bitWrite s.bitbuf (s.argU 0) w v }.writeRes [((s.argU 0 + w : Nat) : Int)] := by
  rw [packBits_eq] at h
  split at h
  · cases h
  · split at h
    · cases h
    · exact ⟨by omega, by omega, by cases h; rfl⟩

theorem unpackBits_ok {max w : Nat} {s t : State} (h : unpackBits max w s = .ok t) :
    w ≤ max ∧ s.argU 0 + w ≤ s.streamBits ∧
      t = s.writeRes [(bitRead s.bitbuf (s.argU 0) w : Int), ((s.argU 0 + w : Nat) : Int)] := by
  rw [unpackBits_eq] at h
  split at h
  · cases h
  · split at h
    · cases h
    · exact ⟨by omega, by omega, by cases h; rfl⟩

end Sys2Proof.Machine
end

