-- ==== Sys2Proof/Laws/Decode.lean ====
section
/-! SUPPORT. What the decoder can answer on a command word (R90 to R94), and the value of an encoded word. -/

namespace Sys2Proof

open Sys2Proof.Machine

/-- R91: the reserved bits from `n` up are 0 exactly when the word is below 2^n. -/
theorem reservedClear_iff (w : Word) (n : Nat) : reservedClear w n ↔ w.toNat < 2 ^ n := by
  unfold reservedClear
  rw [← BitVec.toNat_inj]
  simp only [BitVec.toNat_ushiftRight, BitVec.toNat_ofNat, Nat.shiftRight_eq_div_pow, Nat.zero_mod]
  rw [Nat.div_eq_zero_iff]
  have : 0 < 2 ^ n := Nat.two_pow_pos n
  omega

theorem cmdOp_toNat (w : Word) : (cmdOp w).toNat = w.toNat % 256 := by
  simp [cmdOp]
theorem cmdWidth_toNat (w : Word) : (cmdWidth w).toNat = w.toNat / 256 % 128 := by
  simp [cmdWidth, Nat.shiftRight_eq_div_pow]
theorem cmdChannel_toNat (w : Word) : (cmdChannel w).toNat = w.toNat / 256 % 16 := by
  simp [cmdChannel, Nat.shiftRight_eq_div_pow]
theorem cmdPacket_toNat (w : Word) : (cmdPacket w).toNat = w.toNat / 4096 % 16 := by
  simp [cmdPacket, Nat.shiftRight_eq_div_pow]
theorem cmdFlag_toNat (w : Word) : (cmdFlag w).toNat = w.toNat / 256 % 2 := by
  simp [cmdFlag, Nat.shiftRight_eq_div_pow]

theorem encode_toNat (i : Instr) : (encode i).toNat = (operandByte i).toNat * 256 + (opcode i).toNat := by
  have h1 := (operandByte i).isLt
  have h2 := (opcode i).isLt
  simp only [encode, BitVec.toNat_append, BitVec.toNat_ofNat]
  rw [← Nat.shiftLeft_add_eq_or_of_lt h2, ← Nat.shiftLeft_add_eq_or_of_lt (by rw [Nat.shiftLeft_eq]; omega)]
  simp [Nat.shiftLeft_eq]

/-- The operand bytes of formats W, V and P as numbers. -/
theorem toNat_byteW (w : BitVec 7) : (0#1 ++ w).toNat = w.toNat := by revert w; decide +kernel
theorem toNat_byteV (w : BitVec 1) : (0#7 ++ w).toNat = w.toNat := by revert w; decide +kernel
theorem toNat_byteP (p c : BitVec 4) : (p ++ c).toNat = p.toNat * 16 + c.toNat := by
  rw [BitVec.toNat_append, ← Nat.shiftLeft_add_eq_or_of_lt c.isLt, Nat.shiftLeft_eq]

/-- What a decoder may answer on a word. -/
def DecodeSpec (w : Word) (r : Except DecodeError Instr) : Prop :=
  (∃ i, r = .ok i ∧ i.wellFormed = true ∧ encode i = w ∧ legalWord w) ∨ (∃ e, r = .error e) ∧ ¬ legalWord w

/-- R90 to R94, everything the decoder can answer: the well-formed command whose word this is, or a refusal of an
illegal word. -/
theorem decode_cases (w : Word) : DecodeSpec w (decode w) := by
  have hop : (cmdOp w).toNat < 256 := (cmdOp w).isLt
  have fN : ∀ i : Instr, operandByte i = 0#8 → opcode i = cmdOp w → i.wellFormed = true →
      w.toNat % 256 ∈ [0x00, 0x10, 0x11, 0x12, 0x13, 0x14, 0x22, 0x23, 0x30, 0x31, 0x32, 0x41] →
      DecodeSpec w (formatN w i) := by
    intro i h1 h2 h3 hm
    have h4 := congrArg BitVec.toNat h2
    rw [cmdOp_toNat] at h4
    unfold formatN
    by_cases h : reservedClear w 8
    · left
      refine ⟨i, by rw [if_pos h], h3, ?_, ?_⟩
      · apply BitVec.eq_of_toNat_eq
        rw [encode_toNat, h1, h4]; have := (reservedClear_iff w 8).1 h; simp; omega
      · exact .inl ⟨(reservedClear_iff w 8).1 h, hm⟩
    · right
      refine ⟨⟨_, by rw [if_neg h]⟩, ?_⟩
      have := (reservedClear_iff w 8).not.1 h
      unfold legalWord
      simp only [List.mem_cons, List.not_mem_nil, or_false] at hm ⊢
      omega
  have fW : ∀ i : BitVec 7 → Instr, (∀ x, operandByte (i x) = 0#1 ++ x) → (∀ x, opcode (i x) = cmdOp w) → (∀ x, (i x).wellFormed = true) →
      w.toNat % 256 ∈ [1,2,3,4] →
      DecodeSpec w (formatW w i) := by
    intro i h1 h2 h3 hm
    have h4 := congrArg BitVec.toNat (h2 (cmdWidth w))
    rw [cmdOp_toNat] at h4
    unfold formatW
    by_cases h : reservedClear w 15
    · left
      refine ⟨i (cmdWidth w), by rw [if_pos h], h3 _, ?_, ?_⟩
      · apply BitVec.eq_of_toNat_eq
        rw [encode_toNat, h1, h4]; have := (reservedClear_iff w 15).1 h; rw [toNat_byteW, cmdWidth_toNat]; omega
      · exact .inr (.inl ⟨(reservedClear_iff w 15).1 h, hm⟩)
    · right
      refine ⟨⟨_, by rw [if_neg h]⟩, ?_⟩
      have := (reservedClear_iff w 15).not.1 h
      unfold legalWord
      simp only [List.mem_cons, List.not_mem_nil, or_false] at hm ⊢
      omega
  have fV : ∀ i : BitVec 1 → Instr, (∀ x, operandByte (i x) = 0#7 ++ x) → (∀ x, opcode (i x) = cmdOp w) → (∀ x, (i x).wellFormed = true) →
      w.toNat % 256 = 0x40 →
      DecodeSpec w (formatV w i) := by
    intro i h1 h2 h3 hm
    have h4 := congrArg BitVec.toNat (h2 (cmdFlag w))
    rw [cmdOp_toNat] at h4
    unfold formatV
    by_cases h : reservedClear w 9
    · left
      refine ⟨i (cmdFlag w), by rw [if_pos h], h3 _, ?_, ?_⟩
      · apply BitVec.eq_of_toNat_eq
        rw [encode_toNat, h1, h4]; have := (reservedClear_iff w 9).1 h; rw [toNat_byteV, cmdFlag_toNat]; omega
      · exact .inr (.inr (.inr ⟨(reservedClear_iff w 9).1 h, hm⟩))
    · right
      refine ⟨⟨_, by rw [if_neg h]⟩, ?_⟩
      have := (reservedClear_iff w 9).not.1 h
      unfold legalWord
      simp only [List.mem_cons, List.not_mem_nil, or_false] at hm ⊢
      omega
  have fP : ∀ i : BitVec 4 → BitVec 4 → Instr, (∀ c p, operandByte (i c p) = p ++ c) → (∀ c p, opcode (i c p) = cmdOp w) → (∀ c p, (i c p).wellFormed = (decide (channelOk c) && decide (packetOk p))) →
      w.toNat % 256 ∈ [0x20, 0x21] →
      DecodeSpec w (formatP w i) := by
    intro i h1 h2 h3 hm
    have h4 := congrArg BitVec.toNat (h2 (cmdChannel w) (cmdPacket w))
    rw [cmdOp_toNat] at h4
    unfold formatP
    by_cases h : reservedClear w 16
    · have hw := (reservedClear_iff w 16).1 h
      rw [if_neg (not_not.2 h)]
      by_cases hc : channelOk (cmdChannel w)
      · rw [if_neg (not_not.2 hc)]
        by_cases hp : packetOk (cmdPacket w)
        · left
          rw [if_neg (not_not.2 hp)]
          refine ⟨_, rfl, by simp [h3, hc, hp], ?_, ?_⟩
          · apply BitVec.eq_of_toNat_eq
            rw [encode_toNat, h1, h4]; rw [toNat_byteP, cmdChannel_toNat, cmdPacket_toNat]; omega
          · refine .inr (.inr (.inl ⟨hw, hm, ?_, ?_⟩))
            · have := hc; unfold channelOk at this; rw [cmdChannel_toNat] at this; simp [Config.nch] at this; omega
            · have := hp; unfold packetOk at this; rw [cmdPacket_toNat] at this; simp [Config.maxp] at this; omega
        · right
          rw [if_pos hp]
          refine ⟨⟨_, rfl⟩, ?_⟩
          have := hp; unfold packetOk at this; rw [cmdPacket_toNat] at this; simp only [Config.maxp] at this
          unfold legalWord
          simp only [List.mem_cons, List.not_mem_nil, or_false] at hm ⊢
          omega
      · right
        rw [if_pos hc]
        refine ⟨⟨_, rfl⟩, ?_⟩
        have := hc; unfold channelOk at this; rw [cmdChannel_toNat] at this; simp only [Config.nch] at this
        unfold legalWord
        simp only [List.mem_cons, List.not_mem_nil, or_false] at hm ⊢
        omega
    · right
      rw [if_pos h]
      refine ⟨⟨_, rfl⟩, ?_⟩
      have := (reservedClear_iff w 16).not.1 h
      unfold legalWord
      simp only [List.mem_cons, List.not_mem_nil, or_false] at hm ⊢
      omega
  have hk : ∀ k : Nat, (cmdOp w).toNat = k → k < 256 → BitVec.ofNat 8 k = cmdOp w := by
    intro k h hl; apply BitVec.eq_of_toNat_eq; rw [h]; simp; omega
  have hm : (cmdOp w).toNat = w.toNat % 256 := cmdOp_toNat w
  unfold decode
  split
  case h_20 =>
    right
    refine ⟨⟨_, rfl⟩, ?_⟩
    unfold legalWord
    simp only [List.mem_cons, List.not_mem_nil, or_false]
    have hne : ∀ k, ((cmdOp w).toNat = k → False) → w.toNat % 256 ≠ k := fun k h e => h (hm.trans e)
    rename_i h0 h1 h2 h3 h4 h5 h6 h7 h8 h9 h10 h11 h12 h13 h14 h15 h16 h17 h18
    have h0 := hne _ h0; have h1 := hne _ h1; have h2 := hne _ h2; have h3 := hne _ h3; have h4 := hne _ h4
    have h5 := hne _ h5; have h6 := hne _ h6; have h7 := hne _ h7; have h8 := hne _ h8; have h9 := hne _ h9
    have h10 := hne _ h10; have h11 := hne _ h11; have h12 := hne _ h12; have h13 := hne _ h13
    have h14 := hne _ h14; have h15 := hne _ h15; have h16 := hne _ h16; have h17 := hne _ h17
    have h18 := hne _ h18
    omega
  all_goals (rename_i hh; rw [hm] at hh)
  case h_2 | h_3 | h_4 | h_5 => exact fW _ (fun _ => rfl) (fun _ => hk _ (by omega) (by omega)) (fun _ => rfl) (by simp [hh])
  case h_11 | h_12 => exact fP _ (fun _ _ => rfl) (fun _ _ => hk _ (by omega) (by omega)) (fun _ _ => rfl) (by simp [hh])
  case h_18 => exact fV _ (fun _ => rfl) (fun _ => hk _ (by omega) (by omega)) (fun _ => rfl) (by simp [hh])
  all_goals exact fN _ rfl (hk _ (by omega) (by omega)) rfl (by simp [hh])

end Sys2Proof
end

