-- ==== Sys2Proof/Laws/Geodetic.lean ====
section
/-! SUPPORT. What the shared geodetic functions can do (R141 to R147): the configuration checks, the modes, and that
each decoder inverts its encoder. -/

namespace Sys2Proof.Machine

theorem scale_lt (s : State) : s.scale < 2 ^ 32 := s.posScale.isLt

/-- R141, everything `GeoCfg` can do. -/
theorem geoCfg_eq (needB : Bool) (s : State) : geoCfg needB s =
    if s.scale = 0 then .error (configError 0x100)
    else if needB = true ∧ ¬ s.lonBaseLegal then .error (configError 0x108) else .ok () := by
  unfold geoCfg
  have hs := scale_lt s
  by_cases h : s.scale = 0
  · rw [require_of_not (by omega), if_pos h, bind_error]
  · rw [require_of (by omega), if_neg h, bind_ok]
    by_cases h2 : needB = true ∧ ¬ s.lonBaseLegal
    · rw [require_of_not (fun hp => h2.2 (hp h2.1)), if_pos h2]
    · rw [require_of (fun hp => by_contra fun hc => h2 ⟨hp, hc⟩), if_neg h2]

theorem geoCfg_ok_iff (needB : Bool) (s : State) :
    geoCfg needB s = .ok () ↔ s.scaleLegal ∧ (needB = true → s.lonBaseLegal) := by
  rw [geoCfg_eq]
  unfold State.scaleLegal
  split
  · simp; omega
  · split
    · simp_all
    · rename_i h1 h2
      simp only [true_iff]
      exact ⟨by omega, fun hp => by_contra fun hc => h2 ⟨hp, hc⟩⟩

theorem geoCfg_error {needB : Bool} {s : State} {e : CmdError} (h : geoCfg needB s = .error e) :
    ∃ addr, e = configError addr := by
  rcases bind_eq_error h with h | ⟨_, _, h⟩ <;> exact ⟨_, (require_error h).2⟩

/-- R29: the greatest position width. -/
theorem wPos_le {S : Nat} (h : S < 2 ^ 32) : wPos S ≤ 41 := (bitsNeeded_le_iff _ _).2 (by omega)

/-! ### Modes (R145) -/

/-- A record of full resolution uses W_POS bits. -/
theorem lonMode_full_width {S B : Nat} {plat : Int} (h : (lonMode S B plat).full = true) :
    (lonMode S B plat).width = wPos S := by
  unfold lonMode at *
  dsimp only at *
  split <;> simp_all
  split <;> simp_all
  split <;> simp_all
  split <;> simp_all

/-- A delta uses between B and B + 3 bits. -/
theorem lonMode_delta_width {S B : Nat} {plat : Int} (h : (lonMode S B plat).full = false) :
    B ≤ (lonMode S B plat).width ∧ (lonMode S B plat).width ≤ B + 3 := by
  unfold lonMode at *
  dsimp only at *
  split <;> simp_all
  split <;> simp_all
  split <;> simp_all
  split <;> simp_all

theorem lonMode_width_pos {S B : Nat} (hS : 1 ≤ S) (hB : 1 ≤ B) (plat : Int) : 1 ≤ (lonMode S B plat).width := by
  cases h : (lonMode S B plat).full with
  | true => rw [lonMode_full_width h]; exact wPos_pos hS
  | false => have := lonMode_delta_width h; omega

theorem lonMode_width_le {S B : Nat} (hS : S < 2 ^ 32) (hB : B ≤ 61) (plat : Int) : (lonMode S B plat).width ≤ 64 := by
  cases h : (lonMode S B plat).full with
  | true => rw [lonMode_full_width h]; have := wPos_le hS; omega
  | false => have := lonMode_delta_width h; omega

/-! ### Encoders and decoders -/

/-- R142: a latitude that fits is packed as its offset value. -/
theorem latEnc_of_fits {S : Nat} {lat : Int} (h : latFits S lat) (fid : BitVec 8) (ix : BitVec 24) :
    latEnc S lat fid ix = .ok (lat + 90 * S).toNat := packUnsigned_of_fits h.1 h.2 _

theorem latEnc_of_not_fits {S : Nat} {lat : Int} (h : ¬ latFits S lat) (fid : BitVec 8) (ix : BitVec 24) :
    latEnc S lat fid ix = .error (rangeError fid ix (wrap64 lat)) := packUnsigned_of_not_fits h _

/-- R142: the decoder inverts the encoder. -/
theorem latDec_latEnc {S p : Nat} {lat : Int} {fid : BitVec 8} {ix : BitVec 24} (h : latEnc S lat fid ix = .ok p) :
    latDec S p = lat ∧ p < 2 ^ wPos S := by
  obtain ⟨h1, h2⟩ := packUnsigned_ok h
  exact ⟨by unfold latDec; omega, h2⟩

theorem lonFullEnc_of_fits {S : Nat} {lon : Int} (h : lonFullFits S lon) (fid : BitVec 8) (ix : BitVec 24) :
    lonFullEnc S lon fid ix = .ok (lon + 180 * S).toNat := packUnsigned_of_fits h.1 h.2 _

theorem lonFullEnc_of_not_fits {S : Nat} {lon : Int} (h : ¬ lonFullFits S lon) (fid : BitVec 8) (ix : BitVec 24) :
    lonFullEnc S lon fid ix = .error (rangeError fid ix (wrap64 lon)) := packUnsigned_of_not_fits h _

/-- R144: the decoder inverts the encoder. -/
theorem lonFullDec_lonFullEnc {S p : Nat} {lon : Int} {fid : BitVec 8} {ix : BitVec 24}
    (h : lonFullEnc S lon fid ix = .ok p) : lonFullDec S p = lon ∧ p < 2 ^ wPos S := by
  obtain ⟨h1, h2⟩ := packUnsigned_ok h
  exact ⟨by unfold lonFullDec; omega, h2⟩

theorem deltaHalf_eq (w : Nat) : deltaHalf w = 2 ^ (w - 1) := by simp [deltaHalf]

theorem two_pow_pred {w : Nat} (hw : 1 ≤ w) : (2 : Int) ^ w = 2 * 2 ^ (w - 1) := by
  obtain ⟨k, rfl⟩ := Nat.exists_eq_add_of_le hw
  rw [Nat.add_sub_cancel_left, Nat.add_comm, pow_succ]
  ring

/-- R146: "the representable differences" are those whose offset value fits the width. -/
theorem lonDeltaFits_iff {w : Nat} (hw : 1 ≤ w) (val ref : Int) :
    lonDeltaFits w val ref ↔ 0 ≤ (ref - val) + deltaHalf w ∧ (ref - val) + deltaHalf w < 2 ^ w := by
  rw [deltaHalf_eq, two_pow_pred hw]
  unfold lonDeltaFits
  constructor <;> intro h <;> constructor <;> linarith [h.1, h.2]

/-- R147: the value a longitude is packed as. -/
theorem lonEnc_of_fits {S B : Nat} {val ref plat : Int} (hw : 1 ≤ (lonMode S B plat).width)
    (h : lonFits S B val ref plat) (fid : BitVec 8) (ix : BitVec 24) :
    lonEnc S B val ref plat fid ix = .ok (if (lonMode S B plat).full then val + 180 * S
      else (ref - val) + 2 ^ ((lonMode S B plat).width - 1)).toNat := by
  unfold lonEnc lonFits at *
  dsimp only
  split
  · rw [if_pos ‹_›] at h
    exact lonFullEnc_of_fits h fid ix
  · rw [if_neg ‹_›] at h
    rw [← deltaHalf_eq]
    have := (lonDeltaFits_iff hw _ _).1 h
    exact packUnsigned_of_fits this.1 this.2 _

theorem lonEnc_of_not_fits {S B : Nat} {val ref plat : Int} (hw : 1 ≤ (lonMode S B plat).width)
    (h : ¬ lonFits S B val ref plat) (fid : BitVec 8) (ix : BitVec 24) :
    lonEnc S B val ref plat fid ix = .error (rangeError fid ix (wrap64 val)) := by
  unfold lonEnc lonFits at *
  dsimp only
  split
  · rw [if_pos ‹_›] at h
    exact lonFullEnc_of_not_fits h fid ix
  · rw [if_neg ‹_›] at h
    exact packUnsigned_of_not_fits (fun hp => h ((lonDeltaFits_iff hw _ _).2 hp)) _

/-- R147: the decoder inverts the encoder, in both modes. -/
theorem lonDec_lonEnc {S B p : Nat} {val ref plat : Int} {fid : BitVec 8} {ix : BitVec 24}
    (h : lonEnc S B val ref plat fid ix = .ok p) :
    lonDec S B p ref plat = val ∧ p < 2 ^ (lonMode S B plat).width := by
  unfold lonEnc at h
  unfold lonDec
  dsimp only at h ⊢
  split at h
  · rw [if_pos ‹_›, lonMode_full_width ‹_›]
    exact lonFullDec_lonFullEnc h
  · rw [if_neg ‹_›]
    obtain ⟨h1, h2⟩ := packUnsigned_ok h
    exact ⟨by unfold lonDeltaDec; omega, h2⟩

theorem latEnc_error {S : Nat} {lat : Int} {fid : BitVec 8} {ix : BitVec 24} {e : CmdError}
    (h : latEnc S lat fid ix = .error e) : e = rangeError fid ix (wrap64 lat) := packUnsigned_error h

theorem lonFullEnc_error {S : Nat} {lon : Int} {fid : BitVec 8} {ix : BitVec 24} {e : CmdError}
    (h : lonFullEnc S lon fid ix = .error e) : e = rangeError fid ix (wrap64 lon) := packUnsigned_error h

theorem lonEnc_error {S B : Nat} {val ref plat : Int} {fid : BitVec 8} {ix : BitVec 24} {e : CmdError}
    (h : lonEnc S B val ref plat fid ix = .error e) : e = rangeError fid ix (wrap64 val) := by
  unfold lonEnc at h
  dsimp only at h
  split at h <;> exact packUnsigned_error h

end Sys2Proof.Machine
end

