-- ==== Sys2Proof/Laws/Scalar.lean ====
section
/-! SUPPORT. What packing a scalar field (R222, R223) and writing a finished record (R205, R221) can do. -/

namespace Sys2Proof.Machine

/-! ### Scalar fields -/

theorem scalarEnc_of_fits {s : State} {k : Nat} {w : Word} (h : s.scalarFits k w) (ix : BitVec 24) :
    scalarEnc s k w ix = .ok (scalarValue k w + s.fieldOffset k).toNat := packUnsigned_of_fits h.1 h.2 _

theorem scalarEnc_of_not_fits {s : State} {k : Nat} {w : Word} (h : ¬ s.scalarFits k w) (ix : BitVec 24) :
    scalarEnc s k w ix = .error (rangeError (BitVec.ofNat 8 k) ix w) := packUnsigned_of_not_fits h _

/-- R222: a word is `wrap64` of its field value, signed or not. -/
@[simp] theorem wrap64_scalarValue (k : Nat) (w : Word) : wrap64 (scalarValue k w) = w := by
  unfold scalarValue
  split <;> simp

/-- R223: the decoder inverts the encoder. -/
theorem scalarEnc_ok {s : State} {k p : Nat} {w : Word} {ix : BitVec 24} (h : scalarEnc s k w ix = .ok p) :
    s.scalarFits k w ∧ p = (scalarValue k w + s.fieldOffset k).toNat ∧ p < 2 ^ s.fieldBits k ∧ scalarDec s k p = w := by
  obtain ⟨h1, h2⟩ := packUnsigned_ok h
  refine ⟨⟨by omega, by zify at h2; omega⟩, by omega, h2, ?_⟩
  unfold scalarDec
  rw [show (p : Int) - s.fieldOffset k = scalarValue k w by omega, wrap64_scalarValue]

theorem scalarEnc_error {s : State} {k : Nat} {w : Word} {ix : BitVec 24} {e : CmdError}
    (h : scalarEnc s k w ix = .error e) : e = rangeError (BitVec.ofNat 8 k) ix w := packUnsigned_error h

theorem scalarDec_congr {s u : State} (h : s.foff = u.foff) (k p : Nat) : scalarDec u k p = scalarDec s k p := by
  simp only [scalarDec, State.fieldOffset, h]

/-! ### Records -/

theorem fieldsWidth_recordFields (bits : Nat) (out : List Field) :
    fieldsWidth (recordFields bits out) = 8 * recordSize bits out := by
  have := le_eight_mul_ceil8 (recordBits bits out)
  simp only [recordFields, fieldsWidth_cons, fieldsWidth_append, fieldsWidth_nil]
  unfold recordSize recordBits at *
  omega

theorem recordFields_fit {bits : Nat} {out : List Field} (hs : recordSize bits out < 2 ^ bits)
    (h : ∀ f ∈ out, f.2 < 2 ^ f.1) : ∀ f ∈ recordFields bits out, f.2 < 2 ^ f.1 := by
  intro f hf
  simp only [recordFields, List.mem_cons, List.mem_append, List.not_mem_nil, or_false] at hf
  rcases hf with rfl | hf | rfl
  · exact hs
  · exact h f hf
  · exact Nat.two_pow_pos _

/-- R206, R230, everything writing a record can do. -/
theorem writeRecord_eq (s : State) (bits : Nat) (fid : BitVec 8) (out : List Field) : writeRecord s bits fid out =
    if ¬ recordSize bits out < 2 ^ bits then
      .error (rangeError fid noIndex (BitVec.ofNat 64 (recordSize bits out)))
    else if ¬ s.argU 0 + recordSize bits out ≤ s.bitbufBytes then .error (overrunError noIndex (s.argWord 0))
    else .ok { s with bitbuf := writeFields s.bitbuf (8 * s.argU 0) (recordFields bits out) } := by
  unfold writeRecord
  dsimp only
  by_cases h : recordSize bits out < 2 ^ bits
  · rw [require_of h, if_neg (not_not.2 h), bind_ok]
    by_cases h2 : s.argU 0 + recordSize bits out ≤ s.bitbufBytes
    · rw [require_of h2, if_neg (not_not.2 h2), bind_ok]
    · rw [require_of_not h2, if_pos h2, bind_error]
  · rw [require_of_not h, if_pos h, bind_error]

theorem writeRecord_ok {s t : State} {bits : Nat} {fid : BitVec 8} {out : List Field}
    (h : writeRecord s bits fid out = .ok t) : recordSize bits out < 2 ^ bits ∧
      s.argU 0 + recordSize bits out ≤ s.bitbufBytes ∧
      t = { s with bitbuf := writeFields s.bitbuf (8 * s.argU 0) (recordFields bits out) } := by
  rw [writeRecord_eq] at h
  split at h
  · cases h
  · split at h
    · cases h
    · exact ⟨not_not.1 ‹_›, not_not.1 ‹_›, by cases h; rfl⟩

theorem writeRecord_error {s : State} {bits : Nat} {fid : BitVec 8} {out : List Field} {e : CmdError}
    (h : writeRecord s bits fid out = .error e) :
    e = rangeError fid noIndex (BitVec.ofNat 64 (recordSize bits out)) ∨ e = overrunError noIndex (s.argWord 0) := by
  rw [writeRecord_eq] at h
  split at h
  · cases h
    exact .inl rfl
  · split at h
    · cases h
      exact .inr rfl
    · cases h

/-- A written record changes only its own bytes. -/
theorem sameBytesOutside_record (m : Memory 8) (a bits : Nat) (out : List Field) :
    sameBytesOutside a (recordSize bits out) m (writeFields m (8 * a) (recordFields bits out)) := by
  intro k hk
  apply get_writeFields_outside
  rw [fieldsWidth_recordFields]
  omega

theorem checkSize_ok {fid : BitVec 8} {size taken : Nat} {u : Unit} (h : checkSize fid size taken = .ok u) :
    ceil8 taken = size := require_ok h

theorem checkSize_error {fid : BitVec 8} {size taken : Nat} {e : CmdError} (h : checkSize fid size taken = .error e) :
    e.kind = .decodeError ∧ e.field = fid := by
  rw [(require_error h).2]
  exact ⟨rfl, rfl⟩

end Sys2Proof.Machine
end

