-- ==== Sys2Proof/Laws/PointRecord.lean ====
section
/-! SUPPORT. What the point record's functions can do (R221 to R232): the encoder's fields are those of `prOut`, reading them
back gives the record, which REC words a decoder writes, and the first error of either direction. -/

namespace Sys2Proof.Machine

/-! ### Configuration and items -/

theorem prCfg_ok_iff (s : State) : prCfg s = .ok () ↔ s.PrConfig := by
  unfold prCfg requireSizeBits
  constructor
  · intro h
    obtain ⟨⟨⟩, h1, h⟩ := bind_eq_ok h
    obtain ⟨⟨⟩, h2, h⟩ := bind_eq_ok h
    have hg := (geoCfg_ok_iff _ _).1 h1
    exact ⟨hg.1, hg.2 rfl, require_ok h2, fun k hk => (requireFieldBits_ok_iff _ _).1 h k (List.mem_range.2 hk)⟩
  · intro h
    rw [(geoCfg_ok_iff _ _).2 ⟨h.scale, fun _ => h.lonBase⟩, bind_ok, require_of h.sizeBits, bind_ok,
      requireFieldBits_ok_iff]
    exact fun k hk => h.fieldBits k (List.mem_range.1 hk)

theorem prCfg_error {s : State} {e : CmdError} (h : prCfg s = .error e) : ∃ addr, e = configError addr := by
  rcases bind_eq_error h with h | ⟨_, _, h⟩
  · exact geoCfg_error h
  rcases bind_eq_error h with h | ⟨_, _, h⟩
  · exact ⟨_, (require_error h).2⟩
  · exact requireFieldBits_error h

/-- R225: a word that fits its item is packed as its value. -/
theorem itemEnc_of_fits {s : State} (hc : s.PrConfig) {w : Word} {kind : PrKind} (h : s.itemFits w kind)
    (ix : BitVec 24) : itemEnc s s.plat s.plon ix w kind = .ok (s.itemValue w kind).toNat := by
  cases kind with
  | scalar k => exact scalarEnc_of_fits h ix
  | lat fid => exact latEnc_of_fits h fid ix
  | lonFull fid => exact lonFullEnc_of_fits h fid ix
  | lon fid => exact lonEnc_of_fits (lonMode_width_pos hc.scale hc.lonBase.1 _) h fid ix

theorem itemEnc_of_not_fits {s : State} (hc : s.PrConfig) {w : Word} {kind : PrKind} (h : ¬ s.itemFits w kind)
    (ix : BitVec 24) : ∃ e, itemEnc s s.plat s.plon ix w kind = .error e := by
  cases kind with
  | scalar k => exact ⟨_, scalarEnc_of_not_fits h ix⟩
  | lat fid => exact ⟨_, latEnc_of_not_fits h fid ix⟩
  | lonFull fid => exact ⟨_, lonFullEnc_of_not_fits h fid ix⟩
  | lon fid => exact ⟨_, lonEnc_of_not_fits (lonMode_width_pos hc.scale hc.lonBase.1 _) h fid ix⟩

/-- The decoder inverts the encoder, item by item. -/
theorem itemDec_itemEnc {s : State} {plat plon : Int} {ix : BitVec 24} {w : Word} {kind : PrKind} {p : Nat}
    (h : itemEnc s plat plon ix w kind = .ok p) : p < 2 ^ itemWidth s plat kind ∧ itemDec s plat plon p kind = w := by
  cases kind with
  | scalar k => exact ⟨(scalarEnc_ok h).2.2.1, (scalarEnc_ok h).2.2.2⟩
  | lat fid =>
    have := latDec_latEnc h
    exact ⟨this.2, by rw [itemDec, this.1, wrap64_s64]⟩
  | lonFull fid =>
    have := lonFullDec_lonFullEnc h
    exact ⟨this.2, by rw [itemDec, this.1, wrap64_s64]⟩
  | lon fid =>
    have := lonDec_lonEnc h
    exact ⟨this.2, by rw [itemDec, this.1, wrap64_s64]⟩

theorem itemEnc_error {s : State} {plat plon : Int} {ix : BitVec 24} {w : Word} {kind : PrKind} {e : CmdError}
    (h : itemEnc s plat plon ix w kind = .error e) : e = rangeError (kind.field) ix w := by
  cases kind with
  | scalar k => exact scalarEnc_error h
  | lat fid => rw [latEnc_error h, wrap64_s64]; rfl
  | lonFull fid => rw [lonFullEnc_error h, wrap64_s64]; rfl
  | lon fid => rw [lonEnc_error h, wrap64_s64]; rfl

/-- The field of an item of the record in `s`. -/
def itemFieldOf (s : State) (it : PrItem) : Field :=
  (itemWidth s s.plat it.kind, (s.itemValue (s.recWord it.word) it.kind).toNat)

/-- R225: the fields of the listed items, exactly when they all fit. -/
theorem encItems_ok_iff {s : State} (hc : s.PrConfig) (its : List PrItem) (fs : List Field) :
    encItems s s.plat s.plon its = .ok fs ↔
      (∀ it ∈ its, s.itemFits (s.recWord it.word) it.kind) ∧ fs = its.map (itemFieldOf s) := by
  induction its generalizing fs with
  | nil =>
    rw [encItems, List.map_nil]
    exact ⟨fun h => ⟨(fun n hn => by cases hn), (by cases h; rfl)⟩, fun h => by rw [h.2]⟩
  | cons it its ih =>
    rw [encItems, List.map_cons]
    by_cases hf : s.itemFits (s.recWord it.word) it.kind
    · rw [itemEnc_of_fits hc hf, bind_ok]
      constructor
      · intro h
        obtain ⟨rest, h1, h⟩ := bind_eq_ok h
        cases h
        obtain ⟨h2, rfl⟩ := (ih _).1 h1
        refine ⟨fun jt hj => ?_, rfl⟩
        rcases List.mem_cons.1 hj with rfl | hj
        · exact hf
        · exact h2 jt hj
      · rintro ⟨h1, rfl⟩
        rw [(ih _).2 ⟨fun jt hj => h1 jt (List.mem_cons_of_mem _ hj), rfl⟩, bind_ok]
        rfl
    · obtain ⟨e, he⟩ := itemEnc_of_not_fits hc hf it.index
      rw [he, bind_error]
      exact ⟨(fun h => by cases h), fun h => absurd (h.1 it (List.mem_cons_self ..)) hf⟩

theorem encItems_error {s : State} {plat plon : Int} {its : List PrItem} {e : CmdError}
    (h : encItems s plat plon its = .error e) : ∃ it ∈ its, e = rangeError it.kind.field it.index (s.recWord it.word) := by
  induction its with
  | nil => cases h
  | cons it its ih =>
    rw [encItems] at h
    rcases bind_eq_error h with h | ⟨_, _, h⟩
    · exact ⟨it, List.mem_cons_self .., itemEnc_error h⟩
    rcases bind_eq_error h with h | ⟨_, _, h⟩
    · obtain ⟨jt, hj, he⟩ := ih h
      exact ⟨jt, List.mem_cons_of_mem _ hj, he⟩
    · cases h

/-! ### Return counts -/

@[simp] theorem length_counts (s : State) : s.counts.length = 9 := by simp [State.counts, Config.nch]

theorem counts_getD (s : State) {c : Nat} (hc : c < 9) : s.counts.getD c 0 = (s.recWord c).toNat := by
  simp [State.counts, Config.nch, List.getD_eq_getElem?_getD, hc, u64]

/-- R225: the count check passes exactly when every count is at most 4. -/
theorem checkCounts_ok_iff (kind : ErrKind) (c : Nat) (ns : List Nat) :
    checkCounts kind c ns = .ok () ↔ ∀ n ∈ ns, n ≤ Config.nret := by
  induction ns generalizing c with
  | nil => simp [checkCounts]
  | cons n ns ih =>
    rw [checkCounts]
    by_cases h : n ≤ Config.nret
    · rw [require_of h, bind_ok, ih]
      simp [h]
    · rw [require_of_not h, bind_error]
      simp [h]

/-- R225: the first count above 4 is the one reported. -/
theorem checkCounts_first {kind : ErrKind} {c : Nat} {ns : List Nat} {k : Nat} (hk : k < ns.length)
    (h : ∀ j, j < k → ns.getD j 0 ≤ Config.nret) (hbad : Config.nret < ns.getD k 0) :
    checkCounts kind c ns = .error ⟨kind, 38#8, errIdx (c + k) idxNA idxNA, BitVec.ofNat 64 (ns.getD k 0)⟩ := by
  induction ns generalizing c k with
  | nil => simp at hk
  | cons n ns ih =>
    rw [checkCounts]
    cases k with
    | zero =>
      have hx : Config.nret < n := by simpa using hbad
      rw [require_of_not (by omega), bind_error]
      simp
    | succ k =>
      have h0 : n ≤ Config.nret := by simpa using h 0 (by omega)
      rw [require_of h0, bind_ok, ih (by simpa using hk) (fun j hj => by simpa using h (j + 1) (by omega))
        (by simpa using hbad)]
      simp only [List.getD_cons_succ]
      congr 3
      omega

theorem checkCounts_error {kind : ErrKind} {c : Nat} {ns : List Nat} {e : CmdError} (h : checkCounts kind c ns = .error e) :
    e.kind = kind ∧ e.field = 38#8 := by
  induction ns generalizing c with
  | nil => cases h
  | cons n ns ih =>
    rcases bind_eq_error h with h | ⟨_, _, h⟩
    · rw [(require_error h).2]
      exact ⟨rfl, rfl⟩
    · exact ih h

theorem counts_le_iff (s : State) : (∀ n ∈ s.counts, n ≤ Config.nret) ↔ ∀ c, c < Config.nch → (s.recWord c).toNat ≤ 4 := by
  simp only [State.counts, List.mem_map, List.mem_range]
  constructor
  · intro h c hc
    exact h _ ⟨c, hc, rfl⟩
  · rintro h _ ⟨c, hc, rfl⟩
    exact h c hc

/-- R225: the record's fields, exactly when its values are legal. -/
theorem prFields_ok_iff {s : State} (hc : s.PrConfig) (out : List Field) :
    prFields s = .ok out ↔ s.PrValues ∧ out = s.prOut := by
  constructor
  · intro h
    obtain ⟨_, h1, h⟩ := bind_eq_ok h
    obtain ⟨items, h2, h⟩ := bind_eq_ok h
    cases h
    obtain ⟨h3, rfl⟩ := (encItems_ok_iff hc _ _).1 h2
    exact ⟨⟨(counts_le_iff s).1 ((checkCounts_ok_iff _ _ _).1 h1), h3⟩, rfl⟩
  · rintro ⟨hv, rfl⟩
    unfold prFields
    rw [(checkCounts_ok_iff _ _ _).2 ((counts_le_iff s).2 hv.counts), bind_ok,
      (encItems_ok_iff hc _ _).2 ⟨hv.items, rfl⟩, bind_ok]
    rfl

theorem itemFieldOf_fit {s : State} (hc : s.PrConfig) {it : PrItem} (h : s.itemFits (s.recWord it.word) it.kind) :
    (itemFieldOf s it).2 < 2 ^ (itemFieldOf s it).1 := (itemDec_itemEnc (itemEnc_of_fits hc h it.index)).1

theorem prOut_fit {s : State} (hc : s.PrConfig) (hv : s.PrValues) : ∀ f ∈ s.prOut, f.2 < 2 ^ f.1 := by
  intro f hf
  rcases List.mem_append.1 hf with hf | hf
  · obtain ⟨n, hn, rfl⟩ := List.mem_map.1 hf
    have := (counts_le_iff s).2 hv.counts n hn
    simp only [Config.nret] at this
    dsimp only
    omega
  · obtain ⟨it, hi, rfl⟩ := List.mem_map.1 hf
    exact itemFieldOf_fit hc (hv.items it hi)

/-- R230: everything a successful PR_ENC says. -/
theorem prEnc_ok {s t : State} (h : prEnc s = .ok t) : s.PrConfig ∧ s.PrValues ∧
    recordSize s.cxySizeBits.toNat s.prOut < 2 ^ s.cxySizeBits.toNat ∧
    s.argU 0 + recordSize s.cxySizeBits.toNat s.prOut ≤ s.bitbufBytes ∧
    t = { s with
      bitbuf := writeFields s.bitbuf (8 * s.argU 0) (recordFields s.cxySizeBits.toNat s.prOut)
      bounds := if s.append then s.boundsUpdate else s.bounds }.writeRes
        (prResults s (recordSize s.cxySizeBits.toNat s.prOut) s.plat) := by
  obtain ⟨⟨⟩, h1, h⟩ := bind_eq_ok h
  have hc := (prCfg_ok_iff s).1 h1
  obtain ⟨out, h2, h⟩ := bind_eq_ok h
  obtain ⟨u, h3, h⟩ := bind_eq_ok h
  cases h
  obtain ⟨hv, rfl⟩ := (prFields_ok_iff hc _).1 h2
  obtain ⟨h4, h5, rfl⟩ := writeRecord_ok h3
  refine ⟨hc, hv, h4, h5, ?_⟩
  dsimp only

/-- R230: everything PR_ENC can do with legal configuration and values. -/
theorem prEnc_legal {s : State} (hc : s.PrConfig) (hv : s.PrValues) : prEnc s =
    if ¬ recordSize s.cxySizeBits.toNat s.prOut < 2 ^ s.cxySizeBits.toNat then
      .error (rangeError 39#8 noIndex (BitVec.ofNat 64 (recordSize s.cxySizeBits.toNat s.prOut)))
    else if ¬ s.argU 0 + recordSize s.cxySizeBits.toNat s.prOut ≤ s.bitbufBytes then
      .error (overrunError noIndex (s.argWord 0))
    else .ok ({ s with
      bitbuf := writeFields s.bitbuf (8 * s.argU 0) (recordFields s.cxySizeBits.toNat s.prOut)
      bounds := if s.append then s.boundsUpdate else s.bounds }.writeRes
        (prResults s (recordSize s.cxySizeBits.toNat s.prOut) s.plat)) := by
  unfold prEnc
  rw [(prCfg_ok_iff s).2 hc, bind_ok, (prFields_ok_iff hc _).2 ⟨hv, rfl⟩, bind_ok]
  dsimp only
  rw [writeRecord_eq]
  split
  · rfl
  · split <;> rfl

/-- R230: PR_ENC succeeds under these conditions. -/
theorem prEnc_of {s : State} (hc : s.PrConfig) (hv : s.PrValues)
    (h1 : recordSize s.cxySizeBits.toNat s.prOut < 2 ^ s.cxySizeBits.toNat)
    (h2 : s.argU 0 + recordSize s.cxySizeBits.toNat s.prOut ≤ s.bitbufBytes) :
    prEnc s = .ok ({ s with
      bitbuf := writeFields s.bitbuf (8 * s.argU 0) (recordFields s.cxySizeBits.toNat s.prOut)
      bounds := if s.append then s.boundsUpdate else s.bounds }.writeRes
        (prResults s (recordSize s.cxySizeBits.toNat s.prOut) s.plat)) := by
  rw [prEnc_legal hc hv, if_neg (not_not.2 h1), if_neg (not_not.2 h2)]

/-- R225: with legal configuration, PR_ENC reports what `prFields` does. -/
theorem prEnc_of_error {s : State} {e : CmdError} (hc : s.PrConfig) (h : prFields s = .error e) : prEnc s = .error e := by
  unfold prEnc
  rw [(prCfg_ok_iff s).2 hc, bind_ok, h, bind_error]

/-- R225: the first item that does not fit is the one reported. -/
theorem encItems_first {s : State} (hc : s.PrConfig) {its : List PrItem} {n : Nat} {it : PrItem} (hn : its[n]? = some it)
    (hgood : ∀ m jt, m < n → its[m]? = some jt → s.itemFits (s.recWord jt.word) jt.kind)
    (hbad : ¬ s.itemFits (s.recWord it.word) it.kind) :
    encItems s s.plat s.plon its = .error (rangeError it.kind.field it.index (s.recWord it.word)) := by
  induction its generalizing n with
  | nil => simp at hn
  | cons jt its ih =>
    rw [encItems]
    cases n with
    | zero =>
      obtain rfl : jt = it := by simpa using hn
      obtain ⟨e, he⟩ := itemEnc_of_not_fits hc hbad jt.index
      rw [he, bind_error, itemEnc_error he]
    | succ n =>
      rw [itemEnc_of_fits hc (hgood 0 jt (by omega) rfl), bind_ok,
        ih (by simpa using hn) (fun m kt hm hk => hgood (m + 1) kt (by omega) (by simpa using hk)), bind_error]

/-! ### Reading a record -/

theorem scale_congr {s u : State} (h : s.SamePrConfig u) : u.scale = s.scale := by simp only [State.scale, h.scale]

theorem itemWidth_congr {s u : State} (h : s.SamePrConfig u) (plat : Int) (kind : PrKind) :
    itemWidth u plat kind = itemWidth s plat kind := by
  cases kind <;> simp only [itemWidth, State.fieldBits, State.lonBase, scale_congr h, h.bits, h.lonBase]

theorem itemDec_congr {s u : State} (h : s.SamePrConfig u) (plat plon : Int) (p : Nat) (kind : PrKind) :
    itemDec u plat plon p kind = itemDec s plat plon p kind := by
  cases kind <;> simp only [itemDec, scalarDec_congr h.offsets, State.lonBase, scale_congr h, h.lonBase]

/-- R231: reading the fields of items that fit gives their REC words. -/
theorem decItems_fields {s u : State} (hc : s.PrConfig) (hs : s.SamePrConfig u) :
    ∀ (its : List PrItem) (pos : Nat), (∀ it ∈ its, s.itemFits (s.recWord it.word) it.kind) →
      fieldsAt u.bitbuf pos (its.map (itemFieldOf s)) → pos + fieldsWidth (its.map (itemFieldOf s)) ≤ u.streamBits →
      decItems u s.plat s.plon its pos =
        .ok (its.map fun it => (it.word, s.recWord it.word), pos + fieldsWidth (its.map (itemFieldOf s))) := by
  intro its
  induction its with
  | nil => intro pos _ _ _; rfl
  | cons it its ih =>
    intro pos hf hb hl
    simp only [List.map_cons, fieldsAt_cons, fieldsWidth_cons] at hb hl ⊢
    have hw : itemWidth u s.plat it.kind = (itemFieldOf s it).1 := itemWidth_congr hs _ _
    have hd := itemDec_itemEnc (itemEnc_of_fits hc (hf it (List.mem_cons_self ..)) it.index)
    rw [decItems, hw, take_of_le (show _ ≤ u.stream.limit by show _ ≤ u.streamBits; omega), bind_ok]
    dsimp only
    rw [ih _ (fun jt hj => hf jt (List.mem_cons_of_mem _ hj)) hb.2 (by omega), bind_ok]
    dsimp only
    rw [show u.stream.mem = u.bitbuf from rfl, hb.1, itemDec_congr hs, show (itemFieldOf s it).2 =
      (s.itemValue (s.recWord it.word) it.kind).toNat from rfl, hd.2, Nat.add_assoc]

/-- R231: the items before the mode is known do not use it. -/
theorem decItems_lead (s : State) (plat plon : Int) (pos : Nat) :
    decItems s 0 0 prLead pos = decItems s plat plon prLead pos := rfl

theorem takeCounts_fields {st : Stream} {ns : List Nat} {c pos : Nat} (hn : ∀ n ∈ ns, n ≤ Config.nret)
    (hf : fieldsAt st.mem pos (ns.map fun n => (3, n))) (hl : pos + ns.length * 3 ≤ st.limit) :
    takeCounts st ns.length c pos = .ok (ns, pos + ns.length * 3) := by
  induction ns generalizing c pos with
  | nil => rfl
  | cons n ns ih =>
    simp only [List.length_cons, List.map_cons, fieldsAt_cons] at hf hl ⊢
    rw [takeCounts, take_of_le (by omega), bind_ok]
    dsimp only
    rw [hf.1, require_of (hn n (List.mem_cons_self ..)), bind_ok,
      ih (fun m hm => hn m (List.mem_cons_of_mem _ hm)) hf.2 (by omega), bind_ok]
    dsimp only
    congr 2
    omega

/-- R231: the first count above 4 that is read is the one reported. -/
theorem takeCounts_first {st : Stream} {k c d pos : Nat} (hd : d < k) (hl : pos + 3 * d + 3 ≤ st.limit)
    (hgood : ∀ j, j < d → bitRead st.mem (pos + 3 * j) 3 ≤ Config.nret)
    (hbad : Config.nret < bitRead st.mem (pos + 3 * d) 3) : takeCounts st k c pos =
      .error ⟨.decodeError, 38#8, errIdx (c + d) idxNA idxNA, BitVec.ofNat 64 (bitRead st.mem (pos + 3 * d) 3)⟩ := by
  induction k generalizing c d pos with
  | zero => omega
  | succ k ih =>
    rw [takeCounts, take_of_le (by omega), bind_ok]
    dsimp only
    cases d with
    | zero => rw [require_of_not (by simpa using hbad), bind_error]; rfl
    | succ d =>
      have hp : ∀ j, pos + 3 + 3 * j = pos + 3 * (j + 1) := fun j => by omega
      rw [require_of (by simpa using hgood 0 (by omega)), bind_ok,
        ih (c := c + 1) (d := d) (pos := pos + 3) (by omega) (by omega) (fun j hj => by rw [hp]; exact hgood (j + 1) (by omega))
          (by rw [hp]; exact hbad), bind_error, hp, show c + 1 + d = c + (d + 1) by omega]

/-- R231: the writes of a decoded record. -/
def recordWrites (s : State) : List (Nat × Word) :=
  countWrites s.counts ++ prLead.map (fun it => (it.word, s.recWord it.word)) ++
    (prBody s.counts).map (fun it => (it.word, s.recWord it.word)) ++ unusedSlots s.counts

/-- R231: reading the fields of the record of `s` gives that record. -/
theorem readPrRecord_fields {s u : State} (hc : s.PrConfig) (hv : s.PrValues) (hs : s.SamePrConfig u) {size pos : Nat}
    (hf : fieldsAt u.bitbuf pos ((s.cxySizeBits.toNat, size) :: s.prOut))
    (hl : pos + (s.cxySizeBits.toNat + fieldsWidth s.prOut) ≤ u.streamBits) :
    readPrRecord u pos = .ok ⟨size, s.plat, recordWrites s, pos + (s.cxySizeBits.toNat + fieldsWidth s.prOut)⟩ := by
  have e : s.prOut = (s.counts.map fun n => (3, n)) ++ (prLead.map (itemFieldOf s) ++
      (prBody s.counts).map (itemFieldOf s)) := by
    rw [← List.map_append]
    rfl
  have hcw : fieldsWidth (s.counts.map fun n => (3, n)) = 27 := by
    rw [fieldsWidth_map_const 3 (fun n => n), length_counts]
  rw [e] at hf hl ⊢
  simp only [fieldsAt_cons, fieldsAt_append, fieldsWidth_append, hcw] at hf hl ⊢
  obtain ⟨f1, f2, f3, f4⟩ := hf
  unfold readPrRecord
  dsimp only
  rw [← hs.sizeBits, take_of_le (show _ ≤ u.stream.limit by show _ ≤ u.streamBits; omega), bind_ok]
  dsimp only
  have ht := takeCounts_fields (st := u.stream) (c := 0) (pos := pos + s.cxySizeBits.toNat)
    ((counts_le_iff s).2 hv.counts) f2 (by rw [length_counts]; show _ ≤ u.streamBits; omega)
  rw [length_counts] at ht
  rw [show Config.nch = 9 from rfl, ht, bind_ok]
  dsimp only
  rw [decItems_lead u s.plat s.plon, decItems_fields hc hs prLead _
    (fun it hi => hv.items it (List.mem_append_left _ hi)) f3 (by omega), bind_ok]
  dsimp only
  rw [show writtenS (prLead.map fun it => (it.word, s.recWord it.word)) 11 = s.plat from rfl,
    show writtenS (prLead.map fun it => (it.word, s.recWord it.word)) 12 = s.plon from rfl,
    decItems_fields hc hs (prBody s.counts) _ (fun it hi => hv.items it (List.mem_append_right _ hi)) f4 (by omega),
    bind_ok]
  dsimp only
  rw [show u.stream.mem = u.bitbuf from rfl, f1]
  unfold recordWrites
  rw [show pos + s.cxySizeBits.toNat + 9 * 3 + fieldsWidth (prLead.map (itemFieldOf s)) +
    fieldsWidth ((prBody s.counts).map (itemFieldOf s)) = pos + (s.cxySizeBits.toNat + (27 +
    (fieldsWidth (prLead.map (itemFieldOf s)) + fieldsWidth ((prBody s.counts).map (itemFieldOf s))))) by omega]

/-! ### Writes to REC -/

/-- What a list of writes leaves in a word all of whose writes agree. -/
theorem get_writeRec {ws : List (Nat × Word)} {j : Nat} {v : Word} (h : ∀ p ∈ ws, p.1 = j → p.2 = v) (m : Memory 64) :
    (writeRec m ws).get j = if ∃ p ∈ ws, p.1 = j then v else m.get j := by
  induction ws generalizing m with
  | nil => simp [writeRec]
  | cons p ws ih =>
    rw [writeRec, ih fun q hq => h q (List.mem_cons_of_mem _ hq), Memory.get_set]
    by_cases hp : p.1 = j
    · have hv := h p (List.mem_cons_self ..) hp
      simp [hp, hv]
    · have : ¬ j = p.1 := fun e => hp e.symm
      simp [hp, this]

theorem wf_writeRec {n : Nat} {ws : List (Nat × Word)} {m : Memory 64} (h : Memory.wf n m) (hw : ∀ p ∈ ws, p.1 < n) :
    Memory.wf n (writeRec m ws) := by
  induction ws generalizing m with
  | nil => exact h
  | cons p ws ih =>
    exact ih (Memory.wf_set h (hw p (List.mem_cons_self ..)) _) fun q hq => hw q (List.mem_cons_of_mem _ hq)

/-- The REC words of the items of a record. -/
theorem mem_items {counts : List Nat} {it : PrItem} (h : it ∈ prLead ++ prBody counts) :
    (9 ≤ it.word ∧ it.word ≤ 23) ∨ (∃ c, c < 9 ∧ it.word = 24 + c) ∨
      ∃ c r q, c < 9 ∧ r < counts.getD c 0 ∧ q ≤ 6 ∧ it.word = retAddr c r q := by
  rcases List.mem_append.1 h with h | h
  · left
    simp only [prLead, List.mem_cons, List.not_mem_nil, or_false] at h
    rcases h with rfl | rfl | rfl | rfl <;> simp
  rcases List.mem_append.1 h with h | h
  · left
    simp only [prPlatform, List.mem_cons, List.not_mem_nil, or_false] at h
    rcases h with rfl | rfl | rfl | rfl | rfl | rfl | rfl | rfl | rfl | rfl | rfl <;> simp
  · obtain ⟨c, hc, h⟩ := List.mem_flatMap.1 h
    have hc : c < 9 := List.mem_range.1 hc
    rcases List.mem_append.1 h with h | h
    · obtain ⟨r, hr, h⟩ := List.mem_flatMap.1 h
      have hr := List.mem_range.1 hr
      simp only [prReturn, List.mem_cons, List.not_mem_nil, or_false] at h
      rcases h with rfl | rfl | rfl | rfl | rfl | rfl | rfl
      · exact .inr (.inr ⟨c, r, 0, hc, hr, by omega, rfl⟩)
      · exact .inr (.inr ⟨c, r, 1, hc, hr, by omega, rfl⟩)
      · exact .inr (.inr ⟨c, r, 2, hc, hr, by omega, rfl⟩)
      · exact .inr (.inr ⟨c, r, 3, hc, hr, by omega, rfl⟩)
      · exact .inr (.inr ⟨c, r, 4, hc, hr, by omega, rfl⟩)
      · exact .inr (.inr ⟨c, r, 5, hc, hr, by omega, rfl⟩)
      · exact .inr (.inr ⟨c, r, 6, hc, hr, by omega, rfl⟩)
    · rw [List.mem_singleton.1 h]
      exact .inr (.inl ⟨c, hc, rfl⟩)

theorem exists_item_of {counts : List Nat} {j : Nat} (h : (9 ≤ j ∧ j ≤ 23) ∨ (∃ c, c < 9 ∧ j = 24 + c) ∨
    ∃ c r q, c < 9 ∧ r < counts.getD c 0 ∧ q ≤ 6 ∧ j = retAddr c r q) : ∃ it ∈ prLead ++ prBody counts, it.word = j := by
  rcases h with ⟨h1, h2⟩ | ⟨c, hc, rfl⟩ | ⟨c, r, q, hc, hr, hq, rfl⟩
  · have : ∃ it ∈ prLead ++ prPlatform, it.word = j := by
      interval_cases j <;> decide
    obtain ⟨it, hi, e⟩ := this
    refine ⟨it, ?_, e⟩
    rcases List.mem_append.1 hi with hi | hi
    · exact List.mem_append_left _ hi
    · exact List.mem_append_right _ (List.mem_append_left _ hi)
  · refine ⟨⟨.scalar 16, 24 + c, errIdx c idxNA idxNA⟩, List.mem_append_right _ (List.mem_append_right _ ?_), rfl⟩
    exact List.mem_flatMap.2 ⟨c, List.mem_range.2 hc, List.mem_append_right _ (List.mem_singleton.2 rfl)⟩
  · have : ∃ it ∈ prReturn c r, it.word = retAddr c r q := by
      have : q = 0 ∨ q = 1 ∨ q = 2 ∨ q = 3 ∨ q = 4 ∨ q = 5 ∨ q = 6 := by omega
      rcases this with rfl | rfl | rfl | rfl | rfl | rfl | rfl <;> simp [prReturn]
    obtain ⟨it, hi, e⟩ := this
    refine ⟨it, List.mem_append_right _ (List.mem_append_right _ ?_), e⟩
    exact List.mem_flatMap.2 ⟨c, List.mem_range.2 hc, List.mem_append_left _ (List.mem_flatMap.2 ⟨r, List.mem_range.2 hr, hi⟩)⟩

/-- Where a return's item stands in REC, read back from its address. -/
theorem retAddr_parts {c r q : Nat} (hr : r < 4) (hq : q < 8) : 40 ≤ retAddr c r q ∧ (retAddr c r q - 40) % 8 = q ∧
    (retAddr c r q - 40) / 8 % 4 = r ∧ (retAddr c r q - 40) / 32 = c := by
  unfold retAddr
  omega

theorem retAddr_of_parts {j : Nat} (h : 40 ≤ j) : j = retAddr ((j - 40) / 32) ((j - 40) / 8 % 4) ((j - 40) % 8) := by
  unfold retAddr
  omega

/-- R233: the words a record holds are its counts and its items. -/
theorem prHolds_iff {counts : List Nat} (hn : ∀ c, counts.getD c 0 ≤ 4) (j : Nat) :
    prHolds counts j = true ↔ j < 9 ∨ ∃ it ∈ prLead ++ prBody counts, it.word = j := by
  have hw : Config.recWords = 328 := rfl
  unfold prHolds
  simp only [Bool.or_eq_true, Bool.and_eq_true, decide_eq_true_eq]
  constructor
  · rintro (h | ⟨⟨h1, h2⟩, h3, h4⟩)
    · by_cases h9 : j < 9
      · exact .inl h9
      · refine .inr (exists_item_of ?_)
        by_cases h24 : j ≤ 23
        · exact .inl ⟨by omega, h24⟩
        · exact .inr (.inl ⟨j - 24, by omega, by omega⟩)
    · exact .inr (exists_item_of (.inr (.inr ⟨_, _, _, by omega, h4, h3, retAddr_of_parts h1⟩)))
  · rintro (h | ⟨it, hi, rfl⟩)
    · exact .inl (by omega)
    · rcases mem_items hi with h | ⟨c, hc, e⟩ | ⟨c, r, q, hc, hr, hq, e⟩
      · exact .inl (by omega)
      · exact .inl (by omega)
      · have h4 := hn c
        obtain ⟨p1, p2, p3, p4⟩ := retAddr_parts (c := c) (r := r) (q := q) (by omega) (by omega)
        rw [e]
        refine .inr ⟨⟨p1, by unfold retAddr; omega⟩, by omega, ?_⟩
        rw [p3, p4]
        exact hr

/-- R231: the unused return slots. -/
theorem mem_unusedSlots {counts : List Nat} {p : Nat × Word} : p ∈ unusedSlots counts ↔
    p.2 = 0#64 ∧ ∃ c r q, c < 9 ∧ r < 4 ∧ counts.getD c 0 ≤ r ∧ q < 7 ∧ p.1 = retAddr c r q := by
  simp only [unusedSlots, List.mem_flatMap, List.mem_filter, List.mem_range, List.mem_map, decide_eq_true_eq, Config.nch,
    Config.nret]
  constructor
  · rintro ⟨c, hc, r, ⟨hr, hn⟩, q, hq, rfl⟩
    exact ⟨rfl, c, r, q, hc, hr, hn, hq, rfl⟩
  · rintro ⟨h0, c, r, q, hc, hr, hn, hq, e⟩
    exact ⟨c, hc, r, ⟨hr, hn⟩, q, hq, Prod.ext e.symm h0.symm⟩

theorem prUnused_iff {counts : List Nat} (j : Nat) :
    prUnused counts j = true ↔ ∃ p ∈ unusedSlots counts, p.1 = j := by
  have hw : Config.recWords = 328 := rfl
  unfold prUnused
  simp only [Bool.and_eq_true, decide_eq_true_eq]
  constructor
  · rintro ⟨⟨h1, h2⟩, h3, h4⟩
    exact ⟨(j, 0#64), mem_unusedSlots.2 ⟨rfl, _, _, _, by omega, by omega, h4, by omega, retAddr_of_parts h1⟩, rfl⟩
  · rintro ⟨p, hp, rfl⟩
    obtain ⟨_, c, r, q, hc, hr, hn, hq, e⟩ := mem_unusedSlots.1 hp
    obtain ⟨p1, p2, p3, p4⟩ := retAddr_parts (c := c) (r := r) (q := q) hr (by omega)
    rw [e]
    refine ⟨⟨p1, by unfold retAddr; omega⟩, by omega, ?_⟩
    rw [p3, p4]
    exact hn

/-- A word is not both held and unused. -/
theorem not_prHolds_of_prUnused {counts : List Nat} {j : Nat} (h : prUnused counts j = true) : prHolds counts j = false := by
  have hw : Config.recWords = 328 := rfl
  unfold prUnused at h
  unfold prHolds
  simp only [Bool.and_eq_true, Bool.or_eq_false_iff, Bool.and_eq_false_iff, decide_eq_true_eq,
    decide_eq_false_iff_not] at *
  omega

/-- R231, R233: REC after a decoder has written the record of `s`. -/
theorem get_recordWrites {s : State} (hv : s.PrValues) (m : Memory 64) (j : Nat) :
    (writeRec m (recordWrites s)).get j =
      if prHolds s.counts j then s.recWord j else if prUnused s.counts j then 0#64 else m.get j := by
  have hn : ∀ c, s.counts.getD c 0 ≤ 4 := by
    intro c
    by_cases hc : c < 9
    · rw [counts_getD s hc]
      exact hv.counts c hc
    · simp [List.getD_eq_getElem?_getD, List.getElem?_eq_none (show s.counts.length ≤ c by rw [length_counts]; omega)]
  have held : ∀ p, p ∈ countWrites s.counts ++ prLead.map (fun it => (it.word, s.recWord it.word)) ++
      (prBody s.counts).map (fun it => (it.word, s.recWord it.word)) → p.2 = s.recWord p.1 ∧ prHolds s.counts p.1 = true := by
    intro p hp
    rw [List.append_assoc, ← List.map_append] at hp
    rcases List.mem_append.1 hp with hp | hp
    · simp only [countWrites, List.mem_map, List.mem_range, Config.nch] at hp
      obtain ⟨c, hc, rfl⟩ := hp
      refine ⟨?_, (prHolds_iff hn _).2 (.inl hc)⟩
      dsimp only
      rw [counts_getD s hc, BitVec.ofNat_toNat, BitVec.setWidth_eq]
    · obtain ⟨it, hi, rfl⟩ := List.mem_map.1 hp
      exact ⟨rfl, (prHolds_iff hn _).2 (.inr ⟨it, hi, rfl⟩)⟩
  have someHeld : prHolds s.counts j = true → ∃ p ∈ recordWrites s, p.1 = j := by
    intro h
    unfold recordWrites
    rcases (prHolds_iff hn j).1 h with h9 | ⟨it, hi, e⟩
    · refine ⟨(j, BitVec.ofNat 64 (s.counts.getD j 0)), ?_, rfl⟩
      refine List.mem_append_left _ (List.mem_append_left _ (List.mem_append_left _ ?_))
      exact List.mem_map.2 ⟨j, List.mem_range.2 h9, rfl⟩
    · refine ⟨(it.word, s.recWord it.word), List.mem_append_left _ ?_, e⟩
      rw [List.append_assoc, ← List.map_append]
      exact List.mem_append_right _ (List.mem_map.2 ⟨it, hi, rfl⟩)
  by_cases h1 : prHolds s.counts j = true
  · rw [if_pos h1, get_writeRec (v := s.recWord j), if_pos (someHeld h1)]
    intro p hp e
    rcases List.mem_append.1 hp with hp | hp
    · rw [(held p hp).1, e]
    · have := not_prHolds_of_prUnused ((prUnused_iff j).2 ⟨p, hp, e⟩)
      rw [h1] at this
      cases this
  · rw [if_neg h1]
    have vals : ∀ p ∈ recordWrites s, p.1 = j → p.2 = 0#64 := by
      intro p hp e
      rcases List.mem_append.1 hp with hp | hp
      · have := (held p hp).2
        rw [e] at this
        exact absurd this h1
      · exact (mem_unusedSlots.1 hp).1
    rw [get_writeRec vals]
    by_cases h2 : prUnused s.counts j = true
    · obtain ⟨p, hp, e⟩ := (prUnused_iff j).1 h2
      rw [if_pos h2, if_pos ⟨p, List.mem_append_right _ hp, e⟩]
    · rw [if_neg h2, if_neg]
      rintro ⟨p, hp, e⟩
      rcases List.mem_append.1 hp with hp | hp
      · have := (held p hp).2
        rw [e] at this
        exact h1 this
      · exact h2 ((prUnused_iff j).2 ⟨p, hp, e⟩)

/-! ### PR_DEC and errors -/

theorem takeCounts_ok {st : Stream} {k c pos : Nat} {ns : List Nat} {pos' : Nat}
    (h : takeCounts st k c pos = .ok (ns, pos')) : ns.length = k ∧ ∀ n ∈ ns, n ≤ 4 := by
  induction k generalizing c pos ns pos' with
  | zero =>
    cases h
    simp
  | succ k ih =>
    obtain ⟨⟨n, p1⟩, _, h⟩ := bind_eq_ok h
    obtain ⟨_, h2, h⟩ := bind_eq_ok h
    obtain ⟨⟨ms, p2⟩, h3, h⟩ := bind_eq_ok h
    cases h
    obtain ⟨h4, h5⟩ := ih h3
    refine ⟨by simp [h4], fun m hm => ?_⟩
    rcases List.mem_cons.1 hm with rfl | hm
    · exact require_ok h2
    · exact h5 m hm

theorem decItems_ok {s : State} {plat plon : Int} {its : List PrItem} {pos : Nat} {ws : List (Nat × Word)} {pos' : Nat}
    (h : decItems s plat plon its pos = .ok (ws, pos')) : ws.map Prod.fst = its.map PrItem.word := by
  induction its generalizing pos ws pos' with
  | nil =>
    cases h
    rfl
  | cons it its ih =>
    obtain ⟨⟨p, p1⟩, _, h⟩ := bind_eq_ok h
    obtain ⟨⟨vs, p2⟩, h3, h⟩ := bind_eq_ok h
    cases h
    rw [List.map_cons, List.map_cons, ih h3]

/-- R231: the words a decoded record writes are those its counts say. -/
theorem readPrRecord_ok {s : State} {pos : Nat} {r : PrRecord} (h : readPrRecord s pos = .ok r) :
    ∃ counts : List Nat, (∀ c, counts.getD c 0 ≤ 4) ∧
      ∀ p ∈ r.writes, prHolds counts p.1 = true ∨ prUnused counts p.1 = true := by
  obtain ⟨⟨_, p1⟩, _, h⟩ := bind_eq_ok h
  obtain ⟨⟨counts, p2⟩, h2, h⟩ := bind_eq_ok h
  obtain ⟨⟨lead, p3⟩, h3, h⟩ := bind_eq_ok h
  obtain ⟨⟨body, p4⟩, h4, h⟩ := bind_eq_ok h
  cases h
  obtain ⟨_, hle⟩ := takeCounts_ok h2
  have hn : ∀ c, counts.getD c 0 ≤ 4 := by
    intro c
    by_cases hc : c < counts.length
    · simp only [List.getD_eq_getElem?_getD, List.getElem?_eq_getElem hc, Option.getD_some]
      exact hle _ (List.getElem_mem _)
    · simp only [List.getD_eq_getElem?_getD, List.getElem?_eq_none (not_lt.1 hc), Option.getD_none]
      omega
  refine ⟨counts, hn, fun p hp => ?_⟩
  have item : p.1 ∈ (prLead ++ prBody counts).map PrItem.word → prHolds counts p.1 = true := by
    intro h
    obtain ⟨it, hi, e⟩ := List.mem_map.1 h
    exact (prHolds_iff hn _).2 (.inr ⟨it, hi, e⟩)
  dsimp only at hp
  rcases List.mem_append.1 hp with hp | hp
  · left
    rcases List.mem_append.1 hp with hp | hp
    · rcases List.mem_append.1 hp with hp | hp
      · simp only [countWrites, List.mem_map, List.mem_range, Config.nch] at hp
        obtain ⟨c, hc, rfl⟩ := hp
        exact (prHolds_iff hn _).2 (.inl hc)
      · refine item ?_
        rw [List.map_append, ← decItems_ok h3]
        exact List.mem_append_left _ (List.mem_map_of_mem hp)
    · refine item ?_
      rw [List.map_append, ← decItems_ok h4]
      exact List.mem_append_right _ (List.mem_map_of_mem hp)
  · exact .inr ((prUnused_iff _).2 ⟨p, hp, rfl⟩)

/-- R231: everything a successful PR_DEC says. -/
theorem prDec_ok {s t : State} (h : prDec s = .ok t) : s.PrConfig ∧ ∃ r, readPrRecord s (8 * s.argU 0) = .ok r ∧
    ceil8 (r.after - 8 * s.argU 0) = r.size ∧
    t = { s with recMem := writeRec s.recMem r.writes }.writeRes (prResults s r.size r.plat) := by
  obtain ⟨⟨⟩, h1, h⟩ := bind_eq_ok h
  obtain ⟨r, h2, h⟩ := bind_eq_ok h
  obtain ⟨_, h3, h⟩ := bind_eq_ok h
  cases h
  exact ⟨(prCfg_ok_iff s).1 h1, r, h2, checkSize_ok h3, rfl⟩

/-- The words of REC that no record reaches. -/
theorem not_reached {counts : List Nat} {j : Nat}
    (h : (33 ≤ j ∧ j ≤ 39) ∨ (40 ≤ j ∧ (j - 40) % 8 = 7) ∨ Config.recWords ≤ j) :
    ¬ (prHolds counts j = true ∨ prUnused counts j = true) := by
  have hw : Config.recWords = 328 := rfl
  unfold prHolds prUnused
  simp only [Bool.or_eq_true, Bool.and_eq_true, decide_eq_true_eq]
  omega

theorem itemField_legal {counts : List Nat} {it : PrItem} (h : it ∈ prLead ++ prBody counts) :
    errFieldLegal it.kind.field := by
  rcases List.mem_append.1 h with h | h
  · have : ∀ it ∈ prLead, errFieldLegal it.kind.field := by decide
    exact this it h
  rcases List.mem_append.1 h with h | h
  · have : ∀ it ∈ prPlatform, errFieldLegal it.kind.field := by decide
    exact this it h
  · obtain ⟨c, _, h⟩ := List.mem_flatMap.1 h
    rcases List.mem_append.1 h with h | h
    · obtain ⟨r, _, h⟩ := List.mem_flatMap.1 h
      simp only [prReturn, List.mem_cons, List.not_mem_nil, or_false] at h
      rcases h with rfl | rfl | rfl | rfl | rfl | rfl | rfl <;> simp [PrKind.field, errFieldLegal]
    · rw [List.mem_singleton.1 h]
      simp [PrKind.field, errFieldLegal]

/-- What PR_ENC can report. -/
theorem prEnc_error {s : State} {e : CmdError} (h : prEnc s = .error e) : prCfg s = .error e ∨ DataError e := by
  rcases bind_eq_error h with h | ⟨_, _, h⟩
  · exact .inl h
  right
  rcases bind_eq_error h with h | ⟨_, _, h⟩
  · rcases bind_eq_error h with h | ⟨_, _, h⟩
    · exact .of (checkCounts_error h) (by decide) (by decide)
    rcases bind_eq_error h with h | ⟨_, _, h⟩
    · obtain ⟨it, hi, rfl⟩ := encItems_error h
      exact .range (itemField_legal hi) _ _
    · cases h
  rcases bind_eq_error h with h | ⟨_, _, h⟩
  · rcases writeRecord_error h with rfl | rfl
    · exact .range (by decide) _ _
    · exact .overrun _ _
  · cases h

theorem decItems_error {s : State} {plat plon : Int} {its : List PrItem} {pos : Nat} {e : CmdError}
    (h : decItems s plat plon its pos = .error e) : DataError e := by
  induction its generalizing pos with
  | nil => cases h
  | cons it its ih =>
    rcases bind_eq_error h with h | ⟨⟨_, _⟩, _, h⟩
    · exact .of_take h
    rcases bind_eq_error h with h | ⟨⟨_, _⟩, _, h⟩
    · exact ih h
    · cases h

theorem takeCounts_error {st : Stream} {k c pos : Nat} {e : CmdError} (h : takeCounts st k c pos = .error e) :
    DataError e := by
  induction k generalizing c pos with
  | zero => cases h
  | succ k ih =>
    rcases bind_eq_error h with h | ⟨⟨_, _⟩, _, h⟩
    · exact .of_take h
    rcases bind_eq_error h with h | ⟨_, _, h⟩
    · rw [(require_error h).2]
      exact ⟨by simp, by simp [errFieldLegal]⟩
    rcases bind_eq_error h with h | ⟨⟨_, _⟩, _, h⟩
    · exact ih h
    · cases h

/-- What PR_DEC can report. -/
theorem prDec_error {s : State} {e : CmdError} (h : prDec s = .error e) : prCfg s = .error e ∨ DataError e := by
  rcases bind_eq_error h with h | ⟨_, _, h⟩
  · exact .inl h
  right
  rcases bind_eq_error h with h | ⟨_, _, h⟩
  · refine (bind_eq_error h).elim .of_take fun ⟨_, _, h⟩ => (bind_eq_error h).elim takeCounts_error fun ⟨_, _, h⟩ =>
      (bind_eq_error h).elim decItems_error fun ⟨_, _, h⟩ => (bind_eq_error h).elim decItems_error
        fun ⟨_, _, h⟩ => by cases h
  exact (bind_eq_error h).elim (fun h => .of (checkSize_error h) (by decide) (by decide)) fun ⟨_, _, h⟩ => by cases h

/-! ### Bounds (R232) -/

theorem s64_minS (a b : Word) : s64 (minS a b) = min (s64 a) (s64 b) := by
  unfold minS
  split
  · exact (min_eq_left ‹_›).symm
  · exact (min_eq_right (le_of_lt (not_le.1 ‹_›))).symm

theorem s64_maxS (a b : Word) : s64 (maxS a b) = max (s64 a) (s64 b) := by
  unfold maxS
  split
  · exact (max_eq_right ‹_›).symm
  · exact (max_eq_left (le_of_lt (not_le.1 ‹_›))).symm

/-- R232: a list of positions enters the bounds one after another; the platform bounds do not move. -/
theorem foldl_addReturn (f g : Nat × Nat → Word) (l : List (Nat × Nat)) (b : Bounds) :
    let b' := l.foldl (fun b cr => b.addReturn (f cr) (g cr)) b
    s64 b'.minLat = (l.map fun cr => s64 (f cr)).foldl min (s64 b.minLat) ∧
      s64 b'.maxLat = (l.map fun cr => s64 (f cr)).foldl max (s64 b.maxLat) ∧
      s64 b'.minLon = (l.map fun cr => s64 (g cr)).foldl min (s64 b.minLon) ∧
      s64 b'.maxLon = (l.map fun cr => s64 (g cr)).foldl max (s64 b.maxLon) ∧
      b'.minPlat = b.minPlat ∧ b'.maxPlat = b.maxPlat ∧ b'.minPlon = b.minPlon ∧ b'.maxPlon = b.maxPlon := by
  induction l generalizing b with
  | nil => simp
  | cons cr l ih =>
    obtain ⟨h1, h2, h3, h4, h5, h6, h7, h8⟩ := ih (b.addReturn (f cr) (g cr))
    simp only [List.foldl_cons, List.map_cons]
    rw [h1, h2, h3, h4]
    simp only [h5, h6, h7, h8]
    simp only [Bounds.addReturn, s64_minS, s64_maxS, and_self]

end Sys2Proof.Machine
end

