-- ==== Sys2Proof/Laws/Waveform.lean ====
section
/-! SUPPORT. What the packet compressor's shared functions can do (R171 to R180): every field fits its width, the selection
takes the first of the smallest types, decoding the fields of a type gives the samples back, and what decoding any packet
can answer. -/

namespace Sys2Proof.Machine

/-! ### Lists of differences -/

theorem minInt_le {ds : List Int} {d : Int} (h : d ∈ ds) : minInt ds ≤ d := by
  induction ds with
  | nil => cases h
  | cons x xs ih =>
    cases xs with
    | nil => simp_all [minInt]
    | cons y ys =>
      rw [minInt]
      · rcases List.mem_cons.1 h with rfl | h
        · exact min_le_left _ _
        · exact le_trans (min_le_right _ _) (ih h)
      · simp

theorem minInt_mem {ds : List Int} (h : ds ≠ []) : minInt ds ∈ ds := by
  induction ds with
  | nil => exact absurd rfl h
  | cons x xs ih =>
    cases xs with
    | nil => simp [minInt]
    | cons y ys =>
      rw [minInt]
      · rcases min_choice x (minInt (y :: ys)) with e | e <;> rw [e]
        · exact List.mem_cons_self ..
        · exact List.mem_cons_of_mem _ (ih (by simp))
      · simp

theorem le_maxNat {es : List Nat} {e : Nat} (h : e ∈ es) : e ≤ maxNat es := by
  induction es with
  | nil => cases h
  | cons x xs ih =>
    rcases List.mem_cons.1 h with rfl | h
    · exact le_max_left _ _
    · exact le_trans (ih h) (le_max_right _ _)

theorem maxNat_le {es : List Nat} {b : Nat} (h : ∀ e ∈ es, e ≤ b) : maxNat es ≤ b := by
  induction es with
  | nil => exact Nat.zero_le _
  | cons x xs ih =>
    exact max_le (h x (List.mem_cons_self ..)) (ih fun e he => h e (List.mem_cons_of_mem _ he))

@[simp] theorem length_diffs (xs : List Int) : (diffs xs).length = xs.length - 1 := by
  induction xs with
  | nil => rfl
  | cons a t ih =>
    cases t with
    | nil => rfl
    | cons b t => simp only [diffs, List.length_cons, ih]; simp

/-- R172, R173: differences of values between `lo` and `hi`. -/
theorem diffs_bound {lo hi : Int} {xs : List Int} (h : ∀ x ∈ xs, lo ≤ x ∧ x ≤ hi) :
    ∀ d ∈ diffs xs, lo - hi ≤ d ∧ d ≤ hi - lo := by
  induction xs with
  | nil => simp [diffs]
  | cons a t ih =>
    cases t with
    | nil => simp [diffs]
    | cons b t =>
      intro d hd
      rcases List.mem_cons.1 hd with rfl | hd
      · have h1 := h a (by simp)
        have h2 := h b (by simp)
        omega
      · exact ih (fun x hx => h x (List.mem_cons_of_mem _ hx)) d hd

/-- R178: cumulative sums undo differences. -/
theorem cumSum_diffs (a : Int) (t : List Int) : cumSum a (diffs (a :: t)) = a :: t := by
  induction t generalizing a with
  | nil => rfl
  | cons b t ih => rw [diffs, cumSum, show a + (b - a) = b by omega, ih]

theorem length_cumSum (a : Int) (ds : List Int) : (cumSum a ds).length = ds.length + 1 := by
  induction ds generalizing a with
  | nil => rfl
  | cons d ds ih => simp [cumSum, ih]

@[simp] theorem length_offsetList (ds : List Int) : (offsetList ds).length = ds.length := by simp [offsetList]

theorem offset_nonneg {ds : List Int} {d : Int} (h : d ∈ ds) : 0 ≤ d + offsetOf ds := by
  have := minInt_le h
  unfold offsetOf
  omega

/-- R178: removing the offset undoes adding it. -/
theorem unoffset_offsetList (ds : List Int) : unoffset (offsetOf ds) (offsetList ds) = ds := by
  unfold unoffset offsetList
  rw [List.map_map]
  conv_rhs => rw [← List.map_id ds]
  apply List.map_congr_left
  intro d hd
  have := offset_nonneg hd
  simp only [Function.comp, id]
  omega

theorem offsetList_lt {ds : List Int} {e : Nat} (h : e ∈ offsetList ds) : e < 2 ^ deltaWidth ds :=
  lt_of_le_of_lt (le_maxNat h) (lt_two_pow_bitsNeeded _)

theorem offsetOf_bound {ds : List Int} {lo hi : Int} (hne : ds ≠ []) (h : ∀ d ∈ ds, lo ≤ d ∧ d ≤ hi) :
    -hi ≤ offsetOf ds ∧ offsetOf ds ≤ -lo := by
  have := h _ (minInt_mem hne)
  unfold offsetOf
  omega

theorem offsetList_le {ds : List Int} {lo hi : Int} (hne : ds ≠ []) (h : ∀ d ∈ ds, lo ≤ d ∧ d ≤ hi) {e : Nat}
    (he : e ∈ offsetList ds) : (e : Int) ≤ hi - lo := by
  obtain ⟨d, hd, rfl⟩ := List.mem_map.1 he
  have h1 := h d hd
  have h2 := offsetOf_bound hne h
  have h3 := offset_nonneg hd
  omega

/-- R175: the delta width of differences in a range of `n` values. -/
theorem deltaWidth_le {ds : List Int} {lo hi : Int} {b : Nat} (hne : ds ≠ []) (h : ∀ d ∈ ds, lo ≤ d ∧ d ≤ hi)
    (hb : hi - lo < 2 ^ b) : deltaWidth ds ≤ b := by
  unfold deltaWidth
  rw [bitsNeeded_le_iff]
  have hp : (0 : Int) < 2 ^ b := by positivity
  have : maxNat (offsetList ds) ≤ (hi - lo).toNat := maxNat_le fun e he => by
    have := offsetList_le hne h he
    omega
  have h0 : 0 ≤ hi - lo := by
    obtain ⟨d, hd⟩ := List.exists_mem_of_ne_nil _ hne
    have := h d hd
    omega
  zify
  zify at this
  omega

theorem fieldsWidth_deltaFields (ds : List Int) : fieldsWidth (deltaFields ds) = ds.length * deltaWidth ds := by
  rw [deltaFields, fieldsWidth_map_const, length_offsetList]

theorem deltaFields_fit {ds : List Int} : ∀ f ∈ deltaFields ds, f.2 < 2 ^ f.1 := by
  intro f hf
  obtain ⟨e, he, rfl⟩ := List.mem_map.1 hf
  exact offsetList_lt he

/-! ### Packets -/

@[simp] theorem length_toInts (s : List Nat) : (toInts s).length = s.length := by simp [toInts]

theorem toInts_bound {s : List Nat} (h : samplesLegal s) : ∀ x ∈ toInts s, (0 : Int) ≤ x ∧ x ≤ 1023 := by
  intro x hx
  obtain ⟨n, hn, rfl⟩ := List.mem_map.1 hx
  have := h n hn
  simp only [Config.maxSample] at this
  omega

theorem ne_nil_of_length {α : Type} {l : List α} {n : Nat} (h : l.length = n + 1) : l ≠ [] := by
  rintro rfl
  simp at h

theorem firstDiffs_length {s : List Nat} (h : s.length = 64) : (firstDiffs s).length = 63 := by
  simp [firstDiffs, h]

theorem firstDiffs_bound {s : List Nat} (h : samplesLegal s) : ∀ d ∈ firstDiffs s, (-1023 : Int) ≤ d ∧ d ≤ 1023 := by
  have := diffs_bound (toInts_bound h)
  simpa [firstDiffs] using this

theorem secondDiffs_length {s : List Nat} (h : s.length = 64) : (diffs (firstDiffs s)).length = 62 := by
  simp [firstDiffs_length h]

theorem secondDiffs_bound {s : List Nat} (h : samplesLegal s) :
    ∀ d ∈ diffs (firstDiffs s), (-2046 : Int) ≤ d ∧ d ≤ 2046 := by
  have := diffs_bound (firstDiffs_bound h)
  simpa using this

theorem length_crossDiffs {s r : List Nat} (h : s.length = 64) (hr : r.length = 64) :
    (crossDiffs s r).length = 64 := by simp [crossDiffs, h, hr]

theorem mem_crossDiffs {s r : List Nat} {d : Int} (h : d ∈ crossDiffs s r) :
    ∃ a ∈ s, ∃ b ∈ r, d = (a : Int) - b := by
  unfold crossDiffs at h
  rw [List.mem_iff_getElem] at h
  obtain ⟨i, hi, rfl⟩ := h
  rw [List.getElem_zipWith]
  exact ⟨_, List.getElem_mem _, _, List.getElem_mem _, rfl⟩

/-- R178, type 3: adding the reference undoes subtracting it. -/
theorem zipWith_crossDiffs {s r : List Nat} (h : s.length = r.length) :
    List.zipWith (fun (a : Nat) (x : Int) => (a : Int) + x) r (crossDiffs s r) = toInts s := by
  unfold crossDiffs toInts
  induction s generalizing r with
  | nil => cases r <;> simp_all
  | cons a s ih =>
    cases r with
    | nil => simp at h
    | cons b r =>
      simp only [List.zipWith_cons_cons, List.map_cons, List.cons.injEq]
      exact ⟨by omega, ih (by simpa using h)⟩

theorem fieldsWidth_type0 {s : List Nat} (h : s.length = 64) : fieldsWidth (type0 s) = 643 := by
  rw [type0, fieldsWidth_cons, fieldsWidth_map_const Config.smpw (fun x => x), h]
  rfl

theorem fieldsWidth_type1 {s : List Nat} (h : s.length = 64) :
    fieldsWidth (type1 s) = 28 + 63 * deltaWidth (firstDiffs s) := by
  simp only [type1, fieldsWidth_cons, fieldsWidth_deltaFields, firstDiffs_length h]
  omega

theorem fieldsWidth_type2 {s : List Nat} (h : s.length = 64) :
    fieldsWidth (type2 s) = 51 + 62 * deltaWidth (diffs (firstDiffs s)) := by
  simp only [type2, fieldsWidth_cons, fieldsWidth_deltaFields, secondDiffs_length h]
  omega

theorem fieldsWidth_type3 {s r : List Nat} (h : s.length = 64) (hr : r.length = 64) :
    fieldsWidth (type3 s r) = 18 + 64 * deltaWidth (crossDiffs s r) := by
  simp only [type3, fieldsWidth_cons, fieldsWidth_deltaFields, length_crossDiffs h hr]
  omega

theorem headD_le {s : List Nat} (h : samplesLegal s) : s.headD 0 ≤ 1023 := by
  cases s with
  | nil => simp
  | cons a t => exact h a (by simp)

theorem crossDiffs_bound {s r : List Nat} (h : samplesLegal s) (hr : samplesLegal r) :
    ∀ d ∈ crossDiffs s r, (-1023 : Int) ≤ d ∧ d ≤ 1023 := by
  intro d hd
  obtain ⟨a, ha, b, hb, rfl⟩ := mem_crossDiffs hd
  have h1 := h a ha
  have h2 := hr b hb
  simp only [Config.maxSample] at h1 h2
  omega

/-- R175: the delta widths of legal packets. -/
theorem width1_le {s : List Nat} (h : packetLegal s) : deltaWidth (firstDiffs s) ≤ 11 :=
  deltaWidth_le (ne_nil_of_length (firstDiffs_length h.1)) (firstDiffs_bound h.2) (by norm_num)

theorem width2_le {s : List Nat} (h : packetLegal s) : deltaWidth (diffs (firstDiffs s)) ≤ 12 :=
  deltaWidth_le (ne_nil_of_length (secondDiffs_length h.1)) (secondDiffs_bound h.2) (by norm_num)

theorem width3_le {s r : List Nat} (h : packetLegal s) (hr : packetLegal r) : deltaWidth (crossDiffs s r) ≤ 11 :=
  deltaWidth_le (ne_nil_of_length (length_crossDiffs h.1 hr.1)) (crossDiffs_bound h.2 hr.2) (by norm_num)

/-- R175: "every field's value fits its width", for types 0 to 2. -/
theorem type0_fit {s : List Nat} (h : packetLegal s) : ∀ f ∈ type0 s, f.2 < 2 ^ f.1 := by
  intro f hf
  rcases List.mem_cons.1 hf with rfl | hf
  · norm_num
  · obtain ⟨x, hx, rfl⟩ := List.mem_map.1 hf
    have := h.2 x hx
    simp only [Config.maxSample, Config.smpw] at *
    omega

theorem type1_fit {s : List Nat} (h : packetLegal s) : ∀ f ∈ type1 s, f.2 < 2 ^ f.1 := by
  have h1 := headD_le h.2
  have h2 := offsetOf_bound (ne_nil_of_length (firstDiffs_length h.1)) (firstDiffs_bound h.2)
  have h3 := width1_le h
  intro f hf
  simp only [type1, List.mem_cons] at hf
  rcases hf with rfl | rfl | rfl | rfl | hf
  · norm_num
  · simp only; omega
  · simp only; omega
  · simp only; omega
  · exact deltaFields_fit f hf

theorem type2_fit {s : List Nat} (h : packetLegal s) : ∀ f ∈ type2 s, f.2 < 2 ^ f.1 := by
  have hne := ne_nil_of_length (firstDiffs_length h.1)
  have h1 := headD_le h.2
  have h2 := offsetOf_bound hne (firstDiffs_bound h.2)
  have h3 := width2_le h
  have h4 := offsetOf_bound (ne_nil_of_length (secondDiffs_length h.1)) (secondDiffs_bound h.2)
  have h5 : (offsetList (firstDiffs s)).headD 0 ≤ 2046 := by
    cases he : offsetList (firstDiffs s) with
    | nil => simp
    | cons e es =>
      have := offsetList_le hne (firstDiffs_bound h.2) (e := e) (by rw [he]; simp)
      simp only [List.headD_cons]
      omega
  intro f hf
  simp only [type2, List.mem_cons] at hf
  rcases hf with rfl | rfl | rfl | rfl | rfl | rfl | hf
  · norm_num
  · simp only; omega
  · simp only; omega
  · simp only; omega
  · simp only; omega
  · simp only; omega
  · exact deltaFields_fit f hf

theorem type3_fit {s r : List Nat} (h : packetLegal s) (hr : packetLegal r) : ∀ f ∈ type3 s r, f.2 < 2 ^ f.1 := by
  have h2 := offsetOf_bound (ne_nil_of_length (length_crossDiffs h.1 hr.1)) (crossDiffs_bound h.2 hr.2)
  have h3 := width3_le h hr
  intro f hf
  simp only [type3, List.mem_cons] at hf
  rcases hf with rfl | rfl | rfl | hf
  · norm_num
  · simp only; omega
  · simp only; omega
  · exact deltaFields_fit f hf

/-- R175: every field's value fits its width, for every type that can be chosen. -/
theorem typeFields_fit {t : Nat} {s r : List Nat} (h : packetLegal s) (hr : t ≤ 2 ∨ packetLegal r) :
    ∀ f ∈ typeFields t s r, f.2 < 2 ^ f.1 := by
  unfold typeFields
  split
  · exact type0_fit h
  · exact type1_fit h
  · exact type2_fit h
  · rename_i h0 h1 h2
    exact type3_fit h (hr.resolve_left fun hle => by
      have : t = 0 ∨ t = 1 ∨ t = 2 := by omega
      rcases this with e | e | e
      · exact h0 e
      · exact h1 e
      · exact h2 e)

/-! ### Selection (R177) -/

/-- `smallest` keeps the first of the smallest candidates. -/
theorem smallest_spec (best : Nat × List Field) (cs : List (Nat × List Field)) :
    smallest best cs ∈ best :: cs ∧ (∀ c ∈ best :: cs, packetSize (smallest best cs).2 ≤ packetSize c.2) ∧
      (smallest best cs = best ∨ packetSize (smallest best cs).2 < packetSize best.2) := by
  induction cs generalizing best with
  | nil => simp [smallest]
  | cons c cs ih =>
    rw [smallest]
    split
    · rename_i hlt
      obtain ⟨h1, h2, h3⟩ := ih c
      refine ⟨List.mem_cons_of_mem _ h1, fun d hd => ?_, .inr ?_⟩
      · rcases List.mem_cons.1 hd with rfl | hd
        · have := h2 c (List.mem_cons_self ..)
          omega
        · exact h2 d hd
      · have := h2 c (List.mem_cons_self ..)
        omega
    · rename_i hlt
      obtain ⟨h1, h2, h3⟩ := ih best
      refine ⟨?_, fun d hd => ?_, h3⟩
      · rcases List.mem_cons.1 h1 with e | h1
        · rw [e]
          exact List.mem_cons_self ..
        · exact List.mem_cons_of_mem _ (List.mem_cons_of_mem _ h1)
      · rcases List.mem_cons.1 hd with rfl | hd
        · exact h2 d (List.mem_cons_self ..)
        · rcases List.mem_cons.1 hd with rfl | hd
          · have := h2 best (List.mem_cons_self ..)
            omega
          · exact h2 d (List.mem_cons_of_mem _ hd)

/-- The chosen type is unique. -/
theorem typeChosen_unique {t u : Nat} {refOK : Bool} {s r : List Nat} (ht : typeChosen t refOK s r)
    (hu : typeChosen u refOK s r) : t = u := by
  rcases Nat.lt_trichotomy t u with h | h | h
  · have h1 := (hu.2 t ht.1).2 h
    have h2 := (ht.2 u hu.1).1
    omega
  · exact h
  · have h1 := (ht.2 u hu.1).2 h
    have h2 := (hu.2 t ht.1).1
    omega

/-- R177: the selection is the chosen type with its fields. -/
theorem pktSelect_spec (s : List Nat) (r : Option (List Nat)) :
    ∃ t, pktSelect s r = (t, typeFields t s (r.getD [])) ∧ typeChosen t r.isSome s (r.getD []) := by
  have three : ∀ n : Nat, n ≤ 2 ↔ n = 0 ∨ n = 1 ∨ n = 2 := fun n => by omega
  cases r with
  | none =>
    have e : pktSelect s none = smallest (0, type0 s) [(1, type1 s), (2, type2 s)] := rfl
    rw [e]
    simp only [smallest]
    split
    · split
      · refine ⟨2, rfl, .inl (by omega), fun u hu => ?_⟩
        rcases hu with hu | hu
        · rcases (three u).1 hu with rfl | rfl | rfl <;> simp only [typeFields] <;> constructor <;> omega
        · simp at hu
      · refine ⟨1, rfl, .inl (by omega), fun u hu => ?_⟩
        rcases hu with hu | hu
        · rcases (three u).1 hu with rfl | rfl | rfl <;> simp only [typeFields] <;> constructor <;> omega
        · simp at hu
    · split
      · refine ⟨2, rfl, .inl (by omega), fun u hu => ?_⟩
        rcases hu with hu | hu
        · rcases (three u).1 hu with rfl | rfl | rfl <;> simp only [typeFields] <;> constructor <;> omega
        · simp at hu
      · refine ⟨0, rfl, .inl (by omega), fun u hu => ?_⟩
        rcases hu with hu | hu
        · rcases (three u).1 hu with rfl | rfl | rfl <;> simp only [typeFields] <;> constructor <;> omega
        · simp at hu
  | some r =>
    have e : pktSelect s (some r) = smallest (0, type0 s) [(1, type1 s), (2, type2 s), (3, type3 s r)] := rfl
    rw [e]
    have fin : ∀ t, t ≤ 3 → (∀ u, u ≤ 3 → packetSize (typeFields t s r) ≤ packetSize (typeFields u s r) ∧
        (u < t → packetSize (typeFields t s r) < packetSize (typeFields u s r))) → typeChosen t true s r := by
      intro t ht h
      refine ⟨by unfold typeApplies; simp only [and_true]; omega, fun u hu => h u ?_⟩
      unfold typeApplies at hu
      omega
    have four : ∀ n : Nat, n ≤ 3 → n = 0 ∨ n = 1 ∨ n = 2 ∨ n = 3 := fun n h => by omega
    simp only [smallest, Option.getD_some, Option.isSome_some]
    split
    · split
      · split
        · refine ⟨3, rfl, fin _ (by omega) fun u hu => ?_⟩
          rcases four u hu with rfl | rfl | rfl | rfl <;> simp only [typeFields] <;> constructor <;> omega
        · refine ⟨2, rfl, fin _ (by omega) fun u hu => ?_⟩
          rcases four u hu with rfl | rfl | rfl | rfl <;> simp only [typeFields] <;> constructor <;> omega
      · split
        · refine ⟨3, rfl, fin _ (by omega) fun u hu => ?_⟩
          rcases four u hu with rfl | rfl | rfl | rfl <;> simp only [typeFields] <;> constructor <;> omega
        · refine ⟨1, rfl, fin _ (by omega) fun u hu => ?_⟩
          rcases four u hu with rfl | rfl | rfl | rfl <;> simp only [typeFields] <;> constructor <;> omega
    · split
      · split
        · refine ⟨3, rfl, fin _ (by omega) fun u hu => ?_⟩
          rcases four u hu with rfl | rfl | rfl | rfl <;> simp only [typeFields] <;> constructor <;> omega
        · refine ⟨2, rfl, fin _ (by omega) fun u hu => ?_⟩
          rcases four u hu with rfl | rfl | rfl | rfl <;> simp only [typeFields] <;> constructor <;> omega
      · split
        · refine ⟨3, rfl, fin _ (by omega) fun u hu => ?_⟩
          rcases four u hu with rfl | rfl | rfl | rfl <;> simp only [typeFields] <;> constructor <;> omega
        · refine ⟨0, rfl, fin _ (by omega) fun u hu => ?_⟩
          rcases four u hu with rfl | rfl | rfl | rfl <;> simp only [typeFields] <;> constructor <;> omega

/-! ### Checks -/

/-- R180: the sample check passes exactly on legal samples. -/
theorem checkSamples_ok_iff (c p i : Nat) (xs : List Nat) : checkSamples c p i xs = .ok () ↔ samplesLegal xs := by
  induction xs generalizing i with
  | nil => simp [checkSamples, samplesLegal]
  | cons x xs ih =>
    rw [checkSamples]
    by_cases h : x ≤ Config.maxSample
    · rw [require_of h, bind_ok, ih]
      simp [samplesLegal, h]
    · rw [require_of_not h, bind_error]
      simp [samplesLegal, h]

/-- R180: the first sample above 1023 is the one reported. -/
theorem checkSamples_first {c p i : Nat} {xs : List Nat} {k : Nat} (hk : k < xs.length)
    (h : ∀ j, j < k → xs.getD j 0 ≤ Config.maxSample) (hbad : Config.maxSample < xs.getD k 0) :
    checkSamples c p i xs = .error (rangeError 41#8 (errIdx c p (i + k)) (BitVec.ofNat 64 (xs.getD k 0))) := by
  induction xs generalizing i k with
  | nil => simp at hk
  | cons x xs ih =>
    rw [checkSamples]
    cases k with
    | zero =>
      have hx : Config.maxSample < x := by simpa using hbad
      rw [require_of_not (by omega), bind_error]
      simp
    | succ k =>
      have h0 : x ≤ Config.maxSample := by simpa using h 0 (by omega)
      rw [require_of h0, bind_ok, ih (by simpa using hk) (fun j hj => by simpa using h (j + 1) (by omega))
        (by simpa using hbad)]
      simp only [List.getD_cons_succ]
      congr 3
      omega

theorem checkSamples_error {c p i : Nat} {xs : List Nat} {e : CmdError} (h : checkSamples c p i xs = .error e) :
    e.kind = .valueOutOfRange ∧ e.field = 41#8 := by
  induction xs generalizing i with
  | nil => cases h
  | cons x xs ih =>
    rcases bind_eq_error h with h | ⟨_, _, h⟩
    · rw [(require_error h).2]
      exact ⟨rfl, rfl⟩
    · exact ih h

/-- R178: reconstructed legal samples pass their check. -/
theorem checkDecoded_toInts {c p i : Nat} {xs : List Nat} (h : samplesLegal xs) :
    checkDecoded c p i (toInts xs) = .ok xs := by
  induction xs generalizing i with
  | nil => rfl
  | cons x xs ih =>
    have hx := h x (by simp)
    show checkDecoded c p i ((x : Int) :: toInts xs) = _
    rw [checkDecoded, require_of ⟨by omega, by omega⟩, bind_ok, ih fun y hy => h y (List.mem_cons_of_mem _ hy), bind_ok,
      Int.toNat_natCast]

/-- R178: what passes the check is a legal list of the same length. -/
theorem checkDecoded_ok {c p i : Nat} {xs : List Int} {ys : List Nat} (h : checkDecoded c p i xs = .ok ys) :
    ys.length = xs.length ∧ samplesLegal ys := by
  induction xs generalizing i ys with
  | nil =>
    cases h
    simp [samplesLegal]
  | cons x xs ih =>
    obtain ⟨_, h1, h⟩ := bind_eq_ok h
    obtain ⟨zs, h2, h⟩ := bind_eq_ok h
    cases h
    obtain ⟨h3, h4⟩ := ih h2
    have := require_ok h1
    refine ⟨by simp [h3], fun y hy => ?_⟩
    rcases List.mem_cons.1 hy with rfl | hy
    · omega
    · exact h4 y hy

theorem checkDecoded_error {c p i : Nat} {xs : List Int} {e : CmdError} (h : checkDecoded c p i xs = .error e) :
    e.kind = .decodeError ∧ e.field = 41#8 := by
  induction xs generalizing i with
  | nil => cases h
  | cons x xs ih =>
    rcases bind_eq_error h with h | ⟨_, _, h⟩
    · rw [(require_error h).2]
      exact ⟨rfl, rfl⟩
    · rcases bind_eq_error h with h | ⟨_, _, h⟩
      · exact ih h
      · cases h

/-- R178: the first rebuilt sample out of range is the one reported. -/
theorem checkDecoded_first {c p i : Nat} {xs : List Int} {k : Nat} (hk : k < xs.length)
    (h : ∀ j, j < k → sampleInRange (xs.getD j 0)) (hbad : ¬ sampleInRange (xs.getD k 0)) :
    checkDecoded c p i xs = .error ⟨.decodeError, 41#8, errIdx c p (i + k), wrap64 (xs.getD k 0)⟩ := by
  induction xs generalizing i k with
  | nil => simp at hk
  | cons x xs ih =>
    rw [checkDecoded]
    cases k with
    | zero =>
      rw [require_of_not (by simpa [Config.maxSample] using hbad), bind_error]
      simp
    | succ k =>
      have h0 : sampleInRange x := by simpa using h 0 (by omega)
      rw [require_of (by simpa [Config.maxSample] using h0), bind_ok,
        ih (by simpa using hk) (fun j hj => by simpa using h (j + 1) (by omega)) (by simpa using hbad), bind_error]
      simp only [List.getD_cons_succ]
      congr 3
      omega

/-! ### Decoding -/

theorem takeMany_deltaFields {st : Stream} {ds : List Int} {n pos : Nat} (hn : ds.length = n)
    (hf : fieldsAt st.mem pos (deltaFields ds)) (h : pos + n * deltaWidth ds ≤ st.limit) :
    takeMany st (deltaWidth ds) n pos = .ok (offsetList ds, pos + n * deltaWidth ds) := by
  have hl : (offsetList ds).length = n := by rw [length_offsetList, hn]
  have := takeMany_fields (vs := offsetList ds) hf (by rw [hl]; exact h)
  rwa [hl] at this

/-- A packet of 64 samples has a first one. -/
theorem toInts_cons {s : List Nat} (h : s.length = 64) : toInts s = (s.headD 0 : Int) :: (toInts s).tail := by
  cases s with
  | nil => simp at h
  | cons a t => rfl

theorem dec0_fields {st : Stream} {pos : Nat} {s : List Nat} (h : s.length = 64)
    (hf : fieldsAt st.mem pos (s.map fun x => (Config.smpw, x))) (hl : pos + 640 ≤ st.limit) :
    dec0 st pos = .ok (toInts s, pos + 640) := by
  have := takeMany_fields (w := Config.smpw) hf (by rw [h]; exact hl)
  rw [h] at this
  unfold dec0
  rw [this, bind_ok]
  rfl

theorem dec1_fields {st : Stream} {pos : Nat} {s : List Nat} (h : packetLegal s)
    (hf : fieldsAt st.mem pos (type1 s).tail) (hl : pos + 25 + 63 * deltaWidth (firstDiffs s) ≤ st.limit) :
    dec1 st pos = .ok (toInts s, pos + 25 + 63 * deltaWidth (firstDiffs s)) := by
  obtain ⟨f1, f2, f3, f4⟩ := hf
  have ho := offsetOf_bound (ne_nil_of_length (firstDiffs_length h.1)) (firstDiffs_bound h.2)
  unfold dec1
  dsimp only at f1 f2 f3 f4
  simp (disch := omega) only [take_of_le, bind_ok]
  rw [f1, f2, f3, takeMany_deltaFields (firstDiffs_length h.1) f4 (by omega), bind_ok]
  dsimp only
  rw [show (((offsetOf (firstDiffs s) + 1023).toNat : Nat) : Int) - 1023 = offsetOf (firstDiffs s) by omega,
    unoffset_offsetList]
  have e : firstDiffs s = diffs ((s.headD 0 : Int) :: (toInts s).tail) := by rw [← toInts_cons h.1]; rfl
  rw [e, cumSum_diffs, ← toInts_cons h.1]

theorem dec2_fields {st : Stream} {pos : Nat} {s : List Nat} (h : packetLegal s)
    (hf : fieldsAt st.mem pos (type2 s).tail) (hl : pos + 48 + 62 * deltaWidth (diffs (firstDiffs s)) ≤ st.limit) :
    dec2 st pos = .ok (toInts s, pos + 48 + 62 * deltaWidth (diffs (firstDiffs s))) := by
  obtain ⟨f1, f2, f3, f4, f5, f6⟩ := hf
  have hne := ne_nil_of_length (firstDiffs_length h.1)
  have ho := offsetOf_bound hne (firstDiffs_bound h.2)
  have ho2 := offsetOf_bound (ne_nil_of_length (secondDiffs_length h.1)) (secondDiffs_bound h.2)
  unfold dec2
  dsimp only at f1 f2 f3 f4 f5 f6
  simp (disch := omega) only [take_of_le, bind_ok]
  rw [f1, f2, f3, f4, f5, takeMany_deltaFields (secondDiffs_length h.1) f6 (by omega), bind_ok]
  dsimp only
  rw [show (((offsetOf (firstDiffs s) + 1023).toNat : Nat) : Int) - 1023 = offsetOf (firstDiffs s) by omega,
    show (((offsetOf (diffs (firstDiffs s)) + 2046).toNat : Nat) : Int) - 2046 = offsetOf (diffs (firstDiffs s)) by omega,
    unoffset_offsetList]
  have hd : cumSum ((((offsetList (firstDiffs s)).headD 0 : Nat) : Int) - offsetOf (firstDiffs s))
      (diffs (firstDiffs s)) = firstDiffs s := by
    cases hc : firstDiffs s with
    | nil => exact absurd hc hne
    | cons d ds =>
      have := offset_nonneg (d := d) (ds := d :: ds) (by simp)
      have e : (((offsetList (d :: ds)).headD 0 : Nat) : Int) - offsetOf (d :: ds) = d := by
        simp only [offsetList, List.map_cons, List.headD_cons]
        omega
      rw [e, cumSum_diffs]
  rw [hd]
  have e : firstDiffs s = diffs ((s.headD 0 : Int) :: (toInts s).tail) := by rw [← toInts_cons h.1]; rfl
  rw [e, cumSum_diffs, ← toInts_cons h.1]

theorem dec3_fields {st : Stream} {pos : Nat} {s r : List Nat} (h : packetLegal s) (hr : r.length = 64)
    (hf : fieldsAt st.mem pos (type3 s r).tail) (hl : pos + 15 + 64 * deltaWidth (crossDiffs s r) ≤ st.limit) :
    dec3 st r pos = .ok (toInts s, pos + 15 + 64 * deltaWidth (crossDiffs s r)) := by
  obtain ⟨f1, f2, f3⟩ := hf
  have hlen := length_crossDiffs h.1 hr
  have ho : -1023 ≤ offsetOf (crossDiffs s r) := by
    obtain ⟨a, ha, b, _, e⟩ := mem_crossDiffs (minInt_mem (ne_nil_of_length hlen))
    have := h.2 a ha
    simp only [Config.maxSample] at this
    unfold offsetOf
    omega
  unfold dec3
  dsimp only at f1 f2 f3
  simp (disch := omega) only [take_of_le, bind_ok]
  rw [f1, f2, takeMany_deltaFields hlen f3 (by omega), bind_ok]
  dsimp only
  rw [show (((offsetOf (crossDiffs s r) + 1023).toNat : Nat) : Int) - 1023 = offsetOf (crossDiffs s r) by omega,
    unoffset_offsetList, zipWith_crossDiffs (by rw [h.1, hr])]

/-- R178: decoding the fields of a packet, in any type acceptable there, gives its samples and its end. -/
theorem pktDec_fields {st : Stream} {refOK : Bool} {r : List Nat} {c p pos t : Nat} {s : List Nat}
    (h : packetLegal s) (hr : r.length = 64) (ht : typeApplies t refOK) (hf : fieldsAt st.mem pos (typeFields t s r))
    (hl : pos + fieldsWidth (typeFields t s r) ≤ st.limit) :
    pktDec st refOK r c p pos = .ok ⟨t, s, pos + fieldsWidth (typeFields t s r)⟩ := by
  have key : ∀ n, t < 8 → fieldsWidth (typeFields t s r) = 3 + n →
      bitRead st.mem pos 3 = t → decBody st refOK r c p t (pos + 3) = .ok (toInts s, pos + 3 + n) →
      pktDec st refOK r c p pos = .ok ⟨t, s, pos + fieldsWidth (typeFields t s r)⟩ := by
    intro n _ hn htag hb
    unfold pktDec
    rw [take_of_le (by omega), bind_ok]
    dsimp only
    rw [htag, hb, bind_ok]
    dsimp only
    rw [checkDecoded_toInts h.2, bind_ok, hn]
    congr 2
    omega
  have h4 : t = 0 ∨ t = 1 ∨ t = 2 ∨ (t = 3 ∧ refOK = true) := by
    rcases ht with ht | ht
    · omega
    · exact .inr (.inr (.inr ht))
  rcases h4 with rfl | rfl | rfl | ⟨rfl, hok⟩
  · have hw : fieldsWidth (typeFields 0 s r) = 643 := fieldsWidth_type0 h.1
    exact key 640 (by omega) hw hf.1 (dec0_fields h.1 hf.2 (by omega))
  · have hw : fieldsWidth (typeFields 1 s r) = _ := fieldsWidth_type1 h.1
    exact key (25 + 63 * deltaWidth (firstDiffs s)) (by omega) (by omega) hf.1
      (by rw [← Nat.add_assoc]; exact dec1_fields h hf.2 (by omega))
  · have hw : fieldsWidth (typeFields 2 s r) = _ := fieldsWidth_type2 h.1
    exact key (48 + 62 * deltaWidth (diffs (firstDiffs s))) (by omega) (by omega) hf.1
      (by rw [← Nat.add_assoc]; exact dec2_fields h hf.2 (by omega))
  · have hw : fieldsWidth (typeFields 3 s r) = _ := fieldsWidth_type3 h.1 hr
    refine key (15 + 64 * deltaWidth (crossDiffs s r)) (by omega) (by omega) hf.1 ?_
    rw [← Nat.add_assoc]
    show (if refOK = true then dec3 st r (pos + 3) else _) = _
    rw [if_pos hok]
    exact dec3_fields h hr hf.2 (by omega)

/-! ### What a decoded packet is -/

/-- R178: a cumulative sum, sample by sample. -/
theorem cumSum_map (a : Int) (f : Nat → Int) (n : Nat) : cumSum a ((List.range n).map f) =
    (List.range (n + 1)).map fun i => a + ∑ k ∈ Finset.range i, f k := by
  induction n generalizing a f with
  | zero => simp [cumSum]
  | succ n ih =>
    rw [List.range_succ_eq_map, List.map_cons, List.map_map, cumSum, ih, List.range_succ_eq_map (n := n + 1),
      List.map_cons, List.map_map, Finset.sum_range_zero, add_zero]
    congr 1
    apply List.map_congr_left
    intro i _
    simp only [Function.comp, Finset.sum_range_succ', Nat.succ_eq_add_one]
    omega

theorem unoffset_map (off : Int) (g : Nat → Nat) (n : Nat) :
    unoffset off ((List.range n).map g) = (List.range n).map fun k => (g k : Int) - off := by
  simp [unoffset]

theorem dec0_reads (st : Stream) (b : Nat) (r : List Nat) : Reads st (b + rebuiltBits st.mem b 0)
    ((List.range 64).map (rebuilt st.mem b 0 r), b + rebuiltBits st.mem b 0) (dec0 st (b + 3)) := by
  refine (takeMany_reads st Config.smpw 63 (b + 3)).bind (Nat.le_refl _) fun h => ?_
  dsimp only
  rw [toInts, List.map_map]
  exact .done h _

theorem dec1_reads (st : Stream) (b : Nat) (r : List Nat) : Reads st (b + rebuiltBits st.mem b 1)
    ((List.range 64).map (rebuilt st.mem b 1 r), b + rebuiltBits st.mem b 1) (dec1 st (b + 3)) := by
  have hn : b + rebuiltBits st.mem b 1 = b + 28 + (62 + 1) * bitRead st.mem (b + 24) 4 := by
    simp only [rebuiltBits]
    omega
  rw [hn]
  refine (take_reads st _ 10).bind (by omega) fun _ => (take_reads st _ 11).bind (by omega) fun _ =>
    (take_reads st _ 4).bind (by omega) fun _ => (takeMany_reads st _ 62 _).bind (Nat.le_refl _) fun h => ?_
  dsimp only
  rw [unoffset_map, cumSum_map]
  exact .done h _

theorem dec2_reads (st : Stream) (b : Nat) (r : List Nat) : Reads st (b + rebuiltBits st.mem b 2)
    ((List.range 64).map (rebuilt st.mem b 2 r), b + rebuiltBits st.mem b 2) (dec2 st (b + 3)) := by
  have hn : b + rebuiltBits st.mem b 2 = b + 51 + (61 + 1) * bitRead st.mem (b + 47) 4 := by
    simp only [rebuiltBits]
    omega
  rw [hn]
  refine (take_reads st _ 10).bind (by omega) fun _ => (take_reads st _ 11).bind (by omega) fun _ =>
    (take_reads st _ 11).bind (by omega) fun _ => (take_reads st _ 12).bind (by omega) fun _ =>
    (take_reads st _ 4).bind (by omega) fun _ => (takeMany_reads st _ 61 _).bind (Nat.le_refl _) fun h => ?_
  dsimp only
  rw [unoffset_map, cumSum_map, cumSum_map]
  exact .done h _

theorem dec3_reads (st : Stream) (b : Nat) (r : List Nat) :
    ∃ xs, Reads st (b + rebuiltBits st.mem b 3) (xs, b + rebuiltBits st.mem b 3) (dec3 st r (b + 3)) ∧
      (r.length = 64 → xs = (List.range 64).map (rebuilt st.mem b 3 r)) := by
  have hn : b + rebuiltBits st.mem b 3 = b + 18 + (63 + 1) * bitRead st.mem (b + 14) 4 := by
    simp only [rebuiltBits]
    omega
  let w := bitRead st.mem (b + 14) 4
  refine ⟨List.zipWith (fun (a : Nat) (x : Int) => (a : Int) + x) r ((List.range 64).map fun k =>
    (bitRead st.mem (b + 18 + w * k) w : Int) - ((bitRead st.mem (b + 3) 11 : Int) - 1023)), ?_, fun hr => ?_⟩
  · rw [hn]
    refine (take_reads st _ 11).bind (by omega) fun _ => (take_reads st _ 4).bind (by omega) fun _ =>
      (takeMany_reads st _ 63 _).bind (Nat.le_refl _) fun h => ?_
    dsimp only
    rw [unoffset_map]
    exact .done h _
  · apply List.ext_getElem
    · simp [hr]
    · intro i h1 h2
      have hi : i < r.length := by simp at h2; omega
      simp [rebuilt, w, List.getD_eq_getElem?_getD, List.getElem?_eq_getElem hi]

/-- R178, R179: everything the body of a packet can do, its tag at stream bit `b` being `t`. -/
theorem decBody_cases (st : Stream) (refOK : Bool) (r : List Nat) (c p b t : Nat) :
    (¬ typeApplies t refOK ∧ decBody st refOK r c p t (b + 3) = .error (tagError c p t)) ∨
      (typeApplies t refOK ∧ ∃ xs,
        Reads st (b + rebuiltBits st.mem b t) (xs, b + rebuiltBits st.mem b t) (decBody st refOK r c p t (b + 3)) ∧
          ((refOK = true → r.length = 64) → xs = (List.range 64).map (rebuilt st.mem b t r))) := by
  unfold decBody
  split
  · exact .inr ⟨.inl (by omega), _, dec0_reads st b r, fun _ => rfl⟩
  · exact .inr ⟨.inl (by omega), _, dec1_reads st b r, fun _ => rfl⟩
  · exact .inr ⟨.inl (by omega), _, dec2_reads st b r, fun _ => rfl⟩
  · by_cases hok : refOK = true
    · obtain ⟨xs, h, hx⟩ := dec3_reads st b r
      rw [if_pos hok]
      exact .inr ⟨.inr ⟨rfl, hok⟩, xs, h, fun hr => hx (hr hok)⟩
    · rw [if_neg hok]
      exact .inl ⟨by simp [typeApplies, hok], rfl⟩
  · rename_i h0 h1 h2 h3
    refine .inl ⟨?_, rfl⟩
    rintro (h | ⟨h, _⟩)
    · have : t = 0 ∨ t = 1 ∨ t = 2 := by omega
      rcases this with e | e | e
      · exact h0 e
      · exact h1 e
      · exact h2 e
    · exact h3 h

/-- R178, R179: everything `PktDec` can do at stream bit `b`. -/
theorem pktDec_cases (st : Stream) (refOK : Bool) (r : List Nat) (c p b : Nat) :
    let t := bitRead st.mem b 3
    (st.limit < b + 3 ∧ pktDec st refOK r c p b = .error (overrunError noIndex st.start)) ∨
      (b + 3 ≤ st.limit ∧ ¬ typeApplies t refOK ∧ pktDec st refOK r c p b = .error (tagError c p t)) ∨
      (b + 3 ≤ st.limit ∧ typeApplies t refOK ∧
        (st.limit < b + rebuiltBits st.mem b t ∧ pktDec st refOK r c p b = .error (overrunError noIndex st.start) ∨
          b + rebuiltBits st.mem b t ≤ st.limit ∧ ∃ xs, ((refOK = true → r.length = 64) →
              xs = (List.range 64).map (rebuilt st.mem b t r)) ∧
            pktDec st refOK r c p b = (checkDecoded c p 0 xs >>= fun s => .ok ⟨t, s, b + rebuiltBits st.mem b t⟩))) := by
  intro t
  unfold pktDec
  rcases take_reads st b 3 with ⟨h, e⟩ | ⟨h, e⟩ <;> rw [e]
  swap
  · exact .inl ⟨h, rfl⟩
  refine .inr ?_
  rw [bind_ok]
  dsimp only
  rw [show bitRead st.mem b 3 = t from rfl]
  rcases decBody_cases st refOK r c p b t with ⟨ha, e⟩ | ⟨ha, xs, hr, hx⟩
  · exact .inl ⟨h, ha, by rw [e, bind_error]⟩
  · refine .inr ⟨h, ha, ?_⟩
    rcases hr with ⟨hl, e⟩ | ⟨hl, e⟩
    · exact .inr ⟨hl, xs, hx, by rw [e, bind_ok]⟩
    · exact .inl ⟨hl, by rw [e, bind_error]⟩

/-- R178, R179: an answer of `PktDec` is 64 legal samples of an acceptable type, and a later position. -/
theorem pktDec_ok {st : Stream} {refOK : Bool} {r : List Nat} {c p pos : Nat} {pkt : Packet}
    (hr : refOK = true → r.length = 64) (h : pktDec st refOK r c p pos = .ok pkt) :
    packetLegal pkt.samples ∧ pos ≤ pkt.after ∧ typeApplies pkt.type refOK := by
  rcases pktDec_cases st refOK r c p pos with ⟨_, e⟩ | ⟨_, _, e⟩ | ⟨_, ha, ⟨_, e⟩ | ⟨_, xs, hx, e⟩⟩ <;> rw [e] at h
  · cases h
  · cases h
  · cases h
  · obtain ⟨ys, hy, h⟩ := bind_eq_ok h
    cases h
    obtain ⟨h1, h2⟩ := checkDecoded_ok hy
    exact ⟨⟨by rw [h1, hx hr, List.length_map, List.length_range], h2⟩, Nat.le_add_right _ _, ha⟩

/-- R178, R179, R65: the errors `PktDec` can raise. -/
theorem pktDec_error {st : Stream} {refOK : Bool} {r : List Nat} {c p pos : Nat} {e : CmdError}
    (h : pktDec st refOK r c p pos = .error e) :
    e = overrunError noIndex st.start ∨ (∃ t, e = tagError c p t) ∨ (e.kind = .decodeError ∧ e.field = 41#8) := by
  rcases pktDec_cases st refOK r c p pos with ⟨_, e'⟩ | ⟨_, _, e'⟩ | ⟨_, _, ⟨_, e'⟩ | ⟨_, xs, _, e'⟩⟩ <;> rw [e'] at h
  · cases h
    exact .inl rfl
  · cases h
    exact .inr (.inl ⟨_, rfl⟩)
  · cases h
    exact .inl rfl
  · rcases bind_eq_error h with h | ⟨_, _, h⟩
    · exact .inr (.inr (checkDecoded_error h))
    · cases h

theorem three_le_rebuiltBits (m : Memory 8) (b t : Nat) : 3 ≤ rebuiltBits m b t := by
  unfold rebuiltBits
  split <;> omega

/-- R178: an acceptable packet whose rebuilt samples are in range is those samples. -/
theorem pktDec_good {st : Stream} {refOK : Bool} {r : List Nat} {c p b : Nat} (hr : refOK = true → r.length = 64)
    (ha : typeApplies (bitRead st.mem b 3) refOK) (hl : b + rebuiltBits st.mem b (bitRead st.mem b 3) ≤ st.limit)
    (hgood : ∀ i, i < 64 → sampleInRange (rebuilt st.mem b (bitRead st.mem b 3) r i)) :
    let x := (List.range 64).map fun i => (rebuilt st.mem b (bitRead st.mem b 3) r i).toNat
    packetLegal x ∧ pktDec st refOK r c p b =
      .ok ⟨bitRead st.mem b 3, x, b + rebuiltBits st.mem b (bitRead st.mem b 3)⟩ := by
  intro x
  have hx : packetLegal x := by
    refine ⟨by simp [x], fun y hy => ?_⟩
    obtain ⟨i, hi, rfl⟩ := List.mem_map.1 hy
    have := hgood i (List.mem_range.1 hi)
    simp only [Config.maxSample]
    omega
  have e : (List.range 64).map (rebuilt st.mem b (bitRead st.mem b 3) r) = toInts x := by
    rw [toInts, List.map_map]
    apply List.map_congr_left
    intro i hi
    have := hgood i (List.mem_range.1 hi)
    simp only [Function.comp]
    omega
  have h3 := three_le_rebuiltBits st.mem b (bitRead st.mem b 3)
  rcases pktDec_cases st refOK r c p b with ⟨h, _⟩ | ⟨_, h, _⟩ | ⟨_, _, ⟨h, _⟩ | ⟨_, xs, hxs, e2⟩⟩
  · omega
  · exact absurd ha h
  · omega
  · exact ⟨hx, by rw [e2, hxs hr, e, checkDecoded_toInts hx.2, bind_ok]⟩

/-- R178: the first rebuilt sample out of range makes `PktDec` fail. -/
theorem pktDec_bad {st : Stream} {refOK : Bool} {r : List Nat} {c p b i : Nat} (hr : refOK = true → r.length = 64)
    (ha : typeApplies (bitRead st.mem b 3) refOK) (hl : b + rebuiltBits st.mem b (bitRead st.mem b 3) ≤ st.limit)
    (hi : i < 64) (hgood : ∀ j, j < i → sampleInRange (rebuilt st.mem b (bitRead st.mem b 3) r j))
    (hbad : ¬ sampleInRange (rebuilt st.mem b (bitRead st.mem b 3) r i)) :
    pktDec st refOK r c p b =
      .error ⟨.decodeError, 41#8, errIdx c p i, wrap64 (rebuilt st.mem b (bitRead st.mem b 3) r i)⟩ := by
  have h3 := three_le_rebuiltBits st.mem b (bitRead st.mem b 3)
  rcases pktDec_cases st refOK r c p b with ⟨h, _⟩ | ⟨_, h, _⟩ | ⟨_, _, ⟨h, _⟩ | ⟨_, xs, hx, e⟩⟩
  · omega
  · exact absurd ha h
  · omega
  · have hg : ∀ j, j < 64 → xs.getD j 0 = rebuilt st.mem b (bitRead st.mem b 3) r j := fun j hj => by
      rw [hx hr]
      simp [List.getD_eq_getElem?_getD, hj]
    rw [e, checkDecoded_first (k := i) (by rw [hx hr]; simpa using hi) (fun j hj => by rw [hg j (by omega)]; exact hgood j hj)
      (by rw [hg i hi]; exact hbad), bind_error, hg i hi, Nat.zero_add]

/-! ### SMP -/

@[simp] theorem length_samples (s : State) (c p : Nat) : (s.samples c p).length = 64 := by
  simp [State.samples, Config.nsmp]

theorem getD_samples (s : State) (c p : Nat) {i : Nat} (h : i < 64) :
    (s.samples c p).getD i 0 = (s.smpMem.get (smpAddr c p i)).toNat := by
  simp [State.samples, Config.nsmp, List.getD_eq_getElem?_getD, h]

theorem smpAddr_add (c p i : Nat) : smpAddr c p i = smpAddr c p 0 + i := by simp [smpAddr]

/-- The packets of the sample memory are disjoint. -/
theorem smpAddr_lt {c p i : Nat} (hc : c < 9) (hp : p < 14) (hi : i < 64) : smpAddr c p i < Config.smpWords := by
  simp only [smpAddr, Config.maxp, Config.nsmp, Config.smpWords]
  omega

theorem samples_congr {s t : State} {c p : Nat}
    (h : ∀ i, i < 64 → t.smpMem.get (smpAddr c p i) = s.smpMem.get (smpAddr c p i)) : t.samples c p = s.samples c p := by
  unfold State.samples
  apply List.map_congr_left
  intro i hi
  rw [h i (by simpa [Config.nsmp] using hi)]

/-- R201: the words a packet is stored as read back as its samples. -/
theorem samples_setRange {s t : State} {c p : Nat} {xs : List Nat} (h : packetLegal xs)
    (ht : t.smpMem = s.smpMem.setRange (smpAddr c p 0) (sampleWords xs)) : t.samples c p = xs := by
  apply List.ext_getElem
  · rw [length_samples, h.1]
  · intro i h1 h2
    have hi : i < 64 := by rwa [length_samples] at h1
    have hx := h.2 _ (List.getElem_mem h2)
    simp only [Config.maxSample] at hx
    have hl : (sampleWords xs).length = 64 := by rw [sampleWords, List.length_map, h.1]
    simp only [State.samples, List.getElem_map, List.getElem_range]
    rw [ht, smpAddr_add c p i, Memory.get_setRange, if_pos ⟨by omega, by omega⟩, Nat.add_sub_cancel_left]
    simp only [sampleWords, List.getD_eq_getElem?_getD, List.getElem?_map, List.getElem?_eq_getElem h2,
      Option.map_some, Option.getD_some, BitVec.toNat_ofNat]
    omega

/-! ### The packet commands -/

theorem reference_isSome (s : State) (c p : Nat) : (s.reference c p).isSome = refApplies c (s.present 1 p) := by
  unfold State.reference
  split <;> simp_all

theorem reference_getD (s : State) (c p : Nat) (h : refApplies c (s.present 1 p) = true) :
    (s.reference c p).getD [] = s.samples 1 p := by
  unfold State.reference
  rw [if_pos h]
  rfl

theorem checkReference_ok_iff (p : Nat) (r : Option (List Nat)) :
    checkReference p r = .ok () ↔ ∀ xs, r = some xs → samplesLegal xs := by
  cases r with
  | none => simp [checkReference]
  | some xs => simp [checkReference, checkSamples_ok_iff]

/-- The fields of a type that applies do not depend on how an absent reference is written. -/
theorem typeFields_reference {s : State} {c p t : Nat} (ht : typeApplies t (refApplies c (s.present 1 p))) (x : List Nat) :
    typeFields t x ((s.reference c p).getD []) = typeFields t x (s.samples 1 p) := by
  by_cases h : refApplies c (s.present 1 p) = true
  · rw [reference_getD s c p h]
  · rcases ht with ht | ht
    · have : t = 0 ∨ t = 1 ∨ t = 2 := by omega
      rcases this with rfl | rfl | rfl <;> rfl
    · exact absurd ht.2 h

/-- R200: everything a successful WF_PKT_ENC says. -/
theorem wfPktEnc_ok {c p : Nat} {s t : State} (h : wfPktEnc c p s = .ok t) :
    samplesLegal (s.samples c p) ∧ (refApplies c (s.present 1 p) = true → samplesLegal (s.samples 1 p)) ∧
    ∃ ty, typeChosen ty (refApplies c (s.present 1 p)) (s.samples c p) ((s.reference c p).getD []) ∧
      s.argU 0 + fieldsWidth (typeFields ty (s.samples c p) (s.samples 1 p)) ≤ s.streamBits ∧
      t = { s with bitbuf := writeFields s.bitbuf (s.argU 0) (typeFields ty (s.samples c p) (s.samples 1 p)) }.writeRes
        [(ty : Int), (fieldsWidth (typeFields ty (s.samples c p) (s.samples 1 p)) : Int),
          ((s.argU 0 + fieldsWidth (typeFields ty (s.samples c p) (s.samples 1 p)) : Nat) : Int),
          (packetSize (type0 (s.samples c p)) : Int), (packetSize (type1 (s.samples c p)) : Int),
          (packetSize (type2 (s.samples c p)) : Int), size3 (s.samples c p) (s.reference c p)] := by
  obtain ⟨_, h1, h⟩ := bind_eq_ok h
  obtain ⟨_, h2, h⟩ := bind_eq_ok h
  obtain ⟨ty, hs, hc⟩ := pktSelect_spec (s.samples c p) (s.reference c p)
  rw [reference_isSome] at hc
  rw [hs] at h
  dsimp only at h
  rw [typeFields_reference hc.1] at h
  obtain ⟨_, h3, h⟩ := bind_eq_ok h
  cases h
  refine ⟨(checkSamples_ok_iff _ _ _ _).1 h1, fun hr => (checkReference_ok_iff _ _).1 h2 _ ?_, ty, hc,
    require_ok h3, rfl⟩
  unfold State.reference
  rw [if_pos hr]

/-- R200: everything WF_PKT_ENC can do on legal samples. -/
theorem wfPktEnc_legal {c p ty : Nat} {s : State} (h1 : samplesLegal (s.samples c p))
    (h2 : refApplies c (s.present 1 p) = true → samplesLegal (s.samples 1 p))
    (h3 : typeChosen ty (refApplies c (s.present 1 p)) (s.samples c p) (s.samples 1 p)) :
    wfPktEnc c p s =
      if s.argU 0 + fieldsWidth (typeFields ty (s.samples c p) (s.samples 1 p)) ≤ s.streamBits then .ok ({ s with
        bitbuf := writeFields s.bitbuf (s.argU 0) (typeFields ty (s.samples c p) (s.samples 1 p)) }.writeRes
        [(ty : Int), (fieldsWidth (typeFields ty (s.samples c p) (s.samples 1 p)) : Int),
          ((s.argU 0 + fieldsWidth (typeFields ty (s.samples c p) (s.samples 1 p)) : Nat) : Int),
          (packetSize (type0 (s.samples c p)) : Int), (packetSize (type1 (s.samples c p)) : Int),
          (packetSize (type2 (s.samples c p)) : Int), size3 (s.samples c p) (s.reference c p)])
      else .error (overrunError (errIdx c p idxNA) (s.argWord 0)) := by
  obtain ⟨ty', hs, hc⟩ := pktSelect_spec (s.samples c p) (s.reference c p)
  rw [reference_isSome] at hc
  have hc' : typeChosen ty' (refApplies c (s.present 1 p)) (s.samples c p) (s.samples 1 p) :=
    ⟨hc.1, fun u hu => by
      have := hc.2 u hu
      rwa [typeFields_reference hc.1, typeFields_reference hu] at this⟩
  cases typeChosen_unique h3 hc'
  unfold wfPktEnc
  dsimp only
  rw [(checkSamples_ok_iff _ _ _ _).2 h1, bind_ok, (checkReference_ok_iff _ _).2, bind_ok, hs]
  · dsimp only
    rw [typeFields_reference hc.1]
    split
    · rw [require_of ‹_›, bind_ok]
    · rw [require_of_not ‹_›, bind_error]
  · intro xs hx
    unfold State.reference at hx
    split at hx
    · cases hx
      exact h2 ‹_›
    · cases hx

/-- R200: the first reference sample above 1023, the packet's own samples being legal. -/
theorem wfPktEnc_badReference {c p i : Nat} {s : State} (h1 : samplesLegal (s.samples c p))
    (hr : refApplies c (s.present 1 p) = true) (hi : i < 64)
    (hgood : ∀ j, j < i → (s.samples 1 p).getD j 0 ≤ Config.maxSample)
    (hbad : Config.maxSample < (s.samples 1 p).getD i 0) :
    wfPktEnc c p s = .error (rangeError 41#8 (errIdx 1 p i) (BitVec.ofNat 64 ((s.samples 1 p).getD i 0))) := by
  have e : s.reference c p = some (s.samples 1 p) := if_pos hr
  unfold wfPktEnc
  dsimp only
  rw [(checkSamples_ok_iff _ _ _ _).2 h1, bind_ok, e, checkReference,
    checkSamples_first (by rwa [length_samples]) hgood hbad, bind_error, Nat.zero_add]

/-- R201: everything a successful WF_PKT_DEC says. -/
theorem wfPktDec_ok {c p : Nat} {s t : State} (h : wfPktDec c p s = .ok t) :
    ∃ pkt, pktDec s.stream (refApplies c (s.present 1 p)) (s.samples 1 p) c p (s.argU 0) = .ok pkt ∧
      packetLegal pkt.samples ∧ s.argU 0 ≤ pkt.after ∧
      t = { s with smpMem := Memory.setRange s.smpMem (smpAddr c p 0) (sampleWords pkt.samples) }.writeRes
        [(pkt.type : Int), ((pkt.after - s.argU 0 : Nat) : Int), (pkt.after : Int)] := by
  obtain ⟨pkt, h1, h⟩ := bind_eq_ok h
  cases h
  have := pktDec_ok (fun _ => length_samples ..) h1
  exact ⟨pkt, h1, this.1, this.2.1, rfl⟩

theorem requireOperands_of {i : Instr} (h : i.wellFormed = true) : requireOperands i = .ok () := require_of h _

end Sys2Proof.Machine
end

