-- ==== Sys2Proof/Laws/WaveformRecord.lean ====
section
/-! SUPPORT. What the waveform record's functions can do (R205 to R208): the encoder's fields are those of `wfOut`, reading
them back gives the record, and the first error of either direction. -/

namespace Sys2Proof.Machine

/-! ### The encoder -/

theorem wfCfg_ok_iff (s : State) : wfCfg s = .ok () ↔ s.WfConfig := by
  unfold wfCfg requireSizeBits
  by_cases h : 1 ≤ s.cwfSizeBits.toNat ∧ s.cwfSizeBits.toNat ≤ 64
  · rw [require_of h, bind_ok, requireFieldBits_ok_iff]
    constructor
    · intro hk
      exact ⟨h, hk 17 (by simp), hk 18 (by simp)⟩
    · intro hk k hm
      simp only [List.mem_cons, List.not_mem_nil, or_false] at hm
      rcases hm with rfl | rfl
      · exact hk.bits17
      · exact hk.bits18
  · rw [require_of_not h, bind_error]
    constructor
    · intro hk
      cases hk
    · intro hk
      exact absurd hk.sizeBits h

/-- The fields of a present packet in a record. -/
def slotFields (s : State) (n : Nat) : List Field :=
  if s.present (slotChannel n) (slotPacket n) then
    (pktSelect (s.samples (slotChannel n) (slotPacket n)) (s.reference (slotChannel n) (slotPacket n))).2
  else []

/-- R205 row 5: the packets of the listed slots, each validated. -/
theorem recPackets_ok_iff (s : State) (ns : List Nat) (fs : List Field) :
    recPackets s ns = .ok fs ↔ (∀ n ∈ ns, s.present (slotChannel n) (slotPacket n) = true →
      samplesLegal (s.samples (slotChannel n) (slotPacket n))) ∧ fs = ns.flatMap (slotFields s) := by
  induction ns generalizing fs with
  | nil =>
    rw [recPackets, List.flatMap_nil]
    exact ⟨fun h => ⟨(fun n hn => by cases hn), (by cases h; rfl)⟩, fun h => by rw [h.2]⟩
  | cons n ns ih =>
    rw [recPackets]
    rw [List.flatMap_cons]
    by_cases hp : s.present (slotChannel n) (slotPacket n) = true
    · rw [if_pos hp, slotFields, if_pos hp]
      by_cases hs : samplesLegal (s.samples (slotChannel n) (slotPacket n))
      · rw [(checkSamples_ok_iff _ _ _ _).2 hs, bind_ok]
        constructor
        · intro h
          obtain ⟨rest, h1, h⟩ := bind_eq_ok h
          cases h
          obtain ⟨h2, h3⟩ := (ih _).1 h1
          refine ⟨fun m hm => ?_, by rw [h3]⟩
          rcases List.mem_cons.1 hm with rfl | hm
          · exact fun _ => hs
          · exact h2 m hm
        · rintro ⟨h1, rfl⟩
          rw [(ih _).2 ⟨fun m hm => h1 m (List.mem_cons_of_mem _ hm), rfl⟩, bind_ok]
      · constructor
        · intro h
          obtain ⟨_, h1, _⟩ := bind_eq_ok h
          exact absurd ((checkSamples_ok_iff _ _ _ _).1 h1) hs
        · rintro ⟨h1, _⟩
          exact absurd (h1 n (List.mem_cons_self ..) hp) hs
    · rw [if_neg hp, slotFields, if_neg hp, ih, List.nil_append]
      constructor
      · rintro ⟨h1, h2⟩
        refine ⟨fun m hm hpm => ?_, h2⟩
        rcases List.mem_cons.1 hm with rfl | hm
        · exact absurd hpm hp
        · exact h1 m hm hpm
      · rintro ⟨h1, h2⟩
        exact ⟨fun m hm => h1 m (List.mem_cons_of_mem _ hm), h2⟩

theorem mem_slots {n : Nat} : n ∈ slots ↔ n < 126 := by simp [slots, Config.nch, Config.maxp]

theorem slot_of {c p : Nat} (hp : p < 14) : slotChannel (c * 14 + p) = c ∧ slotPacket (c * 14 + p) = p := by
  simp only [slotChannel, slotPacket, Config.maxp]
  omega

/-- Every present packet of a record is one of the slots. -/
theorem forall_slots (s : State) : (∀ n ∈ slots, s.present (slotChannel n) (slotPacket n) = true →
      samplesLegal (s.samples (slotChannel n) (slotPacket n))) ↔
    ∀ c p, c < Config.nch → p < Config.maxp → s.present c p = true → samplesLegal (s.samples c p) := by
  constructor
  · intro h c p hc hp hpr
    simp only [Config.nch, Config.maxp] at hc hp
    obtain ⟨e1, e2⟩ := slot_of (c := c) hp
    have := h (c * 14 + p) (mem_slots.2 (by omega))
    rw [e1, e2] at this
    exact this hpr
  · intro h n hn
    have := mem_slots.1 hn
    exact h _ _ (by simp only [slotChannel, Config.maxp, Config.nch]; omega)
      (by simp only [slotPacket, Config.maxp]; omega)

/-- R206: the record's fields, exactly when its values are legal. -/
theorem wfFields_ok_iff (s : State) (out : List Field) : wfFields s = .ok out ↔ s.WfValues ∧ out = s.wfOut := by
  have e : ∀ ts scan, s.scalarFits 17 s.wfTimestamp → s.scalarFits 18 s.wfScan →
      ts = (scalarValue 17 s.wfTimestamp + s.fieldOffset 17).toNat →
      scan = (scalarValue 18 s.wfScan + s.fieldOffset 18).toNat →
      (s.fieldBits 17, ts) :: (s.fieldBits 18, scan) :: (bitmapFields s ++ slots.flatMap (slotFields s)) = s.wfOut := by
    rintro _ _ _ _ rfl rfl
    simp only [State.wfOut, bitmapFields, List.cons_append, List.nil_append]
    rfl
  constructor
  · intro h
    obtain ⟨ts, h1, h⟩ := bind_eq_ok h
    obtain ⟨scan, h2, h⟩ := bind_eq_ok h
    obtain ⟨pk, h3, h⟩ := bind_eq_ok h
    cases h
    obtain ⟨a1, a2, _, _⟩ := scalarEnc_ok h1
    obtain ⟨b1, b2, _, _⟩ := scalarEnc_ok h2
    obtain ⟨c1, rfl⟩ := (recPackets_ok_iff _ _ _).1 h3
    exact ⟨⟨a1, b1, (forall_slots s).1 c1⟩, e _ _ a1 b1 a2 b2⟩
  · rintro ⟨hv, rfl⟩
    unfold wfFields
    rw [scalarEnc_of_fits hv.timestamp, bind_ok, scalarEnc_of_fits hv.scan, bind_ok,
      (recPackets_ok_iff _ _ _).2 ⟨(forall_slots s).2 hv.samples, rfl⟩, bind_ok]
    exact congrArg _ (e _ _ hv.timestamp hv.scan rfl rfl)

/-- The packet of a slot, as the selection encodes it. -/
theorem slotFields_present {s : State} {n : Nat} (h : s.present (slotChannel n) (slotPacket n) = true) :
    ∃ t, slotFields s n = typeFields t (s.samples (slotChannel n) (slotPacket n)) (s.samples 1 (slotPacket n)) ∧
      typeApplies t (refApplies (slotChannel n) (s.present 1 (slotPacket n))) := by
  obtain ⟨t, h1, h2⟩ := pktSelect_spec (s.samples (slotChannel n) (slotPacket n))
    (s.reference (slotChannel n) (slotPacket n))
  rw [reference_isSome] at h2
  refine ⟨t, ?_, h2.1⟩
  rw [slotFields, if_pos h, h1, typeFields_reference h2.1]

/-- R205: every field of a record's packets fits its width. -/
theorem slotFields_fit {s : State} (hv : s.WfValues) {n : Nat} (hn : n < 126) : ∀ f ∈ slotFields s n, f.2 < 2 ^ f.1 := by
  have hc : slotChannel n < Config.nch := by simp only [slotChannel, Config.maxp, Config.nch]; omega
  have hp : slotPacket n < Config.maxp := by simp only [slotPacket, Config.maxp]; omega
  by_cases h : s.present (slotChannel n) (slotPacket n) = true
  · obtain ⟨t, h1, h2⟩ := slotFields_present h
    rw [h1]
    refine typeFields_fit ⟨length_samples .., hv.samples _ _ hc hp h⟩ ?_
    rcases h2 with h2 | h2
    · exact .inl h2
    · refine .inr ⟨length_samples .., hv.samples _ _ (by decide) hp ?_⟩
      have := h2.2
      unfold refApplies at this
      simp only [Bool.and_eq_true] at this
      exact this.2
  · rw [slotFields, if_neg h]
    simp

theorem wfOut_eq (s : State) : s.wfOut = (s.fieldBits 17, (scalarValue 17 s.wfTimestamp + s.fieldOffset 17).toNat) ::
    (s.fieldBits 18, (scalarValue 18 s.wfScan + s.fieldOffset 18).toNat) ::
    (bitmapFields s ++ slots.flatMap (slotFields s)) := by
  simp only [State.wfOut, bitmapFields, List.cons_append, List.nil_append]
  rfl

theorem wfOut_fit {s : State} (hv : s.WfValues) : ∀ f ∈ s.wfOut, f.2 < 2 ^ f.1 := by
  intro f hf
  rw [wfOut_eq] at hf
  simp only [List.mem_cons, List.mem_append, List.mem_flatMap] at hf
  rcases hf with rfl | rfl | hf | ⟨n, hn, hf⟩
  · have := hv.timestamp
    dsimp only
    zify
    rw [Int.toNat_of_nonneg this.1]
    exact this.2
  · have := hv.scan
    dsimp only
    zify
    rw [Int.toNat_of_nonneg this.1]
    exact this.2
  · obtain ⟨n, _, rfl⟩ := List.mem_map.1 hf
    exact Bool.toNat_lt _
  · exact slotFields_fit hv (mem_slots.1 hn) f hf

/-- R206: everything a successful WF_REC_ENC says. -/
theorem wfRecEnc_ok {s t : State} (h : wfRecEnc s = .ok t) : s.WfConfig ∧ s.WfValues ∧
    recordSize s.cwfSizeBits.toNat s.wfOut < 2 ^ s.cwfSizeBits.toNat ∧
    s.argU 0 + recordSize s.cwfSizeBits.toNat s.wfOut ≤ s.bitbufBytes ∧
    t = { s with bitbuf := writeFields s.bitbuf (8 * s.argU 0) (recordFields s.cwfSizeBits.toNat s.wfOut) }.writeRes
      [(recordSize s.cwfSizeBits.toNat s.wfOut : Int), (recordBits s.cwfSizeBits.toNat s.wfOut : Int)] := by
  obtain ⟨_, h1, h⟩ := bind_eq_ok h
  obtain ⟨out, h2, h⟩ := bind_eq_ok h
  obtain ⟨u, h3, h⟩ := bind_eq_ok h
  cases h
  obtain ⟨hv, rfl⟩ := (wfFields_ok_iff _ _).1 h2
  obtain ⟨h4, h5, rfl⟩ := writeRecord_ok h3
  exact ⟨(wfCfg_ok_iff s).1 h1, hv, h4, h5, rfl⟩

/-- R206: everything WF_REC_ENC can do with legal configuration and values. -/
theorem wfRecEnc_legal {s : State} (hc : s.WfConfig) (hv : s.WfValues) : wfRecEnc s =
    if ¬ recordSize s.cwfSizeBits.toNat s.wfOut < 2 ^ s.cwfSizeBits.toNat then
      .error (rangeError 40#8 noIndex (BitVec.ofNat 64 (recordSize s.cwfSizeBits.toNat s.wfOut)))
    else if ¬ s.argU 0 + recordSize s.cwfSizeBits.toNat s.wfOut ≤ s.bitbufBytes then
      .error (overrunError noIndex (s.argWord 0))
    else .ok ({ s with
      bitbuf := writeFields s.bitbuf (8 * s.argU 0) (recordFields s.cwfSizeBits.toNat s.wfOut) }.writeRes
      [(recordSize s.cwfSizeBits.toNat s.wfOut : Int), (recordBits s.cwfSizeBits.toNat s.wfOut : Int)]) := by
  unfold wfRecEnc
  rw [(wfCfg_ok_iff s).2 hc, bind_ok, (wfFields_ok_iff s _).2 ⟨hv, rfl⟩, bind_ok]
  dsimp only
  rw [writeRecord_eq]
  split
  · rfl
  · split <;> rfl

/-- R206: WF_REC_ENC succeeds under these conditions. -/
theorem wfRecEnc_of {s : State} (hc : s.WfConfig) (hv : s.WfValues)
    (h1 : recordSize s.cwfSizeBits.toNat s.wfOut < 2 ^ s.cwfSizeBits.toNat)
    (h2 : s.argU 0 + recordSize s.cwfSizeBits.toNat s.wfOut ≤ s.bitbufBytes) :
    wfRecEnc s = .ok ({ s with
      bitbuf := writeFields s.bitbuf (8 * s.argU 0) (recordFields s.cwfSizeBits.toNat s.wfOut) }.writeRes
      [(recordSize s.cwfSizeBits.toNat s.wfOut : Int), (recordBits s.cwfSizeBits.toNat s.wfOut : Int)]) := by
  rw [wfRecEnc_legal hc hv, if_neg (not_not.2 h1), if_neg (not_not.2 h2)]

/-- R206: with legal configuration, WF_REC_ENC reports what `wfFields` does. -/
theorem wfRecEnc_of_error {s : State} {e : CmdError} (hc : s.WfConfig) (h : wfFields s = .error e) :
    wfRecEnc s = .error e := by
  unfold wfRecEnc
  rw [(wfCfg_ok_iff s).2 hc, bind_ok, h, bind_error]

/-- R206: the first illegal sample of the packets of the listed slots. -/
theorem recPackets_first {s : State} {ns : List Nat} {n i : Nat} (hn : n ∈ ns) (hs : ns.Pairwise (· < ·))
    (hgood : ∀ m ∈ ns, m < n → s.present (slotChannel m) (slotPacket m) = true →
      samplesLegal (s.samples (slotChannel m) (slotPacket m)))
    (hp : s.present (slotChannel n) (slotPacket n) = true) (hi : i < 64)
    (hg : ∀ j, j < i → (s.samples (slotChannel n) (slotPacket n)).getD j 0 ≤ Config.maxSample)
    (hbad : Config.maxSample < (s.samples (slotChannel n) (slotPacket n)).getD i 0) :
    recPackets s ns = .error (rangeError 41#8 (errIdx (slotChannel n) (slotPacket n) i)
      (BitVec.ofNat 64 ((s.samples (slotChannel n) (slotPacket n)).getD i 0))) := by
  induction ns with
  | nil => cases hn
  | cons m ns ih =>
    obtain ⟨hm, hs⟩ := List.pairwise_cons.1 hs
    rw [recPackets]
    rcases List.mem_cons.1 hn with rfl | hn
    · rw [if_pos hp, checkSamples_first (by rwa [length_samples]) hg hbad, bind_error, Nat.zero_add]
    · have ih := ih hn hs fun k hk => hgood k (List.mem_cons_of_mem _ hk)
      split
      · rw [(checkSamples_ok_iff _ _ _ _).2 (hgood m (List.mem_cons_self ..) (hm n hn) ‹_›), bind_ok, ih, bind_error]
      · exact ih

/-! ### The decoder -/

/-- R207: what a decoder holds of slot `n` of the record in `s`. -/
def slotSamples (s : State) (n : Nat) : List Nat :=
  if s.present (slotChannel n) (slotPacket n) then s.samples (slotChannel n) (slotPacket n) else List.replicate 64 0

/-- The bitmap of the record in `s`. -/
def bitmap (s : State) : List Nat := slots.map fun n => (s.present (slotChannel n) (slotPacket n)).toNat

theorem bitmap_getD (s : State) {n : Nat} (h : n < 126) :
    (bitmap s).getD n 0 = (s.present (slotChannel n) (slotPacket n)).toNat := by
  simp [bitmap, slots, Config.nch, Config.maxp, List.getD_eq_getElem?_getD, h]

/-- R207, R208: decoding the packets of the slots from `k` on, the earlier ones being decoded. -/
theorem decPackets_fields {st : Stream} {s : State} (hv : s.WfValues) :
    ∀ (m k pos : Nat), k + m = 126 →
      fieldsAt st.mem pos ((List.range' k m).flatMap (slotFields s)) →
      pos + fieldsWidth ((List.range' k m).flatMap (slotFields s)) ≤ st.limit →
      decPackets st (bitmap s) (List.range' k m) ((List.range k).map (slotSamples s)) pos =
        .ok ((List.range 126).map (slotSamples s), pos + fieldsWidth ((List.range' k m).flatMap (slotFields s))) := by
  intro m
  induction m with
  | zero =>
    intro k pos hk _ _
    obtain rfl : k = 126 := by omega
    rfl
  | succ m ih =>
    intro k pos hk hf hl
    have hc : slotChannel k < Config.nch := by simp only [slotChannel, Config.maxp, Config.nch]; omega
    have hp : slotPacket k < Config.maxp := by simp only [slotPacket, Config.maxp]; omega
    simp only [List.range'_succ, List.flatMap_cons, fieldsAt_append, fieldsWidth_append] at hf hl ⊢
    have hacc : (List.range k).map (slotSamples s) ++ [slotSamples s k] = (List.range (k + 1)).map (slotSamples s) := by
      rw [List.range_succ, List.map_append]
      rfl
    rw [decPackets]
    dsimp only
    rw [bitmap_getD s (by omega)]
    by_cases hpr : s.present (slotChannel k) (slotPacket k) = true
    · rw [hpr, if_pos (show true.toNat = 1 from rfl)]
      obtain ⟨t, h1, h2⟩ := slotFields_present hpr
      have hx : packetLegal (s.samples (slotChannel k) (slotPacket k)) := ⟨length_samples .., hv.samples _ _ hc hp hpr⟩
      have hs : slotSamples s k = s.samples (slotChannel k) (slotPacket k) := by rw [slotSamples, if_pos hpr]
      -- the presence and the samples of the reference, as decoded
      have hb : ((bitmap s).getD (Config.maxp + slotPacket k) 0 == 1) = s.present 1 (slotPacket k) := by
        have hlt : Config.maxp + slotPacket k < 126 := by simp only [Config.maxp] at *; omega
        rw [bitmap_getD s hlt]
        obtain ⟨e1, e2⟩ := slot_of (c := 1) (p := slotPacket k) hp
        rw [show Config.maxp + slotPacket k = 1 * 14 + slotPacket k by simp [Config.maxp], e1, e2]
        cases s.present 1 (slotPacket k) <;> rfl
      rw [hb]
      have hd : pktDec st (refApplies (slotChannel k) (s.present 1 (slotPacket k)))
          (((List.range k).map (slotSamples s)).getD (Config.maxp + slotPacket k) []) (slotChannel k) (slotPacket k) pos =
          .ok ⟨t, s.samples (slotChannel k) (slotPacket k), pos + fieldsWidth (slotFields s k)⟩ := by
        rw [h1] at hf hl ⊢
        by_cases hr : refApplies (slotChannel k) (s.present 1 (slotPacket k)) = true
        · have hr' := hr
          simp only [refApplies, Bool.and_eq_true, decide_eq_true_eq] at hr'
          have hlt : Config.maxp + slotPacket k < k := by
            have := hr'.1.1
            simp only [slotChannel, slotPacket, Config.maxp] at *
            omega
          have hg : ((List.range k).map (slotSamples s)).getD (Config.maxp + slotPacket k) [] =
              s.samples 1 (slotPacket k) := by
            obtain ⟨e1, e2⟩ := slot_of (c := 1) (p := slotPacket k) hp
            have e3 : Config.maxp + slotPacket k = 1 * 14 + slotPacket k := by simp [Config.maxp]
            simp only [List.getD_eq_getElem?_getD, List.getElem?_map, List.getElem?_range hlt, Option.map_some,
              Option.getD_some]
            rw [slotSamples, e3, e1, e2, if_pos hr'.2]
          rw [hg]
          exact pktDec_fields hx (length_samples ..) h2 hf.1 (by omega)
        · have ht : t ≤ 2 := by
            rcases h2 with h2 | h2
            · exact h2
            · exact absurd h2.2 hr
          have hdec : ∀ r r' : List Nat, pktDec st (refApplies (slotChannel k) (s.present 1 (slotPacket k))) r
              (slotChannel k) (slotPacket k) pos = pktDec st (refApplies (slotChannel k) (s.present 1 (slotPacket k))) r'
              (slotChannel k) (slotPacket k) pos := by
            intro r r'
            rw [Bool.not_eq_true] at hr
            rw [hr]
            unfold pktDec decBody
            rfl
          rw [hdec _ (s.samples 1 (slotPacket k))]
          exact pktDec_fields hx (length_samples ..) h2 hf.1 (by omega)
      rw [hd, bind_ok]
      dsimp only
      rw [← hs, hacc, ih (k + 1) _ (by omega) hf.2 (by omega), Nat.add_assoc]
    · have hs : slotSamples s k = List.replicate Config.nsmp 0 := by rw [slotSamples, if_neg hpr]; rfl
      have hz : slotFields s k = [] := by rw [slotFields, if_neg hpr]
      rw [if_neg (by simp [Bool.not_eq_true _ ▸ hpr]), ← hs, hacc]
      rw [hz] at hf hl ⊢
      simp only [fieldsWidth_nil, Nat.add_zero, Nat.zero_add] at hf hl ⊢
      exact ih (k + 1) pos (by omega) hf.2 hl

/-- The bits of a number, the least significant first, sum up to it. -/
theorem presenceValue_testBit (w n : Nat) (h : n < 2 ^ w) :
    presenceValue ((List.range w).map fun p => (n.testBit p).toNat) = n := by
  induction w generalizing n with
  | zero =>
    rw [Nat.pow_zero] at h
    simp [presenceValue]
    omega
  | succ w ih =>
    rw [Nat.pow_succ] at h
    have hl : (List.range w).map ((fun p => (n.testBit p).toNat) ∘ Nat.succ) =
        (List.range w).map fun p => ((n / 2).testBit p).toNat :=
      List.map_congr_left fun p _ => by simp only [Function.comp, Nat.testBit_succ]
    rw [List.range_succ_eq_map, List.map_cons, List.map_map, presenceValue, hl, ih (n / 2) (by omega), Nat.testBit_zero]
    rcases Nat.mod_two_eq_zero_or_one n with h0 | h0 <;> simp [h0] <;> omega

/-- R207: PRESENCE of a channel is its 14 bits of the bitmap. -/
theorem presenceValue_bits (x : BitVec 14) :
    BitVec.ofNat 14 (presenceValue ((List.range 14).map fun p => (x.getLsbD p).toNat)) = x := by
  have h := presenceValue_testBit 14 x.toNat x.isLt
  rw [show (fun p => (x.getLsbD p).toNat) = fun p => (x.toNat.testBit p).toNat from rfl, h, BitVec.ofNat_toNat,
    BitVec.setWidth_eq]

theorem presenceWord_bitmap (s : State) {c : Nat} (hc : c < 9) : presenceWord (bitmap s) c = s.presence.getD c 0#14 := by
  rw [← presenceValue_bits (s.presence.getD c 0#14), presenceWord]
  congr 2
  apply List.ext_getElem
  · simp [bitmap, slots, Config.nch, Config.maxp]
    omega
  · intro p h1 h2
    have hp : p < 14 := by simpa using h2
    obtain ⟨e1, e2⟩ := slot_of (c := c) hp
    have e3 : (bitmap s)[c * 14 + p]'(by simp [bitmap, slots, Config.nch, Config.maxp]; omega) =
        (s.present (slotChannel (c * 14 + p)) (slotPacket (c * 14 + p))).toNat := by
      simp [bitmap, slots]
    rw [e1, e2] at e3
    simp only [List.getElem_take, List.getElem_drop, Config.maxp, e3, List.getElem_map, List.getElem_range]
    rfl

/-- What a decoded record's samples are, when the whole of SMP is written. -/
theorem samples_ofUnits {t : State} {f : Nat → List Nat} (hf : ∀ n, n < 126 → packetLegal (f n))
    (ht : t.smpMem = Memory.ofUnits 0 (sampleWords ((List.range 126).map f).flatten)) {c p : Nat} (hc : c < 9) (hp : p < 14) :
    t.samples c p = f (c * 14 + p) := by
  have hflat : ∀ (n : Nat), n ≤ 126 → (((List.range n).map f).flatten).length = n * 64 ∧
      ∀ k i, k < n → i < 64 → (((List.range n).map f).flatten).getD (k * 64 + i) 0 = (f k).getD i 0 := by
    intro n
    induction n with
    | zero => simp
    | succ n ih =>
      intro hn
      obtain ⟨h1, h2⟩ := ih (by omega)
      have hl := (hf n (by omega)).1
      rw [List.range_succ, List.map_append, List.flatten_append]
      simp only [List.map_cons, List.map_nil, List.flatten_cons, List.flatten_nil, List.append_nil]
      refine ⟨by rw [List.length_append, h1, hl]; omega, fun k i hk hi => ?_⟩
      by_cases hkn : k < n
      · rw [← h2 k i hkn hi]
        simp only [List.getD_eq_getElem?_getD]
        rw [List.getElem?_append_left (by omega)]
      · obtain rfl : k = n := by omega
        simp only [List.getD_eq_getElem?_getD]
        rw [List.getElem?_append_right (by omega), h1, Nat.add_sub_cancel_left]
  obtain ⟨h1, h2⟩ := hflat 126 (Nat.le_refl _)
  have hl := hf (c * 14 + p) (by omega)
  apply List.ext_getElem
  · rw [length_samples, hl.1]
  · intro i hi1 hi2
    have hi : i < 64 := by rwa [length_samples] at hi1
    have hx := hl.2 _ (List.getElem_mem hi2)
    simp only [Config.maxSample] at hx
    simp only [State.samples, List.getElem_map, List.getElem_range]
    rw [ht, Memory.get_ofUnits, if_pos (Nat.zero_le _), Nat.sub_zero]
    have e : smpAddr c p i = (c * 14 + p) * 64 + i := rfl
    have h3 := h2 (c * 14 + p) i (by omega) hi
    have h4 : (f (c * 14 + p)).getD i 0 = (f (c * 14 + p))[i] := by
      simp [List.getD_eq_getElem?_getD, List.getElem?_eq_getElem hi2]
    rw [h4] at h3
    have hlt : smpAddr c p i < (((List.range 126).map f).flatten).length := by rw [e, h1]; omega
    rw [← e] at h3
    simp only [List.getD_eq_getElem?_getD, List.getElem?_eq_getElem hlt, Option.getD_some] at h3
    simp only [sampleWords, List.getD_eq_getElem?_getD, List.getElem?_map, List.getElem?_eq_getElem hlt, Option.map_some,
      Option.getD_some, h3, BitVec.toNat_ofNat]
    omega

theorem slotSamples_legal {s : State} (hv : s.WfValues) {n : Nat} (hn : n < 126) : packetLegal (slotSamples s n) := by
  unfold slotSamples
  split
  · exact ⟨length_samples .., hv.samples _ _ (by simp only [slotChannel, Config.maxp, Config.nch]; omega)
      (by simp only [slotPacket, Config.maxp]; omega) ‹_›⟩
  · refine ⟨List.length_replicate .., fun x hx => ?_⟩
    rw [List.eq_of_mem_replicate hx]
    exact Nat.zero_le _

/-- R207: reading the fields of the record of `s` gives that record. -/
theorem readWfRecord_fields {s u : State} (hv : s.WfValues) (hc : s.SameWfConfig u) {size pos : Nat}
    (hf : fieldsAt u.bitbuf pos ((s.cwfSizeBits.toNat, size) :: s.wfOut))
    (hl : pos + (s.cwfSizeBits.toNat + fieldsWidth s.wfOut) ≤ u.streamBits) :
    readWfRecord u pos = .ok ⟨size, s.wfTimestamp, s.wfScan, bitmap s, (List.range 126).map (slotSamples s),
      pos + (s.cwfSizeBits.toNat + fieldsWidth s.wfOut)⟩ := by
  have hb : ∀ k, u.fieldBits k = s.fieldBits k := fun k => by simp only [State.fieldBits, hc.bits]
  have hbm : bitmapFields s = (bitmap s).map fun v => (1, v) := by simp [bitmapFields, bitmap]
  have hbl : (bitmap s).length = 126 := by simp [bitmap, slots, Config.nch, Config.maxp]
  have hbw : fieldsWidth (bitmapFields s) = 126 := by
    rw [hbm, fieldsWidth_map_const 1 (fun v => v), hbl]
  rw [wfOut_eq, show slots = List.range 126 from rfl] at hf hl ⊢
  simp only [fieldsAt_cons, fieldsAt_append, fieldsWidth_cons, fieldsWidth_append, hbw] at hf hl ⊢
  obtain ⟨f1, f2, f3, f4, f5⟩ := hf
  unfold readWfRecord
  dsimp only
  have hlim : u.stream.limit = u.streamBits := rfl
  rw [← hc.sizeBits, hb, hb]
  simp (disch := omega) only [take_of_le, bind_ok]
  have ht := takeMany_fields (st := u.stream) (w := 1) (vs := bitmap s)
    (pos := pos + s.cwfSizeBits.toNat + s.fieldBits 17 + s.fieldBits 18) (by rw [← hbm]; exact f4)
    (by rw [hbl]; show _ ≤ u.streamBits; omega)
  rw [hbl] at ht
  rw [show Config.nch * Config.maxp = 126 from rfl, ht, bind_ok]
  dsimp only
  have hd := decPackets_fields (st := u.stream) hv 126 0
    (pos + s.cwfSizeBits.toNat + s.fieldBits 17 + s.fieldBits 18 + 126 * 1) rfl
    (by rw [← List.range_eq_range']; exact f5)
    (by rw [← List.range_eq_range']; show _ ≤ u.streamBits; omega)
  rw [← List.range_eq_range'] at hd
  rw [show slots = List.range 126 from rfl, show ([] : List (List Nat)) = (List.range 0).map (slotSamples s) from rfl, hd,
    bind_ok]
  dsimp only
  rw [show u.stream.mem = u.bitbuf from rfl, f1, f2, f3]
  have d17 := (scalarEnc_ok (scalarEnc_of_fits hv.timestamp noIndex)).2.2.2
  have d18 := (scalarEnc_ok (scalarEnc_of_fits hv.scan noIndex)).2.2.2
  rw [scalarDec_congr hc.offsets, scalarDec_congr hc.offsets, d17, d18,
    show pos + s.cwfSizeBits.toNat + s.fieldBits 17 + s.fieldBits 18 + 126 * 1 +
      fieldsWidth ((List.range 126).flatMap (slotFields s)) = pos + (s.cwfSizeBits.toNat + (s.fieldBits 17 +
      (s.fieldBits 18 + (126 + fieldsWidth ((List.range 126).flatMap (slotFields s)))))) by omega]

/-- R207: what is decoded is 126 legal packets. -/
theorem decPackets_ok {st : Stream} {pres : List Nat} :
    ∀ (m k pos : Nat) (acc acc' : List (List Nat)) (pos' : Nat), k + m = 126 → acc.length = k →
      (∀ x ∈ acc, packetLegal x) → decPackets st pres (List.range' k m) acc pos = .ok (acc', pos') →
      acc'.length = 126 ∧ (∀ x ∈ acc', packetLegal x) ∧ pos ≤ pos' := by
  intro m
  induction m with
  | zero =>
    intro k pos acc acc' pos' hk ha hx h
    cases h
    exact ⟨by omega, hx, Nat.le_refl _⟩
  | succ m ih =>
    intro k pos acc acc' pos' hk ha hx h
    rw [List.range'_succ, decPackets] at h
    dsimp only at h
    have grow : ∀ y, packetLegal y → ∀ x ∈ acc ++ [y], packetLegal x := by
      intro y hy x hx'
      rcases List.mem_append.1 hx' with h | h
      · exact hx x h
      · rw [List.mem_singleton.1 h]
        exact hy
    split at h
    · obtain ⟨pkt, h1, h⟩ := bind_eq_ok h
      have hp := pktDec_ok (fun hr => by
        have hr' : (2 ≤ slotChannel k ∧ slotChannel k ≤ 7) := by
          simp only [refApplies, Bool.and_eq_true, decide_eq_true_eq] at hr
          exact hr.1
        have hlt : Config.maxp + slotPacket k < acc.length := by
          simp only [slotChannel, slotPacket, Config.maxp] at *
          omega
        have : acc.getD (Config.maxp + slotPacket k) [] ∈ acc := by
          simp only [List.getD_eq_getElem?_getD, List.getElem?_eq_getElem hlt, Option.getD_some]
          exact List.getElem_mem _
        exact (hx _ this).1) h1
      have := ih (k + 1) _ _ _ _ (by omega) (by simp [ha]) (grow _ hp.1) h
      exact ⟨this.1, this.2.1, by omega⟩
    · exact ih (k + 1) _ _ _ _ (by omega) (by simp [ha]) (grow _ ⟨List.length_replicate .., fun x hx => by
        rw [List.eq_of_mem_replicate hx]
        exact Nat.zero_le _⟩) h

/-- R207: the absent packets before the first present one cost no bits. -/
theorem decPackets_absent {st : Stream} {pres ns : List Nat} (h : ∀ n ∈ ns, pres.getD n 0 ≠ 1) (rest : List Nat)
    (acc : List (List Nat)) (pos : Nat) : decPackets st pres (ns ++ rest) acc pos =
      decPackets st pres rest (acc ++ List.replicate ns.length (List.replicate Config.nsmp 0)) pos := by
  induction ns generalizing acc with
  | nil => simp
  | cons n ns ih =>
    rw [List.cons_append, decPackets, if_neg (h n (List.mem_cons_self ..)),
      ih (fun m hm => h m (List.mem_cons_of_mem _ hm)), List.append_assoc]
    rfl

/-- R207, R208: the first packet of a record, number `n` of its bitmap: type 3 does not apply, because the packets of
channel 1 come before those of the channels that refer to them. -/
theorem decPackets_first {st : Stream} {pres : List Nat} {n pos : Nat} {e : CmdError} (hn : n < 126)
    (hb : ∀ m, m < n → pres.getD m 0 ≠ 1) (hp : pres.getD n 0 = 1)
    (he : ∀ r, pktDec st false r (slotChannel n) (slotPacket n) pos = .error e) :
    decPackets st pres slots [] pos = .error e := by
  have hs : slots = List.range n ++ n :: List.range' (n + 1) (125 - n) := by
    have := List.range'_append_1 (s := 0) (m := n) (n := 125 - n + 1)
    rw [Nat.zero_add, show n + (125 - n + 1) = 126 by omega] at this
    rw [show slots = List.range 126 from rfl, List.range_eq_range', List.range_eq_range', ← List.range'_succ]
    exact this.symm
  have hr : refApplies (slotChannel n) (pres.getD (Config.maxp + slotPacket n) 0 == 1) = false := by
    by_cases hc : 2 ≤ slotChannel n ∧ slotChannel n ≤ 7
    · have := hb (Config.maxp + slotPacket n) (by simp only [slotChannel, slotPacket, Config.maxp] at *; omega)
      simp only [refApplies, Bool.and_eq_false_iff]
      exact .inr (beq_eq_false_iff_ne.2 this)
    · simp only [refApplies, hc, decide_false, Bool.false_and]
  rw [hs, decPackets_absent fun m hm => hb m (List.mem_range.1 hm), decPackets, if_pos hp]
  dsimp only
  rw [hr, he, bind_error]

/-- R207: everything a successful WF_REC_DEC says. -/
theorem wfRecDec_ok {s t : State} (h : wfRecDec s = .ok t) : s.WfConfig ∧ ∃ r, readWfRecord s (8 * s.argU 0) = .ok r ∧
    ceil8 (r.after - 8 * s.argU 0) = r.size ∧ r.packets.flatten.length = Config.smpWords ∧
    t = { s with
      wfTimestamp := r.timestamp, wfScan := r.scan, presence := Vector.ofFn fun c => presenceWord r.bitmap c.val
      smpMem := Memory.ofUnits 0 (sampleWords r.packets.flatten) }.writeRes
        [(r.size : Int), ((r.after - 8 * s.argU 0 : Nat) : Int)] := by
  obtain ⟨_, h1, h⟩ := bind_eq_ok h
  obtain ⟨r, h2, h⟩ := bind_eq_ok h
  obtain ⟨_, h3, h⟩ := bind_eq_ok h
  cases h
  refine ⟨(wfCfg_ok_iff s).1 h1, r, h2, checkSize_ok h3, ?_, rfl⟩
  obtain ⟨⟨_, p1⟩, _, h2⟩ := bind_eq_ok h2
  obtain ⟨⟨_, p2⟩, _, h2⟩ := bind_eq_ok h2
  obtain ⟨⟨_, p3⟩, _, h2⟩ := bind_eq_ok h2
  obtain ⟨⟨_, p4⟩, _, h2⟩ := bind_eq_ok h2
  obtain ⟨⟨packets, p5⟩, h4, h2⟩ := bind_eq_ok h2
  cases h2
  rw [show slots = List.range' 0 126 from List.range_eq_range'] at h4
  obtain ⟨e1, e2, _⟩ := decPackets_ok 126 0 _ _ _ _ rfl rfl (fun x hx => by cases hx) h4
  have : ∀ (l : List (List Nat)), (∀ x ∈ l, packetLegal x) → l.flatten.length = l.length * 64 := by
    intro l
    induction l with
    | nil => simp
    | cons a l ih =>
      intro hl
      rw [List.flatten_cons, List.length_append, ih fun x hx => hl x (List.mem_cons_of_mem _ hx),
        (hl a (List.mem_cons_self ..)).1, List.length_cons]
      omega
  dsimp only
  rw [this _ e2, e1]
  rfl

/-! ### Errors -/

theorem wfCfg_error {s : State} {e : CmdError} (h : wfCfg s = .error e) : ∃ addr, e = configError addr := by
  rcases bind_eq_error h with h | ⟨_, _, h⟩
  · exact ⟨_, (require_error h).2⟩
  · exact requireFieldBits_error h

theorem recPackets_error {s : State} {ns : List Nat} {e : CmdError} (h : recPackets s ns = .error e) :
    e.kind = .valueOutOfRange ∧ e.field = 41#8 := by
  induction ns with
  | nil => cases h
  | cons n ns ih =>
    rw [recPackets] at h
    split at h
    · rcases bind_eq_error h with h | ⟨_, _, h⟩
      · exact checkSamples_error h
      · rcases bind_eq_error h with h | ⟨_, _, h⟩
        · exact ih h
        · cases h
    · exact ih h

/-- What WF_REC_ENC can report. -/
theorem wfRecEnc_error {s : State} {e : CmdError} (h : wfRecEnc s = .error e) : wfCfg s = .error e ∨ DataError e := by
  rcases bind_eq_error h with h | ⟨_, _, h⟩
  · exact .inl h
  right
  rcases bind_eq_error h with h | ⟨_, _, h⟩
  · rcases bind_eq_error h with h | ⟨_, _, h⟩
    · exact scalarEnc_error h ▸ .range (by decide) _ _
    rcases bind_eq_error h with h | ⟨_, _, h⟩
    · exact scalarEnc_error h ▸ .range (by decide) _ _
    rcases bind_eq_error h with h | ⟨_, _, h⟩
    · exact .of (recPackets_error h) (by decide) (by decide)
    · cases h
  rcases bind_eq_error h with h | ⟨_, _, h⟩
  · rcases writeRecord_error h with rfl | rfl
    · exact .range (by decide) _ _
    · exact .overrun _ _
  · cases h

/-- What packet decoding can report. -/
theorem DataError.of_pktDec {st : Stream} {refOK : Bool} {r : List Nat} {c p pos : Nat} {e : CmdError}
    (h : pktDec st refOK r c p pos = .error e) : DataError e := by
  rcases pktDec_error h with rfl | ⟨t, rfl⟩ | h
  · exact .overrun _ _
  · exact ⟨by simp [tagError], by simp [tagError, errFieldLegal]⟩
  · exact .of h (by decide) (by decide)

theorem decPackets_error {st : Stream} {pres ns : List Nat} {acc : List (List Nat)} {pos : Nat} {e : CmdError}
    (h : decPackets st pres ns acc pos = .error e) : DataError e := by
  induction ns generalizing acc pos with
  | nil => cases h
  | cons n ns ih =>
    rw [decPackets] at h
    dsimp only at h
    split at h
    · rcases bind_eq_error h with h | ⟨_, _, h⟩
      · exact .of_pktDec h
      · exact ih h
    · exact ih h

/-- What WF_REC_DEC can report. -/
theorem wfRecDec_error {s : State} {e : CmdError} (h : wfRecDec s = .error e) : wfCfg s = .error e ∨ DataError e := by
  rcases bind_eq_error h with h | ⟨_, _, h⟩
  · exact .inl h
  right
  rcases bind_eq_error h with h | ⟨_, _, h⟩
  · refine (bind_eq_error h).elim .of_take fun ⟨_, _, h⟩ => (bind_eq_error h).elim .of_take fun ⟨_, _, h⟩ =>
      (bind_eq_error h).elim .of_take fun ⟨_, _, h⟩ => (bind_eq_error h).elim .of_takeMany fun ⟨_, _, h⟩ =>
      (bind_eq_error h).elim decPackets_error fun ⟨_, _, h⟩ => by cases h
  exact (bind_eq_error h).elim (fun h => .of (checkSize_error h) (by decide) (by decide)) fun ⟨_, _, h⟩ => by cases h

end Sys2Proof.Machine
end

