-- ==== Sys2Proof/Laws/Exec.lean ====
section
/-! SUPPORT. What every command can do, said once: its effect, what that leaves unchanged (R22, R26, R28 to R32), which RES
registers it writes (R27), that it keeps the memories canonical, and which errors it raises (R261, R263, R265). -/

namespace Sys2Proof.Machine

/-- What a command computes before it completes or aborts. -/
def effect (i : Instr) (s : State) : Except CmdError State :=
  match i with
  | .nop => .ok s
  | .bpack32 w => packBits 32 w.toNat (s.argU 1 % 2 ^ 32) s
  | .bunpack32 w => unpackBits 32 w.toNat s
  | .bpack64 w => packBits 64 w.toNat (s.argU 1) s
  | .bunpack64 w => unpackBits 64 w.toNat s
  | .geoMode => geoMode s
  | .geoLatEnc => geoLatEnc s
  | .geoLatDec => geoLatDec s
  | .geoLonEnc => geoLonEnc s
  | .geoLonDec => geoLonDec s
  | .wfPktEnc ch pkt => do requireOperands (.wfPktEnc ch pkt); wfPktEnc ch.toNat pkt.toNat s
  | .wfPktDec ch pkt => do requireOperands (.wfPktDec ch pkt); wfPktDec ch.toNat pkt.toNat s
  | .wfRecEnc => wfRecEnc s
  | .wfRecDec => wfRecDec s
  | .prEnc => prEnc s
  | .prDec => prDec s
  | .boundsReset => .ok { s with bounds := Bounds.sentinel }
  | .setStatus v => .ok (s.writeRes [(u64 (setStatusWord v (s.argWord 0) (s.argWord 1)) : Int)])
  | .getStatus => .ok (s.writeRes [(getStatusBit (s.argWord 0) (s.argWord 1) : Int)])

/-- R13, R260: every command is its effect, completed or aborted. -/
theorem exec_eq (i : Instr) (s : State) : exec i s = runCommand i s (effect i s) := by
  cases i <;> rfl

theorem exec_cases {i : Instr} {s t : State} (h : exec i s = .next t) :
    (∃ u, effect i s = .ok u ∧ t = u.succeed) ∨ ∃ e, effect i s = .error e ∧ t = s.abort (encode i) e := by
  rw [exec_eq] at h
  exact runCommand_cases h

/-- R260, R262: a command whose effect is an error fails with it. -/
theorem exec_of_error {i : Instr} {s : State} {e : CmdError} (h : effect i s = .error e) :
    exec i s = .next (s.failedWith e.kind.number (encode i) e.field e.index e.info) := by
  rw [exec_eq, h]
  rfl

/-- R94 point 3: a packet command's operand check passes on the operands its words have. -/
theorem effect_wfPktEnc {s : State} {ch pkt : BitVec 4} (hc : ch.toNat ≤ 8) (hp : pkt.toNat ≤ 13) :
    effect (.wfPktEnc ch pkt) s = wfPktEnc ch.toNat pkt.toNat s := by
  have hw : (Instr.wfPktEnc ch pkt).wellFormed = true := by
    simp only [Instr.wellFormed, Bool.and_eq_true, decide_eq_true_eq]
    exact ⟨Nat.lt_succ_of_le hc, Nat.lt_succ_of_le hp⟩
  simp only [effect, requireOperands_of hw, bind_ok]

theorem effect_wfPktDec {s : State} {ch pkt : BitVec 4} (hc : ch.toNat ≤ 8) (hp : pkt.toNat ≤ 13) :
    effect (.wfPktDec ch pkt) s = wfPktDec ch.toNat pkt.toNat s := by
  have hw : (Instr.wfPktDec ch pkt).wellFormed = true := by
    simp only [Instr.wellFormed, Bool.and_eq_true, decide_eq_true_eq]
    exact ⟨Nat.lt_succ_of_le hc, Nat.lt_succ_of_le hp⟩
  simp only [effect, requireOperands_of hw, bind_ok]

theorem exec_ok {i : Instr} {s t : State} (h : exec i s = .next t) (he : t.err = false) :
    ∃ u, effect i s = .ok u ∧ t = u.succeed := by
  rw [exec_eq] at h
  exact runCommand_err_false h he

/-- The shapes of a successful effect: RES alone, BITBUF, SMP, REC, the waveform registers, or the bounds. -/
inductive EffectShape (s : State) : Instr → State → Prop
  | res {i : Instr} (zs : List Int)
      (hi : i ∈ [.geoMode, .geoLatEnc, .geoLatDec, .geoLonEnc, .geoLonDec, .getStatus] ∨ (∃ w, i = .bunpack32 w) ∨
        (∃ w, i = .bunpack64 w) ∨ ∃ v, i = .setStatus v)
      (hz : zs.length = resCount i) : EffectShape s i (s.writeRes zs)
  | nop : EffectShape s .nop s
  | bounds : EffectShape s .boundsReset { s with bounds := Bounds.sentinel }
  | pack {i : Instr} (w v : Nat) (hi : (∃ w, i = .bpack32 w) ∨ ∃ w, i = .bpack64 w)
      (hb : s.argU 0 + w ≤ s.streamBits) :
      EffectShape s i ({ s with bitbuf := bitWrite s.bitbuf (s.argU 0) w v }.writeRes [((s.argU 0 + w : Nat) : Int)])
  | pktEnc (ch pkt : BitVec 4) (fs : List Field) (ty s0 s1 s2 s3 : Int)
      (hb : s.argU 0 + fieldsWidth fs ≤ s.streamBits) :
      EffectShape s (.wfPktEnc ch pkt) ({ s with bitbuf := writeFields s.bitbuf (s.argU 0) fs }.writeRes
        [ty, (fieldsWidth fs : Int), ((s.argU 0 + fieldsWidth fs : Nat) : Int), s0, s1, s2, s3])
  | pktDec (ch pkt : BitVec 4) (xs : List Nat) (zs : List Int) (hw : (Instr.wfPktDec ch pkt).wellFormed = true)
      (hx : packetLegal xs) (hz : zs.length = 3) : EffectShape s (.wfPktDec ch pkt)
        ({ s with smpMem := Memory.setRange s.smpMem (smpAddr ch.toNat pkt.toNat 0) (sampleWords xs) }.writeRes zs)
  | wfRecEnc (bits : Nat) (out : List Field) (z : Int) (hb : s.argU 0 + recordSize bits out ≤ s.bitbufBytes) :
      EffectShape s .wfRecEnc
        ({ s with bitbuf := writeFields s.bitbuf (8 * s.argU 0) (recordFields bits out) }.writeRes
          [(recordSize bits out : Int), z])
  | wfRecDec (ts scan : Word) (pr : Vector (BitVec 14) 9) (xs : List Nat) (zs : List Int)
      (hx : xs.length = Config.smpWords) (hz : zs.length = 2) : EffectShape s .wfRecDec
        ({ s with wfTimestamp := ts, wfScan := scan, presence := pr, smpMem := Memory.ofUnits 0 (sampleWords xs) }.writeRes zs)
  | prEnc (bits : Nat) (out : List Field) (b : Bounds) (z1 z2 z3 : Int)
      (hb : s.argU 0 + recordSize bits out ≤ s.bitbufBytes) (ha : s.append = false → b = s.bounds) :
      EffectShape s .prEnc ({ s with
        bitbuf := writeFields s.bitbuf (8 * s.argU 0) (recordFields bits out), bounds := b }.writeRes
          [(recordSize bits out : Int), z1, z2, z3])
  | prDec (counts : List Nat) (ws : List (Nat × Word)) (zs : List Int)
      (hw : ∀ p ∈ ws, prHolds counts p.1 = true ∨ prUnused counts p.1 = true) (hz : zs.length = 4) :
      EffectShape s .prDec ({ s with recMem := writeRec s.recMem ws }.writeRes zs)

/-- Every successful effect has the shape of its command. -/
theorem effect_shape {i : Instr} {s t : State} (h : effect i s = .ok t) : EffectShape s i t := by
  cases i with
  | nop =>
    cases h
    exact .nop
  | bpack32 w =>
    obtain ⟨_, h2, rfl⟩ := packBits_ok h
    exact .pack _ _ (.inl ⟨w, rfl⟩) h2
  | bpack64 w =>
    obtain ⟨_, h2, rfl⟩ := packBits_ok h
    exact .pack _ _ (.inr ⟨w, rfl⟩) h2
  | bunpack32 w =>
    obtain ⟨_, _, rfl⟩ := unpackBits_ok h
    exact .res _ (.inr (.inl ⟨w, rfl⟩)) rfl
  | bunpack64 w =>
    obtain ⟨_, _, rfl⟩ := unpackBits_ok h
    exact .res _ (.inr (.inr (.inl ⟨w, rfl⟩))) rfl
  | geoMode =>
    obtain ⟨_, _, h⟩ := bind_eq_ok h
    cases h
    exact .res _ (.inl (by simp)) rfl
  | geoLatEnc =>
    obtain ⟨_, _, h⟩ := bind_eq_ok h
    obtain ⟨_, _, h⟩ := bind_eq_ok h
    cases h
    exact .res _ (.inl (by simp)) rfl
  | geoLatDec =>
    obtain ⟨_, _, h⟩ := bind_eq_ok h
    cases h
    exact .res _ (.inl (by simp)) rfl
  | geoLonEnc =>
    obtain ⟨_, _, h⟩ := bind_eq_ok h
    obtain ⟨_, _, h⟩ := bind_eq_ok h
    cases h
    exact .res _ (.inl (by simp)) rfl
  | geoLonDec =>
    obtain ⟨_, _, h⟩ := bind_eq_ok h
    cases h
    exact .res _ (.inl (by simp)) rfl
  | wfPktEnc ch pkt =>
    obtain ⟨_, _, h⟩ := bind_eq_ok h
    obtain ⟨_, _, ty, _, hb, rfl⟩ := wfPktEnc_ok h
    exact .pktEnc ch pkt _ _ _ _ _ _ hb
  | wfPktDec ch pkt =>
    obtain ⟨_, hw, h⟩ := bind_eq_ok h
    obtain ⟨p, _, hx, _, rfl⟩ := wfPktDec_ok h
    exact .pktDec ch pkt _ _ (require_ok hw) hx rfl
  | wfRecEnc =>
    obtain ⟨_, _, _, hb, rfl⟩ := wfRecEnc_ok h
    exact .wfRecEnc _ _ _ hb
  | wfRecDec =>
    obtain ⟨_, r, _, _, hx, rfl⟩ := wfRecDec_ok h
    exact .wfRecDec _ _ _ _ _ hx rfl
  | prEnc =>
    obtain ⟨_, _, _, hb, rfl⟩ := prEnc_ok h
    exact .prEnc _ _ _ _ _ _ hb fun ha => by rw [ha, if_neg (by simp)]
  | prDec =>
    obtain ⟨_, r, hr, _, rfl⟩ := prDec_ok h
    obtain ⟨counts, _, hw⟩ := readPrRecord_ok hr
    exact .prDec counts _ _ hw rfl
  | boundsReset =>
    cases h
    exact .bounds
  | setStatus v =>
    cases h
    exact .res _ (.inr (.inr (.inr ⟨v, rfl⟩))) rfl
  | getStatus =>
    cases h
    exact .res _ (.inl (by simp)) rfl

/-- R265: the configuration checks of a command's row. -/
def effectConfig (i : Instr) (s : State) : Except CmdError Unit :=
  match i with
  | .geoMode => geoCfg true s
  | .geoLonEnc => geoCfg true s
  | .geoLonDec => geoCfg true s
  | .geoLatEnc => geoCfg false s
  | .geoLatDec => geoCfg false s
  | .wfRecEnc => wfCfg s
  | .wfRecDec => wfCfg s
  | .prEnc => prCfg s
  | .prDec => prCfg s
  | .nop => .ok ()
  | .bpack32 _ => .ok ()
  | .bunpack32 _ => .ok ()
  | .bpack64 _ => .ok ()
  | .bunpack64 _ => .ok ()
  | .wfPktEnc _ _ => .ok ()
  | .wfPktDec _ _ => .ok ()
  | .boundsReset => .ok ()
  | .setStatus _ => .ok ()
  | .getStatus => .ok ()

/-- R265: what a failed configuration check records. -/
theorem effectConfig_error {i : Instr} {s : State} {e : CmdError} (h : effectConfig i s = .error e) :
    ∃ addr, e = configError addr := by
  cases i <;> first | exact geoCfg_error h | exact wfCfg_error h | exact prCfg_error h | cases h

/-- R265: a command's configuration checks pass exactly when every check of its row does. -/
theorem effectConfig_ok_iff (i : Instr) (s : State) : effectConfig i s = .ok () ↔ ∀ c ∈ configChecks i s, c.1 = true := by
  have wf : s.WfConfig ↔ ∀ c ∈ configChecks .wfRecEnc s, c.1 = true := by
    simp only [configChecks, List.mem_cons, List.not_mem_nil, or_false, forall_eq_or_imp, forall_eq, decide_eq_true_eq]
    exact ⟨fun h => ⟨h.1, h.2, h.3⟩, fun h => ⟨h.1, h.2.1, h.2.2⟩⟩
  have pr : s.PrConfig ↔ ∀ c ∈ configChecks .prEnc s, c.1 = true := by
    simp only [configChecks, List.cons_append, List.nil_append, List.mem_cons, forall_eq_or_imp, List.mem_map,
      List.mem_range, decide_eq_true_eq, forall_exists_index, and_imp, forall_apply_eq_imp_iff₂]
    exact ⟨fun h => ⟨h.1, h.2, h.3, h.4⟩, fun h => ⟨h.1, h.2.1, h.2.2.1, h.2.2.2⟩⟩
  cases i <;> simp only [effectConfig, geoCfg_ok_iff, wfCfg_ok_iff, prCfg_ok_iff]
  case wfRecEnc => exact wf
  case wfRecDec => exact wf
  case prEnc => exact pr
  case prDec => exact pr
  all_goals simp [configChecks]

/-- R261, R263, R265, R266: what a command can report: a failed configuration check, or, once they pass, an error of its own. -/
theorem effect_error {i : Instr} {s : State} {e : CmdError} (h : effect i s = .error e) :
    effectConfig i s = .error e ∨ DataError e := by
  have pack : ∀ {max w v : Nat}, packBits max w v s = .error e → DataError e := by
    intro max w v h
    rw [packBits_eq] at h
    split at h
    · cases h
      exact .badWidth _
    · split at h
      · cases h
        exact .overrun _ _
      · cases h
  have unpack : ∀ {max w : Nat}, unpackBits max w s = .error e → DataError e := by
    intro max w h
    rw [unpackBits_eq] at h
    split at h
    · cases h
      exact .badWidth _
    · split at h
      · cases h
        exact .overrun _ _
      · cases h
  have ops : ∀ {i}, requireOperands i = .error e → DataError e := fun h => (require_error h).2 ▸ .illegal _
  cases i with
  | nop => cases h
  | bpack32 w => exact .inr (pack h)
  | bpack64 w => exact .inr (pack h)
  | bunpack32 w => exact .inr (unpack h)
  | bunpack64 w => exact .inr (unpack h)
  | geoMode =>
    rcases bind_eq_error h with h | ⟨_, _, h⟩
    · exact .inl h
    · cases h
  | geoLatEnc =>
    rcases bind_eq_error h with h | ⟨_, _, h⟩
    · exact .inl h
    rcases bind_eq_error h with h | ⟨_, _, h⟩
    · exact .inr (latEnc_error h ▸ .range (by decide) _ _)
    · cases h
  | geoLatDec =>
    rcases bind_eq_error h with h | ⟨_, _, h⟩
    · exact .inl h
    · cases h
  | geoLonEnc =>
    rcases bind_eq_error h with h | ⟨_, _, h⟩
    · exact .inl h
    rcases bind_eq_error h with h | ⟨_, _, h⟩
    · exact .inr (lonEnc_error h ▸ .range (by decide) _ _)
    · cases h
  | geoLonDec =>
    rcases bind_eq_error h with h | ⟨_, _, h⟩
    · exact .inl h
    · cases h
  | wfPktEnc ch pkt =>
    right
    rcases bind_eq_error h with h | ⟨_, _, h⟩
    · exact ops h
    rcases bind_eq_error h with h | ⟨_, _, h⟩
    · exact .of (checkSamples_error h) (by decide) (by decide)
    rcases bind_eq_error h with h | ⟨_, _, h⟩
    · unfold checkReference at h
      split at h
      · exact .of (checkSamples_error h) (by decide) (by decide)
      · cases h
    · dsimp only at h
      rcases bind_eq_error h with h | ⟨_, _, h⟩
      · exact (require_error h).2 ▸ .overrun _ _
      · cases h
  | wfPktDec ch pkt =>
    right
    rcases bind_eq_error h with h | ⟨_, _, h⟩
    · exact ops h
    rcases bind_eq_error h with h | ⟨_, _, h⟩
    · exact .of_pktDec h
    · cases h
  | wfRecEnc => exact wfRecEnc_error h
  | wfRecDec => exact wfRecDec_error h
  | prEnc => exact prEnc_error h
  | prDec => exact prDec_error h
  | boundsReset => cases h
  | setStatus v => cases h
  | getStatus => cases h

/-- R263: the field identifiers a command can report. -/
theorem effect_error_field {i : Instr} {s : State} {e : CmdError} (h : effect i s = .error e) : errFieldLegal e.field := by
  rcases effect_error h with h | h
  · obtain ⟨addr, rfl⟩ := effectConfig_error h
    simp [configError, noField, errFieldLegal]
  · exact h.field

/-- R265: CONFIG_INVALID comes of a failed check of the command's row and of nothing else. -/
theorem effect_error_kind {i : Instr} {s : State} {e : CmdError} (h : effect i s = .error e)
    (hc : ∀ c ∈ configChecks i s, c.1 = true) : e.kind ≠ .configInvalid := by
  rcases effect_error h with h | h
  · rw [(effectConfig_ok_iff i s).2 hc] at h
    cases h
  · exact h.kind

theorem errKind_number_bounds (k : ErrKind) : 1 ≤ k.number.toNat ∧ k.number.toNat ≤ 7 := by
  cases k <;> decide

/-- R22, R26, R28 to R32, R260: what no effect changes. -/
theorem EffectShape.keeps {i : Instr} {s t : State} (h : EffectShape s i t) : t = { s with
    res := t.res, bounds := t.bounds, presence := t.presence, wfTimestamp := t.wfTimestamp, wfScan := t.wfScan
    recMem := t.recMem, smpMem := t.smpMem, bitbuf := t.bitbuf } := by
  cases h <;> rfl

/-- R27: an effect writes exactly the RES registers its rule names. -/
theorem EffectShape.res_kept {i : Instr} {s t : State} (h : EffectShape s i t) {j : Nat} (hj : resCount i ≤ j) :
    t.resWord j = s.resWord j := by
  have key : ∀ (u : State) (zs : List Int), u.res = s.res → zs.length ≤ j → (u.writeRes zs).resWord j = s.resWord j := by
    intro u zs hu hz
    rw [resWord_writeRes, if_neg (by omega)]
    simp only [State.resWord, hu]
  cases h with
  | res zs hi hz => exact key s zs rfl (by omega)
  | nop => rfl
  | bounds => rfl
  | pack w v hi hb =>
    rcases hi with ⟨w, rfl⟩ | ⟨w, rfl⟩ <;> exact key _ _ rfl hj
  | pktEnc => exact key _ _ rfl hj
  | pktDec _ _ _ _ _ _ hz => exact key _ _ rfl (by rw [hz]; exact hj)
  | wfRecEnc => exact key _ _ rfl hj
  | wfRecDec _ _ _ _ _ _ hz => exact key _ _ rfl (by rw [hz]; exact hj)
  | prEnc => exact key _ _ rfl hj
  | prDec _ _ _ _ hz => exact key _ _ rfl (by rw [hz]; exact hj)

/-- The memories stay canonical. -/
theorem EffectShape.wf {i : Instr} {s t : State} (h : EffectShape s i t) (h1 : Memory.wf Config.recWords s.recMem)
    (h2 : Memory.wf Config.smpWords s.smpMem) (h3 : Memory.wf s.bitbufBytes s.bitbuf) :
    Memory.wf Config.recWords t.recMem ∧ Memory.wf Config.smpWords t.smpMem ∧ Memory.wf t.bitbufBytes t.bitbuf := by
  have key : ∀ (u : State) (zs : List Int), (Memory.wf Config.recWords u.recMem ∧ Memory.wf Config.smpWords u.smpMem ∧
      Memory.wf u.bitbufBytes u.bitbuf) → Memory.wf Config.recWords (u.writeRes zs).recMem ∧
      Memory.wf Config.smpWords (u.writeRes zs).smpMem ∧ Memory.wf (u.writeRes zs).bitbufBytes (u.writeRes zs).bitbuf :=
    fun _ _ h => h
  cases h with
  | res zs hi hz => exact key _ _ ⟨h1, h2, h3⟩
  | nop => exact ⟨h1, h2, h3⟩
  | bounds => exact ⟨h1, h2, h3⟩
  | pack w v hi hb =>
    have := wf_bitWrite h3 (show s.argU 0 + w ≤ 8 * s.bitbufBytes from hb) v
    exact key _ _ ⟨h1, h2, this⟩
  | pktEnc _ _ fs _ _ _ _ _ hb =>
    have hb' : s.argU 0 + fieldsWidth fs ≤ 8 * s.bitbufBytes := hb
    have := wf_writeFields h3 (b := s.argU 0) (fs := fs) hb'
    exact key _ _ ⟨h1, h2, this⟩
  | pktDec ch pkt xs zs hw hx hz =>
    refine key _ _ ⟨h1, Memory.wf_setRange h2 ?_, h3⟩
    have hl : (sampleWords xs).length = 64 := by rw [sampleWords, List.length_map, hx.1]
    have hw' : (decide (channelOk ch) && decide (packetOk pkt)) = true := hw
    rw [Bool.and_eq_true, decide_eq_true_iff, decide_eq_true_iff] at hw'
    have := smpAddr_lt (i := 63) hw'.1 hw'.2 (by omega)
    rw [smpAddr_add] at this
    rw [hl]
    omega
  | wfRecEnc bits out z hb =>
    have := wf_writeFields h3 (b := 8 * s.argU 0) (fs := recordFields bits out)
      (by rw [fieldsWidth_recordFields]; omega)
    exact key _ _ ⟨h1, h2, this⟩
  | wfRecDec ts scan pr xs zs hx hz =>
    refine key _ _ ⟨h1, Memory.wf_ofUnits ?_, h3⟩
    rw [sampleWords, List.length_map, hx]
    omega
  | prEnc bits out b z1 z2 z3 hb ha =>
    have := wf_writeFields h3 (b := 8 * s.argU 0) (fs := recordFields bits out)
      (by rw [fieldsWidth_recordFields]; omega)
    exact key _ _ ⟨h1, h2, this⟩
  | prDec counts ws zs hw hz =>
    refine key _ _ ⟨wf_writeRec h1 fun p hp => ?_, h2, h3⟩
    by_contra hlt
    exact not_reached (.inr (.inr (not_lt.1 hlt))) (hw p hp)

end Sys2Proof.Machine
end

