-- ==== Sys2Proof/Laws/HostBus.lean ====
section
/-! SUPPORT. What a host access can do (R60, R61, R70, R72), what a step can do (R260, R297), and how a command word ends. -/

namespace Sys2Proof.Machine

/-! ### The host map -/

/-- R60: the rows of the map stand in address order and do not overlap. -/
theorem hostMap_sorted (n : Nat) : (hostMap n).Pairwise fun r q => r.base + r.size ≤ q.base := by
  simp [hostMap]

/-- In a list of regions in address order, the region that covers an address is the one found. -/
theorem find_region {l : List Region} (hl : l.Pairwise fun r q => r.base + r.size ≤ q.base) {r : Region} (hr : r ∈ l)
    {a : Nat} (ha : r.covers a = true) : (l.find? fun q => q.covers a) = some r := by
  induction l with
  | nil => cases hr
  | cons q l ih =>
    obtain ⟨hq, hl⟩ := List.pairwise_cons.1 hl
    rcases List.mem_cons.1 hr with rfl | hr
    · rw [List.find?_cons, ha]
    · have := hq r hr
      have hn : q.covers a = false := by
        simp only [Region.covers, decide_eq_true_eq, decide_eq_false_iff_not] at ha ⊢
        omega
      rw [List.find?_cons, hn]
      exact ih hl hr

/-- R60: the region of an address is the row that covers it. -/
theorem regionOf_eq_some {n a : Nat} {r : Region} :
    regionOf n a = some r ↔ r ∈ hostMap n ∧ r.base ≤ a ∧ a < r.base + r.size := by
  constructor
  · intro h
    have hc : r.covers a = true := List.find?_some (p := fun (q : Region) => q.covers a) h
    exact ⟨List.mem_of_find?_eq_some h, of_decide_eq_true hc⟩
  · rintro ⟨hr, ha⟩
    exact find_region (hostMap_sorted n) hr (decide_eq_true ha)

/-- R61: an access at the `i`-th place of a region, in the region's width, reaches that unit. -/
theorem target_unit {n i : Nat} (r : Region) (hr : r ∈ hostMap n) (hi : r.width.bytes * i < r.size)
    (hb : r.base % r.width.bytes = 0) : target n r.width (r.base + r.width.bytes * i) = .unit r.kind i := by
  have hp : 0 < r.width.bytes := by cases r.width <;> decide
  unfold target
  rw [regionOf_eq_some.2 ⟨hr, by omega, by omega⟩]
  dsimp only
  rw [if_pos ⟨rfl, by rw [Nat.add_mul_mod_self_left, hb]⟩, Nat.add_sub_cancel_left, Nat.mul_div_cancel_left i hp]

theorem target_control {n i : Nat} (h : i < 9) : target n .w64 (8 * i) = .unit .control i := by
  have := target_unit (n := n) (i := i) ⟨.control, 0x0000, 0x48, .w64⟩ (by simp [hostMap]) (by simp only [Width.bytes]; omega) rfl
  rwa [Nat.zero_add] at this

theorem target_arg {n i : Nat} (h : i < 8) : target n .w64 (0x80 + 8 * i) = .unit .argRegs i :=
  target_unit ⟨.argRegs, 0x0080, 0x40, .w64⟩ (by simp [hostMap]) (by simp only [Width.bytes]; omega) rfl

theorem target_res {n i : Nat} (h : i < 8) : target n .w64 (0xC0 + 8 * i) = .unit .resRegs i :=
  target_unit ⟨.resRegs, 0x00C0, 0x40, .w64⟩ (by simp [hostMap]) (by simp only [Width.bytes]; omega) rfl

theorem target_config {n i : Nat} (h : i < 4) : target n .w64 (0x100 + 8 * i) = .unit .config i :=
  target_unit ⟨.config, 0x0100, 0x20, .w64⟩ (by simp [hostMap]) (by simp only [Width.bytes]; omega) rfl

theorem target_bounds {n i : Nat} (h : i < 8) : target n .w64 (0x180 + 8 * i) = .unit .bounds i :=
  target_unit ⟨.bounds, 0x0180, 0x40, .w64⟩ (by simp [hostMap]) (by simp only [Width.bytes]; omega) rfl

theorem target_waveform {n i : Nat} (h : i < 11) : target n .w64 (0x200 + 8 * i) = .unit .waveform i :=
  target_unit ⟨.waveform, 0x0200, 0x58, .w64⟩ (by simp [hostMap]) (by simp only [Width.bytes]; omega) rfl

theorem target_fieldTable {n i : Nat} (h : i < 38) : target n .w64 (0x1000 + 8 * i) = .unit .fieldTable i :=
  target_unit ⟨.fieldTable, 0x1000, 0x130, .w64⟩ (by simp [hostMap]) (by simp only [Width.bytes]; omega) rfl

theorem target_record {n i : Nat} (h : i < 328) : target n .w64 (0x2000 + 8 * i) = .unit .record i :=
  target_unit ⟨.record, 0x2000, 0xA40, .w64⟩ (by simp [hostMap]) (by simp only [Width.bytes]; omega) rfl

theorem target_sample {n i : Nat} (h : i < 8064) : target n .w16 (0x4000 + 2 * i) = .unit .sample i :=
  target_unit ⟨.sample, 0x4000, 0x3F00, .w16⟩ (by simp [hostMap]) (by simp only [Width.bytes]; omega) rfl

theorem target_buffer {n i : Nat} (h : i < n) : target n .w8 (0x10000 + i) = .unit .buffer i := by
  have := target_unit (n := n) (i := i) ⟨.buffer, 0x10000, n, .w8⟩ (by simp [hostMap]) (by simp only [Width.bytes]; omega)
    (Nat.mod_one _)
  simpa only [Width.bytes, Nat.one_mul] using this

/-- R61: a unit reached in a memory is one of that memory. -/
theorem target_unit_bounds {n : Nat} {wd : Width} {a i : Nat} {k : RegionKind} (h : target n wd a = .unit k i) :
    (k = .record → i < Config.recWords) ∧ (k = .sample → i < Config.smpWords) ∧ (k = .buffer → i < n) := by
  unfold target at h
  split at h
  · rename_i r hr
    split at h
    · rename_i hc
      obtain ⟨rfl, -⟩ := hc
      injection h with h1 h2
      subst h1 h2
      obtain ⟨hm, hin⟩ := regionOf_eq_some.1 hr
      simp only [hostMap, List.mem_cons, List.not_mem_nil, or_false] at hm
      simp only [Config.recWords, Config.smpWords]
      rcases hm with rfl | rfl | rfl | rfl | rfl | rfl | rfl | rfl | rfl | rfl <;> simp [Width.bytes] at hin ⊢ <;> omega
    · cases h
  · split at h <;> cases h

/-- R60: STATUS is reached at its own address and at its own width only. -/
theorem target_status {n : Nat} {wd : Width} {a : Nat} (h : target n wd a = .unit .control 3) : wd = .w64 ∧ a = 0x18 := by
  unfold target at h
  split at h
  · rename_i r hr
    split at h
    · rename_i hc
      obtain ⟨rfl, ha⟩ := hc
      injection h with h1 h2
      obtain ⟨hm, hin⟩ := regionOf_eq_some.1 hr
      simp only [hostMap, List.mem_cons, List.not_mem_nil, or_false] at hm
      rcases hm with rfl | rfl | rfl | rfl | rfl | rfl | rfl | rfl | rfl | rfl <;> simp [Width.bytes] at *
      omega
    · cases h
  · split at h <;> cases h

/-- R60: every row of the map starts at a multiple of 8 and is a whole number of its units. -/
theorem region_aligned {n : Nat} {r : Region} (hr : r ∈ hostMap n) : r.base % 8 = 0 ∧ r.size % r.width.bytes = 0 := by
  simp only [hostMap, List.mem_cons, List.not_mem_nil, or_false] at hr
  rcases hr with rfl | rfl | rfl | rfl | rfl | rfl | rfl | rfl | rfl | rfl <;> simp [Width.bytes, Nat.mod_one]

/-- R61: an access none of whose bytes is mapped. -/
theorem target_unmapped {n : Nat} {wd : Width} {a : Nat} (h : ∀ k, k < wd.bytes → regionOf n (a + k) = none) :
    target n wd a = .unmapped := by
  have h0 : regionOf n a = none := h 0 (by cases wd <;> decide)
  unfold target
  rw [h0]
  dsimp only
  rw [if_neg]
  rw [List.any_eq_true]
  rintro ⟨k, hk, hs⟩
  rw [h k (List.mem_range.1 hk)] at hs
  cases hs

/-- R61: an access one of whose bytes is mapped, and which is not an aligned access of that region's width. -/
theorem target_bad {n k : Nat} {wd : Width} {a : Nat} {r : Region} (hk : k < wd.bytes) (hr : regionOf n (a + k) = some r)
    (hb : ¬ (r.width = wd ∧ a % wd.bytes = 0)) : target n wd a = .bad := by
  unfold target
  split
  · rename_i q hq
    refine if_neg fun ⟨hw, ha⟩ => hb ?_
    subst hw
    obtain ⟨hm, h1, h2⟩ := regionOf_eq_some.1 hq
    obtain ⟨hbase, hsize⟩ := region_aligned hm
    have hq' : regionOf n (a + k) = some q := regionOf_eq_some.2 ⟨hm, by omega, by
      revert hk ha hsize
      cases q.width <;> simp only [Width.bytes] <;> omega⟩
    rw [hr] at hq'
    cases hq'
    exact ⟨rfl, ha⟩
  · exact if_pos (List.any_eq_true.2 ⟨k, List.mem_range.2 hk, by rw [hr]; rfl⟩)

/-- R24: the STATUS word by its fields. -/
theorem State.status_eq (s : State) : s.status =
    BitVec.ofNat 64 (s.code.toNat * 256 + s.err.toNat * 4 + s.done.toNat * 2 + s.busy.toNat) := by
  unfold State.status
  generalize s.code = c
  generalize s.err = e
  generalize s.done = d
  generalize s.busy = b
  revert c e d b
  decide +kernel

/-- R22: the CTRL word by its fields. -/
theorem State.ctrl_eq (s : State) : s.ctrl = BitVec.ofNat 64 (s.append.toNat * 2 + s.irqEn.toNat) := by
  unfold State.ctrl
  generalize s.append = a
  generalize s.irqEn = e
  revert a e
  decide

/-! ### Accesses -/

/-- Everything a host write can do: refused, ignored, or the effect of its unit. -/
theorem busWrite_cases (s : State) (wd : Width) (a : BitVec 32) (v : Word) :
    (∃ r, (r = .busyAccess ∨ r = .badAccess) ∧ busWrite s wd a v = .refuse r) ∨
      (target s.bitbufBytes wd a.toNat = .unmapped ∧ busWrite s wd a v = .next s) ∨
      ∃ k i, target s.bitbufBytes wd a.toNat = .unit k i ∧ (s.busy = true → k = .control ∧ i = 3) ∧
        busWrite s wd a v = writeUnit s v k i := by
  unfold busWrite
  dsimp only
  cases h : target s.bitbufBytes wd a.toNat with
  | bad => exact .inl ⟨_, .inr rfl, rfl⟩
  | unmapped =>
    by_cases hb : busyForbids s .unmapped = true
    · exact .inl ⟨_, .inl rfl, if_pos hb⟩
    · exact .inr (.inl ⟨rfl, if_neg hb⟩)
  | unit k i =>
    by_cases hb : busyForbids s (.unit k i) = true
    · exact .inl ⟨_, .inl rfl, if_pos hb⟩
    · refine .inr (.inr ⟨k, i, rfl, fun hs => ?_, if_neg hb⟩)
      unfold busyForbids at hb
      simpa [hs] using hb

/-- Everything a host read can do: refused, or a value in `rdata`. -/
theorem busRead_cases (s : State) (wd : Width) (a : BitVec 32) :
    (∃ r, (r = .busyAccess ∨ r = .badAccess) ∧ busRead s wd a = .refuse r) ∨
      ∃ v, busRead s wd a = .next { s with rdata := v } := by
  unfold busRead
  dsimp only
  cases h : target s.bitbufBytes wd a.toNat with
  | bad => exact .inl ⟨_, .inr rfl, rfl⟩
  | unmapped =>
    by_cases hb : busyForbids s .unmapped = true
    · exact .inl ⟨_, .inl rfl, if_pos hb⟩
    · exact .inr ⟨_, if_neg hb⟩
  | unit k i =>
    by_cases hb : busyForbids s (.unit k i) = true
    · exact .inl ⟨_, .inl rfl, if_pos hb⟩
    · exact .inr ⟨_, if_neg hb⟩

/-- With no command in flight, a write to a mapped unit has its effect. -/
theorem busWrite_idle {s : State} (h : s.inflight = none) {wd : Width} {a : BitVec 32} {k : RegionKind} {i : Nat}
    (ht : target s.bitbufBytes wd a.toNat = .unit k i) (v : Word) : busWrite s wd a v = writeUnit s v k i := by
  unfold busWrite
  dsimp only
  rw [ht]
  simp [busyForbids, State.busy, h]

/-- With no command in flight, a read of a mapped unit returns its value. -/
theorem busRead_idle {s : State} (h : s.inflight = none) {wd : Width} {a : BitVec 32} {k : RegionKind} {i : Nat}
    (ht : target s.bitbufBytes wd a.toNat = .unit k i) : busRead s wd a = .next { s with rdata := readUnit s k i } := by
  unfold busRead
  dsimp only
  rw [ht]
  simp [busyForbids, State.busy, h]

/-- R61: an access that is not an aligned one of its region's width is refused. -/
theorem bus_bad {s : State} {wd : Width} {a : BitVec 32} (h : target s.bitbufBytes wd a.toNat = .bad) (v : Word) :
    busWrite s wd a v = .refuse .badAccess ∧ busRead s wd a = .refuse .badAccess := by
  unfold busWrite busRead
  rw [h]
  exact ⟨rfl, rfl⟩

/-- R61: with no command in flight, an unmapped access reads 0 and writes nothing. -/
theorem bus_unmapped {s : State} (hs : s.inflight = none) {wd : Width} {a : BitVec 32}
    (h : target s.bitbufBytes wd a.toNat = .unmapped) (v : Word) :
    busWrite s wd a v = .next s ∧ busRead s wd a = .next { s with rdata := 0#64 } := by
  unfold busWrite busRead
  rw [h]
  simp [busyForbids, State.busy, hs]

/-- R24, R72: STATUS may be read at any time. -/
theorem busRead_status (s : State) : busRead s .w64 0x018#32 = .next { s with rdata := s.status } := by
  unfold busRead
  rw [show target s.bitbufBytes .w64 (0x018#32).toNat = .unit .control 3 from target_control (i := 3) (by decide)]
  simp [busyForbids, readUnit, readControl]

/-! ### Steps -/

/-- Everything a step that goes on can be: a command executed to completion, or the host's turn. -/
theorem step_cases {s t : State} (h : step s = .next t) :
    (∃ w u, advance s = .execute w u ∧ runWord w u = .next t) ∨ advance s = .next t := by
  unfold step at h
  split at h
  · rename_i u hu
    cases h
    exact .inr hu
  · cases h
  · rename_i w u hu
    exact .inl ⟨w, u, hu, h⟩

/-- R94, R260: executing a word is a command's effect, completed or aborted, or the abort of an illegal word. -/
theorem runWord_cases {w : Word} {s t : State} (h : runWord w s = .next t) :
    (∃ i u, decode w = .ok i ∧ effect i s = .ok u ∧ t = u.succeed) ∨
      ∃ e, errFieldLegal e.field ∧ t = s.abort w e := by
  unfold runWord at h
  split at h
  · rename_i i hi
    rcases exec_cases h with ⟨u, hu, rfl⟩ | ⟨e, he, rfl⟩
    · exact .inl ⟨i, u, hi, hu, rfl⟩
    · refine .inr ⟨e, effect_error_field he, ?_⟩
      rcases decode_cases w with ⟨j, h1, _, h3, _⟩ | ⟨⟨_, h1⟩, _⟩
      · rw [hi] at h1
        cases h1
        rw [h3]
      · rw [hi] at h1
        cases h1
  · cases h
    exact .inr ⟨_, by simp [illegalError, noField, errFieldLegal], rfl⟩

end Sys2Proof.Machine
end

