-- ==== Sys2Proof/Laws/PerInstr.lean ====
section
/-! SUPPORT. One fact per command about its encoding: the command word meets its row of the opcode table, whose
mask and match are copied here from spec/opcode_table.json. -/

namespace Sys2Proof.Laws.TableRow

/-- The table's mask of each row. -/
def tableMask : Instr → Word
  | .nop => 0xFFFFFFFFFFFFFFFF#64
  | .bpack32 _ => 0xFFFFFFFFFFFF80FF#64
  | .bunpack32 _ => 0xFFFFFFFFFFFF80FF#64
  | .bpack64 _ => 0xFFFFFFFFFFFF80FF#64
  | .bunpack64 _ => 0xFFFFFFFFFFFF80FF#64
  | .geoMode => 0xFFFFFFFFFFFFFFFF#64
  | .geoLatEnc => 0xFFFFFFFFFFFFFFFF#64
  | .geoLatDec => 0xFFFFFFFFFFFFFFFF#64
  | .geoLonEnc => 0xFFFFFFFFFFFFFFFF#64
  | .geoLonDec => 0xFFFFFFFFFFFFFFFF#64
  | .wfPktEnc _ _ => 0xFFFFFFFFFFFF00FF#64
  | .wfPktDec _ _ => 0xFFFFFFFFFFFF00FF#64
  | .wfRecEnc => 0xFFFFFFFFFFFFFFFF#64
  | .wfRecDec => 0xFFFFFFFFFFFFFFFF#64
  | .prEnc => 0xFFFFFFFFFFFFFFFF#64
  | .prDec => 0xFFFFFFFFFFFFFFFF#64
  | .boundsReset => 0xFFFFFFFFFFFFFFFF#64
  | .setStatus _ => 0xFFFFFFFFFFFFFEFF#64
  | .getStatus => 0xFFFFFFFFFFFFFFFF#64

/-- The table's match of each row. -/
def tableMatch : Instr → Word
  | .nop => 0x0000000000000000#64
  | .bpack32 _ => 0x0000000000000001#64
  | .bunpack32 _ => 0x0000000000000002#64
  | .bpack64 _ => 0x0000000000000003#64
  | .bunpack64 _ => 0x0000000000000004#64
  | .geoMode => 0x0000000000000010#64
  | .geoLatEnc => 0x0000000000000011#64
  | .geoLatDec => 0x0000000000000012#64
  | .geoLonEnc => 0x0000000000000013#64
  | .geoLonDec => 0x0000000000000014#64
  | .wfPktEnc _ _ => 0x0000000000000020#64
  | .wfPktDec _ _ => 0x0000000000000021#64
  | .wfRecEnc => 0x0000000000000022#64
  | .wfRecDec => 0x0000000000000023#64
  | .prEnc => 0x0000000000000030#64
  | .prDec => 0x0000000000000031#64
  | .boundsReset => 0x0000000000000032#64
  | .setStatus _ => 0x0000000000000040#64
  | .getStatus => 0x0000000000000041#64

/-- The word of a command agrees with its table row on every bit the row fixes. -/
def Statement (i : Instr) : Prop := encode i &&& tableMask i = tableMatch i

theorem nop : Statement .nop := by unfold Statement; decide
theorem bpack32 : ∀ w, Statement (.bpack32 w) := by unfold Statement; decide +kernel
theorem bunpack32 : ∀ w, Statement (.bunpack32 w) := by unfold Statement; decide +kernel
theorem bpack64 : ∀ w, Statement (.bpack64 w) := by unfold Statement; decide +kernel
theorem bunpack64 : ∀ w, Statement (.bunpack64 w) := by unfold Statement; decide +kernel
theorem geoMode : Statement .geoMode := by unfold Statement; decide
theorem geoLatEnc : Statement .geoLatEnc := by unfold Statement; decide
theorem geoLatDec : Statement .geoLatDec := by unfold Statement; decide
theorem geoLonEnc : Statement .geoLonEnc := by unfold Statement; decide
theorem geoLonDec : Statement .geoLonDec := by unfold Statement; decide
theorem wfPktEnc : ∀ ch pkt, Statement (.wfPktEnc ch pkt) := by unfold Statement; decide +kernel
theorem wfPktDec : ∀ ch pkt, Statement (.wfPktDec ch pkt) := by unfold Statement; decide +kernel
theorem wfRecEnc : Statement .wfRecEnc := by unfold Statement; decide
theorem wfRecDec : Statement .wfRecDec := by unfold Statement; decide
theorem prEnc : Statement .prEnc := by unfold Statement; decide
theorem prDec : Statement .prDec := by unfold Statement; decide
theorem boundsReset : Statement .boundsReset := by unfold Statement; decide
theorem setStatus : ∀ v, Statement (.setStatus v) := by unfold Statement; decide +kernel
theorem getStatus : Statement .getStatus := by unfold Statement; decide

end Sys2Proof.Laws.TableRow
end

