-- ==== Sys2Proof/Tests/Slice0.lean ====
section
/-! SUPPORT. Tests. Expected values are those of spec/95_test_vectors.md (named in each comment) and the opcode
table's own words; configuration T is that file's. -/

namespace Sys2Proof.Machine.Tests

-- one theorem after another: many kernel evaluations at once need more thread stacks than the memory limit allows
set_option Elab.async false

/-! ### Helpers -/

/-- The state after an outcome, when it is a next state. -/
def after : Host.Outcome State Fault Refusal → State
  | .next s => s
  | .fault _ => State.reset
  | .refused _ => State.reset

/-- Configuration T of 95_test_vectors.md, on the reset state. -/
def cfgT : State :=
  { State.reset with
    posScale := 1000#32, lonBaseBits := 8#7, cxySizeBits := 16#7, cwfSizeBits := 16#7
    fbits := #v[32, 12, 20, 12, 12, 16, 8, 8, 16, 16, 16, 20, 12, 10, 10, 4, 4, 32, 12]
    foff := #v[0, 1800, 100000, 2000, 2000, 0, 0, 0, 10000, 10000, 10000, 100000, 0, 0, 0, 0, 0, 0, 1800] }

/-- With ARG0, ARG1, … set. -/
def args (s : State) (zs : List Int) : State := { s with arg := writeResFrom s.arg 0 zs }

/-- With BITBUF holding these bytes from 0 on. -/
def bytes (s : State) (l : List Nat) : State := { s with bitbuf := Memory.ofUnits 0 (l.map (BitVec.ofNat 8)) }

/-- With packet `p` of channel `c` holding `f 0 … f 63`. -/
def packet (s : State) (c p : Nat) (f : Nat → Nat) : State :=
  { s with smpMem := s.smpMem.setRange (smpAddr c p 0) ((List.range 64).map fun i => BitVec.ofNat 16 (f i)) }

/-- With packet 0 of channel 1 marked present. -/
def present1 (s : State) : State := { s with presence := s.presence.setIfInBounds 1 1#14 }

/-- The first `n` bytes of BITBUF. -/
def buf (s : State) (n : Nat) : List Nat := (List.range n).map fun a => (s.bitbuf.get a).toNat

/-- The first `n` RES registers. -/
def results (s : State) (n : Nat) : List Word := (List.range n).map s.resWord

/-- STATUS.CODE, ERR_FIELD, ERR_INDEX, ERR_INFO. -/
def error (s : State) : List Nat := [s.code.toNat, s.errField.toNat, s.errIndex.toNat, s.errInfo.toNat]

/-! ### WellFormed: each check refuses an ill-formed term (R94 point 3) -/

theorem test_wf_refuses_channel : (Instr.wfPktEnc 9#4 0#4).wellFormed = false := by decide
theorem test_wf_refuses_packet : (Instr.wfPktEnc 0#4 14#4).wellFormed = false := by decide
theorem test_wf_refuses_dec_channel : (Instr.wfPktDec 9#4 0#4).wellFormed = false := by decide
theorem test_wf_refuses_dec_packet : (Instr.wfPktDec 8#4 14#4).wellFormed = false := by decide
theorem test_wf_accepts_last : (Instr.wfPktDec 8#4 13#4).wellFormed = true := by decide

/-! ### Decode: words written out from R91 and R93, and from the vectors -/

theorem test_decode_nop : decode 0x0000000000000000#64 = .ok .nop := by decide
/-- BP-1: 0WWWWWWW with W = 0001010, OP 00000001 -/
theorem test_decode_bpack32 : decode (0#48 ++ 0b0000101000000001#16) = .ok (.bpack32 10#7) := by decide
theorem test_decode_bunpack32 : decode 0x0A02#64 = .ok (.bunpack32 10#7) := by decide
theorem test_decode_bpack64 : decode 0x4003#64 = .ok (.bpack64 64#7) := by decide
theorem test_decode_bunpack64 : decode 0x4004#64 = .ok (.bunpack64 64#7) := by decide
theorem test_decode_geo_mode : decode (0#48 ++ 0b0000000000010000#16) = .ok .geoMode := by decide
theorem test_decode_geo_lat_enc : decode 0x11#64 = .ok .geoLatEnc := by decide
theorem test_decode_geo_lat_dec : decode 0x12#64 = .ok .geoLatDec := by decide
theorem test_decode_geo_lon_enc : decode 0x13#64 = .ok .geoLonEnc := by decide
theorem test_decode_geo_lon_dec : decode 0x14#64 = .ok .geoLonDec := by decide
/-- PPPPCCCC with packet 13 and channel 2 -/
theorem test_decode_wf_pkt_enc : decode (0#48 ++ 0b1101001000100000#16) = .ok (.wfPktEnc 2#4 13#4) := by decide
theorem test_decode_wf_pkt_dec : decode 0x3821#64 = .ok (.wfPktDec 8#4 3#4) := by decide
theorem test_decode_wf_rec_enc : decode 0x22#64 = .ok .wfRecEnc := by decide
theorem test_decode_wf_rec_dec : decode 0x23#64 = .ok .wfRecDec := by decide
theorem test_decode_pr_enc : decode (0#48 ++ 0b0000000000110000#16) = .ok .prEnc := by decide
theorem test_decode_pr_dec : decode 0x31#64 = .ok .prDec := by decide
theorem test_decode_bounds_reset : decode 0x32#64 = .ok .boundsReset := by decide
theorem test_decode_set_status : decode (0#48 ++ 0b0000000101000000#16) = .ok (.setStatus 1#1) := by decide
theorem test_decode_get_status : decode 0x41#64 = .ok .getStatus := by decide
/-- CD-1, CD-2, CD-3, CD-4, CD-5, BP-17, ST-7 -/
theorem test_decode_illegal :
    [0x05#64, 0x0920#64, 0xE020#64, 0x1000000000000#64, 0x0110#64, 0x8001#64, 0x240#64].map decode =
      [.error .reservedOpcode, .error .badChannel, .error .badPacket, .error .reservedBits, .error .reservedBits,
        .error .reservedBits, .error .reservedBits] := by decide
theorem test_decodeTableWord : decodeTableWord 64 0xD221 = some (.wfPktDec 2#4 13#4) := by decide

/-! ### Bit packing (2.1) -/

/-- BP-1 -/
theorem test_bpack32 :
    let t := after (exec (.bpack32 10#7) (args State.reset [3, 0x2AB]))
    (buf t 2, results t 1) = ([0x15, 0x58], [13#64]) := by decide +kernel
/-- BP-2: the neighbouring bits are kept -/
theorem test_bpack32_keeps_bits :
    buf (after (exec (.bpack32 10#7) (args (bytes State.reset [0xFF, 0xFF, 0xFF]) [3, 0x2AB]))) 3 =
      [0xF5, 0x5F, 0xFF] := by decide +kernel
/-- BP-3 -/
theorem test_bunpack32 :
    results (after (exec (.bunpack32 10#7) (args (bytes State.reset [0x15, 0x58]) [3]))) 2 = [0x2AB#64, 13#64] := by
  decide +kernel
/-- BP-4 -/
theorem test_bpack64 :
    let t := after (exec (.bpack64 64#7) (args State.reset [5, 0x0123456789ABCDEF]))
    (buf t 9, results t 1) = ([0x00, 0x09, 0x1A, 0x2B, 0x3C, 0x4D, 0x5E, 0x6F, 0x78], [69#64]) := by decide +kernel
/-- BP-10 -/
theorem test_bunpack64 :
    results (after (exec (.bunpack64 32#7)
      (args (bytes State.reset [0x00, 0x09, 0x1A, 0x2B, 0x3C, 0x4D, 0x5E, 0x6F, 0x78]) [4]))) 2 =
      [0x0091A2B3#64, 36#64] := by decide +kernel
/-- BP-11, and the priority of CD-6 -/
theorem test_bad_width :
    error (after (exec (.bpack32 33#7) (args State.reset [200000, 0]))) = [4, 0xFF, 0xFFFFFF, 33] := by decide +kernel
/-- BP-14, BP-15, BP-16 -/
theorem test_overrun :
    (error (after (exec (.bpack32 9#7) (args State.reset [131064, 0]))),
      results (after (exec (.bunpack32 0#7) (args State.reset [131072]))) 2,
      (after (exec (.bunpack32 0#7) (args State.reset [131073]))).code) =
      ([2, 45, 0xFFFFFF, 131064], [0#64, 131072#64], 2#8) := by decide +kernel

/-! ### Geodetic codec (2.2) -/

/-- G-2, G-8 -/
theorem test_geo_mode :
    (results (after (exec .geoMode (args cfgT [86000]))) 4, results (after (exec .geoMode (args cfgT [-59999]))) 4) =
      ([176#64, 19#64, 1#64, 4#64], [30#64, 8#64, 0#64, 0#64]) := by decide +kernel
/-- G-15, G-19 -/
theorem test_geo_lat_enc :
    (results (after (exec .geoLatEnc (args cfgT [45123]))) 2, error (after (exec .geoLatEnc (args cfgT [-90001])))) =
      ([135123#64, 19#64], [1, 42, 0xFFFFFF, 0xFFFFFFFFFFFEA06F]) := by decide +kernel
/-- G-21 -/
theorem test_geo_lat_dec :
    results (after (exec .geoLatDec (args cfgT [0x8000000000000 + 5]))) 2 = [wrap64 (-89995), 19#64] := by
  decide +kernel
/-- G-22, G-26 -/
theorem test_geo_lon_enc :
    (results (after (exec .geoLonEnc (args cfgT [-122500, -122450, 45123]))) 3,
      error (after (exec .geoLonEnc (args cfgT [4872, 5000, 0])))) =
      ([178#64, 8#64, 0#64], [1, 43, 0xFFFFFF, 4872]) := by decide +kernel
/-- G-33, G-34 -/
theorem test_geo_lon_dec :
    (results (after (exec .geoLonDec (args cfgT [178, -122450, 45123]))) 3,
      results (after (exec .geoLonDec (args cfgT [190500, 10000, 87000]))) 3) =
      ([wrap64 (-122500), 8#64, 0#64], [10500#64, 19#64, 1#64]) := by decide +kernel
/-- G-36, G-37 -/
theorem test_geo_config :
    (error (after (exec .geoMode State.reset)),
      error (after (exec .geoLonEnc { cfgT with lonBaseBits := 62#7 }))) =
      ([5, 0xFF, 0xFFFFFF, 0x100], [5, 0xFF, 0xFFFFFF, 0x108]) := by decide +kernel

/-! ### Waveform (2.3, 2.4) -/

/-- WF-6 -/
theorem test_wf_pkt_enc_second_difference :
    let t := after (exec (.wfPktEnc 0#4 0#4) (packet cfgT 0 0 fun i => i * i / 8))
    (results t 3, buf t 15) =
      ([2#64, 113#64, 113#64],
        [0x40, 0, 0, 0x7F, 0xEF, 0xFC, 0x28, 0x88, 0x88, 0x88, 0x88, 0x88, 0x88, 0x88, 0x80]) := by decide +kernel
/-- WF-2 -/
theorem test_wf_pkt_enc_cross_channel :
    let t := after (exec (.wfPktEnc 2#4 0#4)
      (present1 (packet (packet cfgT 2 0 fun _ => 500) 1 0 fun _ => 497)))
    (results t 7, buf t 3) =
      ([3#64, 18#64, 18#64, 81#64, 4#64, 7#64, 3#64], [0x6F, 0xF0, 0x00]) := by decide +kernel
/-- WD-1 -/
theorem test_wf_pkt_dec :
    let t := after (exec (.wfPktDec 0#4 0#4) (bytes cfgT [0x2F, 0xA3, 0xFF, 0x00]))
    (results t 3, t.samples 0 0) = ([1#64, 28#64, 28#64], List.replicate 64 500) := by decide +kernel
/-- WD-2, WD-5 -/
theorem test_wf_pkt_dec_errors :
    (error (after (exec (.wfPktDec 0#4 3#4) (bytes cfgT [0xA0, 0, 0, 0]))),
      error (after (exec (.wfPktDec 0#4 0#4) (bytes cfgT [0x3F, 0xFB, 0xFF, 0x18])))) =
      ([6, 44, 0xFF0300, 5], [7, 41, 0x010000, 1024]) := by decide +kernel
/-- WR-2 -/
theorem test_wf_rec_enc :
    let t := after (exec .wfRecEnc cfgT)
    (results t 2, buf t 10) = ([24#64, 186#64], [0, 0x18, 0, 0, 0, 0, 0x70, 0x80, 0, 0]) := by decide +kernel
/-- WR-4, WR-5 -/
theorem test_wf_rec_enc_errors :
    (error (after (exec .wfRecEnc { cfgT with cwfSizeBits := 4#7 })),
      error (after (exec .wfRecEnc { cfgT with cwfSizeBits := 0#7 }))) =
      ([1, 40, 0xFFFFFF, 22], [5, 0xFF, 0xFFFFFF, 0x118]) := by decide +kernel
/-- the record of WR-2, with the bitmap bit of packet 1 of channel 0 set and the size raised for one packet of
28 bits (WF-1, placed at stream bit 186): 214 bits, 27 bytes -/
theorem test_wf_rec_dec :
    let t := after (exec .wfRecDec (bytes cfgT
      [0, 27, 0, 0, 0, 0, 0x70, 0x84, 0, 0, 0, 0, 0, 0, 0, 0, 0, 0, 0, 0, 0, 0, 0, 0x0B, 0xE8, 0xFF, 0xC0]))
    (results t 2, t.presence.getD 0 0#14, t.samples 0 1 == List.replicate 64 500, t.wfScan) =
      ([27#64, 214#64], 2#14, true, 0#64) := by decide +kernel

/-! ### Point record (2.5) -/

/-- PR-3 -/
def recPr3 : State :=
  { cfgT with recMem := [(11, 87000#64), (12, 10000#64), (19, 87001#64), (20, 10500#64)] }

/-- The bytes of PR-3. -/
def bytesPr3 : List Nat :=
  [0x00, 0x29, 0, 0, 0, 0, 0, 0, 0, 0x0E, 0x10, 0xAC, 0xDA, 0x17, 0x31, 0x80, 0xC3, 0x50, 0x3E, 0x83, 0xE8] ++
    [0, 0, 0, 0, 0x2B, 0x36, 0x95, 0xD0, 0x48, 0x4E, 0x20, 0x4E, 0x20, 0x4E, 0x20, 0, 0, 0, 0, 0]

theorem test_pr_enc :
    let t := after (exec .prEnc recPr3)
    (results t 4, buf t 41) = ([41#64, 19#64, 1#64, 177#64], bytesPr3) := by decide +kernel
/-- PR-E2 (count 5 on channel 3), PR-E10 -/
theorem test_pr_enc_errors :
    (error (after (exec .prEnc { recPr3 with recMem := recPr3.recMem.set 3 5#64 })),
      error (after (exec .prEnc { recPr3 with fbits := recPr3.fbits.setIfInBounds 12 65#7 }))) =
      ([1, 38, 0xFFFF03, 5], [5, 0xFF, 0xFFFFFF, 0x10C0]) := by decide +kernel
/-- PR-4: decoding restores REC -/
theorem test_pr_dec :
    let t := after (exec .prDec (bytes cfgT bytesPr3))
    (results t 4, t.recMem) = ([41#64, 19#64, 1#64, 177#64], recPr3.recMem) := by decide +kernel
/-- R232: a record with APPEND moves the platform bounds -/
theorem test_pr_enc_bounds :
    let t := after (exec .prEnc { recPr3 with append := true })
    (t.bounds.minPlat, t.bounds.maxPlon, t.bounds.minLat) = (87000#64, 10000#64, 0x7FFFFFFFFFFFFFFF#64) := by
  decide +kernel

/-! ### Status helpers, bounds (2.6) -/

/-- BD-1 -/
theorem test_bounds_reset :
    (after (exec .boundsReset { cfgT with bounds := { Bounds.sentinel with minLat := 5#64 } })).bounds =
      Bounds.sentinel := by decide +kernel
/-- ST-1, ST-2 -/
theorem test_set_status :
    (results (after (exec (.setStatus 1#1) (args State.reset [4, 1]))) 1,
      results (after (exec (.setStatus 0#1) (args State.reset [5, 4]))) 1) = ([5#64], [1#64]) := by decide +kernel
/-- ST-4, ST-5 -/
theorem test_get_status :
    (results (after (exec .getStatus (args State.reset [5, 4]))) 1,
      results (after (exec .getStatus (args State.reset [5, 2]))) 1) = ([1#64], [0#64]) := by decide +kernel

/-! ### Completion, host accesses (2.7) -/

/-- NOP: R120's example -/
theorem test_nop : (after (exec .nop State.reset)).status = 2#64 := by decide +kernel
/-- CD-1 -/
theorem test_illegal :
    let t := after (step (State.reset.withFetchWord 64 5))
    (t.status, t.errCode, t.errCmd, t.errInfo, t.errField, t.errIndex) =
      (0x306#64, 3#8, 5#64, 5#64, 0xFF#8, 0xFFFFFF#24) := by decide +kernel
/-- CD-8: the interrupt follows DONE, and a write of STATUS with bit 1 clears it -/
theorem test_irq :
    let t := after (exec .nop { State.reset with irqEn := true })
    let u := after (step { t with script := [wr addrStatus 2] })
    (t.irq, u.irq, u.status) = (true, false, 0#64) := by decide +kernel
/-- CD-11 -/
theorem test_soft_reset :
    let s := packet (bytes { cfgT with done := true } [1, 2]) 0 0 fun _ => 3
    let t := after (step { s with script := [wr addrCtrl 7] })
    t = { State.reset with bitbuf := s.bitbuf, smpMem := s.smpMem } := by decide +kernel
/-- R61: a read of an unmapped address, a read-only register, a wrong width -/
theorem test_host_access :
    (after (step { cfgT with script := [rd 0x48#32], rdata := 9#64 })).rdata = 0#64 ∧
      (after (step { cfgT with script := [wr (addrRes 0) 7] })).res = cfgT.res ∧
      (after (step { cfgT with script := [rd 0x000#32] })).rdata = 0x4744433100000007#64 ∧
      target 16384 .w32 0x80 = .bad ∧ target 16384 .w64 0x84 = .bad := by decide +kernel
/-- R72: while a command is in flight only STATUS may be accessed; then the command completes -/
theorem test_busy :
    let s := { cfgT with script := [cmd .nop, rd addrStatus, rd (addrArg 0)], durations := [3] }
    let t := after (step (after (step s)))
    (t.rdata, t.busy, advance t, (after (step { t with inflight := some ⟨0#64, 0⟩ })).status) =
      (1#64, true, .refuse .busyAccess, 2#64) := by decide +kernel
/-- R97, R98: WAIT and CHECK -/
theorem test_script :
    let s := { cfgT with script := [cmd (.bpack32 33#7), .wait, .check, wr (addrArg 0) 5] }
    let t := after (step (after (step (after (step s)))))
    (t.script, t.rdata) = ([], 0x406#64) := by decide +kernel
/-- The very next step runs the word: one row of each family -/
theorem test_fetch :
    [0x00, 0x0A01, 0x10, 0x20, 0x21, 0x22, 0x30, 0x140].map
        (fun w => (after (step (State.reset.withFetchWord 64 w))).status) =
      [0x2#64, 0x2#64, 0x506#64, 0x2#64, 0x2#64, 0x506#64, 0x506#64, 0x2#64] := by decide +kernel

/-! ### Witnesses: for each statement with hypotheses, a state and operands that meet them together -/

/-- The outcome of a command, by name. -/
theorem exec_next (i : Instr) (s : State) : exec i s = .next (after (exec i s)) := by
  rw [exec_eq]
  cases effect i s <;> rfl

/-- Configuration T with packet 0 of channel 1 present and equal to packet 0 of channel 7: a 500 and 63 zeros. -/
def wfSt : State := present1 { cfgT with smpMem := [(896, 500#16), (6272, 500#16)] }

theorem wfSt_config : wfSt.WfConfig := ⟨by decide, by decide, by decide⟩

theorem wfSt_values : wfSt.WfValues := by
  refine ⟨by decide +kernel, by decide +kernel, fun c p hc hp => ?_⟩
  have : ∀ c, c < 9 → ∀ p, p < 14 → wfSt.present c p = true → samplesLegal (wfSt.samples c p) := by decide +kernel
  exact this c hc p hp

/-- R205, R172: 16 bits of size, 32 and 12 of scalars, 126 of bitmap, one packet of type 1 with w1 = 9
(595 bits): 98 bytes. -/
theorem wfSt_size : recordSize wfSt.cwfSizeBits.toNat wfSt.wfOut = 98 := by decide +kernel

theorem wfSt_fits : recordSize wfSt.cwfSizeBits.toNat wfSt.wfOut < 2 ^ wfSt.cwfSizeBits.toNat ∧
    wfSt.argU 0 + recordSize wfSt.cwfSizeBits.toNat wfSt.wfOut ≤ wfSt.bitbufBytes := by
  rw [wfSt_size]
  decide

/-- WF_REC_ENC on that state. -/
theorem wfSt_encodes : ∃ t, exec .wfRecEnc wfSt = .next t ∧ t.err = false ∧ wfSt.SameWfConfig t :=
  ⟨_, runCommand_of_ok (wfRecEnc_of wfSt_config wfSt_values wfSt_fits.1 wfSt_fits.2), State.succeed_err _,
    by simp only [State.succeed_cwfSizeBits, State.writeRes_cwfSizeBits],
    by simp only [State.succeed_fbits, State.writeRes_fbits], by simp only [State.succeed_foff, State.writeRes_foff]⟩

theorem recPr3_config : recPr3.PrConfig := ⟨by decide, by decide, by decide, by decide⟩

theorem recPr3_values : recPr3.PrValues := by
  have h : (prFields recPr3).isOk = true := by decide +kernel
  cases hf : prFields recPr3 with
  | ok out => exact ((prFields_ok_iff recPr3_config _).1 hf).1
  | error e =>
    rw [hf] at h
    cases h

/-- PR-3: 41 bytes. -/
theorem recPr3_size : recordSize recPr3.cxySizeBits.toNat recPr3.prOut = 41 := by decide +kernel

theorem recPr3_fits : recordSize recPr3.cxySizeBits.toNat recPr3.prOut < 2 ^ recPr3.cxySizeBits.toNat ∧
    recPr3.argU 0 + recordSize recPr3.cxySizeBits.toNat recPr3.prOut ≤ recPr3.bitbufBytes := by
  rw [recPr3_size]
  decide

/-- PR_ENC on that state. -/
theorem recPr3_encodes : ∃ t, exec .prEnc recPr3 = .next t ∧ t.err = false ∧ recPr3.SamePrConfig t :=
  ⟨_, runCommand_of_ok (prEnc_of recPr3_config recPr3_values recPr3_fits.1 recPr3_fits.2), State.succeed_err _,
    by simp only [State.succeed_posScale, State.writeRes_posScale],
    by simp only [State.succeed_lonBaseBits, State.writeRes_lonBaseBits],
    by simp only [State.succeed_cxySizeBits, State.writeRes_cxySizeBits],
    by simp only [State.succeed_fbits, State.writeRes_fbits], by simp only [State.succeed_foff, State.writeRes_foff]⟩

theorem applies_lt {u : Nat} {b : Bool} (h : typeApplies u b) : u < 4 := by
  rcases h with h | h <;> omega

/-- The packet equals its reference: type 3. -/
theorem wfSt_chosen : typeChosen 3 true (wfSt.samples 7 0) (wfSt.samples 1 0) := by
  refine ⟨by decide, fun u hu => ?_⟩
  have := applies_lt hu
  revert hu
  interval_cases u <;> decide +kernel

/-- WF_PKT_ENC on the packet beside the reference. -/
theorem pkt_encodes : ∃ t, exec (.wfPktEnc 7#4 0#4) wfSt = .next t ∧ t.err = false :=
  ⟨_, exec_next .., by decide +kernel⟩

/-- A record's fields, where they were written. -/
theorem fieldsAt_record {m : Memory 8} {b bits : Nat} {out : List Field} (hs : recordSize bits out < 2 ^ bits)
    (h : ∀ f ∈ out, f.2 < 2 ^ f.1) :
    fieldsAt (writeFields m b (recordFields bits out)) b ((bits, recordSize bits out) :: out) := by
  have := fieldsAt_writeFields m b (recordFields_fit hs h)
  rw [recordFields, ← List.cons_append, fieldsAt_append] at this
  exact this.1

theorem witness_DecodeAfterEncode : (Instr.wfPktEnc 8#4 13#4).wellFormed = true := by decide
theorem witness_EncodeAfterDecode : decode 0xD821#64 = .ok (.wfPktDec 8#4 13#4) := by decide
theorem witness_IllegalWordsAbort :
    legalWord 0xD820#64 ∧ ¬ legalWord 0xE820#64 ∧ ¬ legalWord 0xD920#64 ∧ legalWord 0x7F01#64 ∧
      ¬ legalWord 0x8001#64 ∧ ¬ legalWord 0x42#64 := by
  simp [legalWord]
theorem witness_StepRunsIssuedCommand :
    let s := { cfgT with script := [.write .w64 0x010#32 0x7F01#64] }
    let t := { s with durations := [3] }
    let busy := { cfgT with inflight := some ⟨0x7F01#64, 0 + 1⟩, script := [.write .w64 0x018#32 2#64] }
    (decode 0x7F01#64 = .ok (.bpack32 127#7) ∧ decode 0x05#64 = .error .reservedOpcode) ∧ s.inflight = none ∧
      s.script = [.write .w64 0x010#32 0x7F01#64] ∧ s.durations.headD 0 = 0 ∧ t.durations.headD 0 = 2 + 1 ∧
      busWrite { busy with inflight := some ⟨0x7F01#64, 0⟩, script := [] } .w64 0x018#32 2#64 =
        .next { busy with inflight := some ⟨0x7F01#64, 0⟩, script := [] } ∧
      busRead { busy with inflight := some ⟨0x7F01#64, 0⟩, script := [] } .w64 (addrArg 0) = .refuse .busyAccess ∧
      busWrite { cfgT with script := [.wait] } .w64 (addrArg 0) 0#64 = .next { cfgT with script := [.wait] } := by
  decide +kernel
theorem witness_BusyAlwaysEnds :
    let s := { cfgT with inflight := some ⟨0#64, 2⟩, script := [.wait, rd addrStatus, wr addrStatus 2, .check] }
    s.inflight = some ⟨0#64, 2⟩ ∧ ∀ op ∈ s.script, respectsBusy op = true := by decide +kernel
theorem witness_FailedCommandChangesOnlyErrors :
    ∃ t, runWord 0x22#64 State.reset = .next t ∧ t.err = true := ⟨_, exec_next .wfRecEnc _, by decide +kernel⟩
theorem witness_ConfigInvalidNamesRegister :
    let s := { cfgT with lonBaseBits := 62#7 }
    let t := { cfgT with fbits := cfgT.fbits.setIfInBounds 16 65#7 }
    (((configChecks .geoMode s).getD 0 (true, 0)).1 = true ∧ (configChecks .geoMode s).getD 1 (true, 0) = (false, 0x108)) ∧
      (∀ m, m < 19 → ((configChecks .prDec t).getD m (true, 0)).1 = true) ∧
      (configChecks .prDec t).getD 19 (true, 0) = (false, 0x1100) ∧ 19 < (configChecks .prDec t).length ∧
      (configChecks .wfRecEnc State.reset).getD 0 (true, 0) = (false, 0x118) ∧
      (∀ n, n < (configChecks .prEnc cfgT).length → ((configChecks .prEnc cfgT).getD n (true, 0)).1 = true) ∧
      (configChecks .nop State.reset).length = 0 := by decide +kernel
theorem witness_CommandsKeepConfiguration : ∃ t, exec .prEnc recPr3 = .next t := ⟨_, exec_next ..⟩
theorem witness_OnlyNamedResultsAreWritten :
    (∃ t, exec .prEnc State.reset = .next t ∧ t.err = true) ∧
      ∃ t, exec .prEnc recPr3 = .next t ∧ resCount .prEnc ≤ 4 :=
  ⟨⟨_, exec_next .., by decide +kernel⟩, _, exec_next .., by decide⟩
theorem witness_RegisterCommandsFrame :
    (∃ t, exec .geoMode cfgT = .next t) ∧ (∃ t, exec (.bunpack64 64#7) cfgT = .next t) ∧
      ∃ t, exec .getStatus cfgT = .next t := ⟨⟨_, exec_next ..⟩, ⟨_, exec_next ..⟩, _, exec_next ..⟩
theorem witness_BitWritersFrame :
    Config.legalBitbufBytes cfgT.bitbufBytes ∧
      (∃ t, exec (.bpack32 10#7) (args cfgT [3, 0x2AB]) = .next t ∧ t.err = false) ∧
      ∃ t, exec (.wfPktEnc 7#4 0#4) wfSt = .next t ∧ t.err = false :=
  ⟨by decide, ⟨_, exec_next .., by decide +kernel⟩, pkt_encodes⟩
theorem witness_RecordEncodersFrame :
    Config.legalBitbufBytes cfgT.bitbufBytes ∧ (∃ t, exec .wfRecEnc wfSt = .next t ∧ t.err = false ∧ wfSt.SameWfConfig t) ∧
      (∃ t, exec .prEnc recPr3 = .next t ∧ t.err = false ∧ recPr3.SamePrConfig t) ∧ recPr3.append = false :=
  ⟨by decide, wfSt_encodes, recPr3_encodes, rfl⟩
theorem witness_DecodersFrame :
    (∃ t, exec (.wfPktDec 8#4 13#4) cfgT = .next t) ∧ (∃ t, exec .wfRecDec cfgT = .next t) ∧
      ∃ t, exec .prDec cfgT = .next t := ⟨⟨_, exec_next ..⟩, ⟨_, exec_next ..⟩, _, exec_next ..⟩

theorem witness_Pack32WritesField :
    let s := args cfgT [131040, -1]
    (32#7).toNat ≤ 32 ∧ s.argU 0 + (32#7).toNat ≤ 8 * s.bitbufBytes := by decide +kernel
theorem witness_Pack64WritesField :
    let s := args cfgT [131008, -1]
    (64#7).toNat ≤ 64 ∧ s.argU 0 + (64#7).toNat ≤ 8 * s.bitbufBytes := by decide +kernel
theorem witness_UnpackReadsField :
    (32#7).toNat ≤ 32 ∧ (args cfgT [131040]).argU 0 + (32#7).toNat ≤ 8 * cfgT.bitbufBytes ∧
      (64#7).toNat ≤ 64 ∧ (args cfgT [131008]).argU 0 + (64#7).toNat ≤ 8 * cfgT.bitbufBytes := by decide +kernel
theorem witness_WideWidthRaisesBadWidth : 33 ≤ (33#7).toNat ∧ 65 ≤ (65#7).toNat := by decide
theorem witness_PackersRaiseOverrun :
    let s := args cfgT [131041]
    8 * s.bitbufBytes < s.argU 0 + (32#7).toNat ∧ 8 * s.bitbufBytes < s.argU 0 + (64#7).toNat ∧
      (32#7).toNat ≤ 32 ∧ (64#7).toNat ≤ 64 := by decide +kernel
/-- the packet in type 3 one bit too far, and the records one byte too far -/
theorem witness_PackersRaiseOverrun_encoders :
    (let s := args wfSt [131055];
      samplesLegal (s.samples 7 0) ∧ samplesLegal (s.samples 1 0) ∧ (decide (2 ≤ 7 ∧ 7 ≤ 7) && s.present 1 0) = true ∧
        typeChosen 3 true (s.samples 7 0) (s.samples 1 0) ∧
        s.argU 0 + fieldsWidth (typeFields 3 (s.samples 7 0) (s.samples 1 0)) = 8 * s.bitbufBytes + 1) ∧
      (let s := args wfSt [16287];
        s.WfConfig ∧ s.WfValues ∧ recordSize s.cwfSizeBits.toNat s.wfOut < 2 ^ s.cwfSizeBits.toNat ∧
          s.bitbufBytes < s.argU 0 + recordSize s.cwfSizeBits.toNat s.wfOut) ∧
      (let s := args recPr3 [16344];
        s.PrConfig ∧ s.PrValues ∧ recordSize s.cxySizeBits.toNat s.prOut < 2 ^ s.cxySizeBits.toNat ∧
          s.bitbufBytes < s.argU 0 + recordSize s.cxySizeBits.toNat s.prOut) := by
  refine ⟨⟨by decide +kernel, by decide +kernel, by decide +kernel, wfSt_chosen, by decide +kernel⟩,
    ⟨⟨by decide, by decide, by decide⟩, ⟨wfSt_values.1, wfSt_values.2, wfSt_values.3⟩, wfSt_fits.1, ?_⟩,
    ⟨⟨by decide, by decide, by decide, by decide⟩, ⟨recPr3_values.1, recPr3_values.2⟩, recPr3_fits.1, ?_⟩⟩
  · exact lt_of_lt_of_eq (b := (args wfSt [16287]).argU 0 + 98) (by decide +kernel) (congrArg _ wfSt_size.symm)
  · exact lt_of_lt_of_eq (b := (args recPr3 [16344]).argU 0 + 41) (by decide +kernel) (congrArg _ recPr3_size.symm)
/-- a tag, the packet a tag announces, and a size field that do not fit -/
theorem witness_PackersRaiseOverrun_decoders :
    8 * cfgT.bitbufBytes < (args cfgT [131070]).argU 0 + 3 ∧
      (let s := args cfgT [130430];
        s.argU 0 + 3 ≤ 8 * s.bitbufBytes ∧ bitRead s.bitbuf (s.argU 0) 3 = 0 ∧
          s.argU 0 + rebuiltBits s.bitbuf (s.argU 0) 0 = 8 * s.bitbufBytes + 1) ∧
      8 * cfgT.bitbufBytes < 8 * (args cfgT [16383]).argU 0 + cfgT.cwfSizeBits.toNat ∧
      8 * cfgT.bitbufBytes < 8 * (args cfgT [16383]).argU 0 + cfgT.cxySizeBits.toNat := by decide +kernel
theorem witness_PackThenUnpackReturnsValue :
    ∃ t, exec (.bpack64 64#7) (args cfgT [131008, -1]) = .next t ∧ t.err = false ∧
      t.argWord 0 = (args cfgT [131008, -1]).argWord 0 ∧ t.bitbufBytes = cfgT.bitbufBytes :=
  ⟨_, exec_next .., by decide +kernel⟩
theorem witness_DisjointPacksCommute :
    ∃ t1 t12 t2 t21, exec (.bpack64 3#7) { cfgT with arg := #v[1, 5, 0, 0, 0, 0, 0, 0] } = .next t1 ∧
      exec (.bpack64 9#7) { t1 with arg := #v[4, 300, 0, 0, 0, 0, 0, 0] } = .next t12 ∧
      exec (.bpack64 9#7) { cfgT with arg := #v[4, 300, 0, 0, 0, 0, 0, 0] } = .next t2 ∧
      exec (.bpack64 3#7) { t2 with arg := #v[1, 5, 0, 0, 0, 0, 0, 0] } = .next t21 ∧
      (t1.err = false ∧ t12.err = false ∧ t2.err = false ∧ t21.err = false) ∧
      ((#v[1, 5, 0, 0, 0, 0, 0, 0] : Vector Word 8).getD 0 0#64).toNat + (3#7).toNat ≤
        ((#v[4, 300, 0, 0, 0, 0, 0, 0] : Vector Word 8).getD 0 0#64).toNat :=
  ⟨_, _, _, _, exec_next .., exec_next .., exec_next .., exec_next .., by decide +kernel, by decide⟩
theorem witness_AdjacentPacksConcatenate :
    let a1 : Vector Word 8 := #v[1, 5, 0, 0, 0, 0, 0, 0]
    let a2 : Vector Word 8 := #v[4, 300, 0, 0, 0, 0, 0, 0]
    let a : Vector Word 8 := #v[1, 5 * 512 + 300, 0, 0, 0, 0, 0, 0]
    ((12#7).toNat = (3#7).toNat + (9#7).toNat ∧ (a1.getD 1 0#64).toNat < 2 ^ (3#7).toNat ∧
      (a2.getD 0 0#64).toNat = (a1.getD 0 0#64).toNat + (3#7).toNat ∧ a.getD 0 0#64 = a1.getD 0 0#64 ∧
      (a.getD 1 0#64).toNat = (a1.getD 1 0#64).toNat * 2 ^ (9#7).toNat + (a2.getD 1 0#64).toNat % 2 ^ (9#7).toNat) ∧
    ∃ t1 t2 t, exec (.bpack64 3#7) { cfgT with arg := a1 } = .next t1 ∧
      exec (.bpack64 9#7) { t1 with arg := a2 } = .next t2 ∧ exec (.bpack64 12#7) { cfgT with arg := a } = .next t ∧
      t1.err = false ∧ t2.err = false ∧ t.err = false :=
  ⟨by decide, _, _, _, exec_next .., exec_next .., exec_next .., by decide +kernel⟩

theorem witness_PositionWidthIsLeast : 1 ≤ 2 ^ 32 - 1 := by decide
theorem witness_GeoModeResult :
    let s := args cfgT [86000]
    1 ≤ s.posScale.toNat ∧ 1 ≤ s.lonBaseBits.toNat ∧ s.lonBaseBits.toNat ≤ 61 ∧
      86 * s.posScale.toNat ≤ (s64 (s.argWord 0)).natAbs := by decide +kernel
/-- the greatest latitude that fits 19 bits, and the next -/
theorem witness_GeoLatEncResult :
    let p (z : Int) := s64 ((args cfgT [z]).argWord 0) + 90 * cfgT.posScale.toNat
    1 ≤ cfgT.posScale.toNat ∧ (0 ≤ p 434287 ∧ p 434287 < 2 ^ wPos 1000) ∧ (0 ≤ p (-90000)) ∧
      ¬ (0 ≤ p 434288 ∧ p 434288 < 2 ^ wPos 1000) ∧ ¬ (0 ≤ p (-90001) ∧ p (-90001) < 2 ^ wPos 1000) := by decide +kernel
theorem witness_GeoLatDecResult : 1 ≤ cfgT.posScale.toNat := by decide
/-- the ends of the 8-bit delta below 60° -/
theorem witness_GeoLonEncResult :
    let mode := lonMode 1000 8 45123
    let p (z : Int) : Int := 0 - z + 2 ^ (mode.width - 1)
    1 ≤ cfgT.posScale.toNat ∧ 1 ≤ cfgT.lonBaseBits.toNat ∧ cfgT.lonBaseBits.toNat ≤ 61 ∧ mode.full = false ∧
      (0 ≤ p 128 ∧ p (-127) < 2 ^ mode.width) ∧ ¬ 0 ≤ p 129 ∧ ¬ p (-128) < 2 ^ mode.width ∧
      (lonMode 1000 8 86000).full = true := by decide +kernel
theorem witness_GeoLonDecResult :
    let s := { cfgT with lonBaseBits := 61#7 }
    1 ≤ s.posScale.toNat ∧ 1 ≤ s.lonBaseBits.toNat ∧ s.lonBaseBits.toNat ≤ 61 := by decide
theorem witness_LatitudeRoundTrip :
    ∃ t, exec .geoLatEnc (args cfgT [45123]) = .next t ∧ t.err = false ∧
      ∃ u : State, u.posScale = cfgT.posScale ∧ u.argWord 0 = t.resWord 0 :=
  ⟨_, exec_next .., by decide +kernel, args cfgT [135123], by decide +kernel⟩
theorem witness_LongitudeRoundTrip :
    ∃ t, exec .geoLonEnc (args cfgT [-122500, -122450, 45123]) = .next t ∧ t.err = false ∧
      ∃ u : State, u.posScale = cfgT.posScale ∧ u.lonBaseBits = cfgT.lonBaseBits ∧ u.argWord 0 = t.resWord 0 ∧
        u.argWord 1 = wrap64 (-122450) ∧ u.argWord 2 = 45123#64 :=
  ⟨_, exec_next .., by decide +kernel, args cfgT [178, -122450, 45123], by decide +kernel⟩
/-- the same at full resolution, from 86° on -/
theorem witness_LongitudeRoundTrip_full :
    ∃ t, exec .geoLonEnc (args cfgT [10500, 10000, 86000]) = .next t ∧ t.err = false ∧ t.resWord 2 = 1#64 ∧
      ∃ u : State, u.posScale = cfgT.posScale ∧ u.lonBaseBits = cfgT.lonBaseBits ∧ u.argWord 0 = t.resWord 0 ∧
        u.argWord 1 = 10000#64 ∧ u.argWord 2 = 86000#64 :=
  ⟨_, exec_next .., by decide +kernel, by decide +kernel, args cfgT [190500, 10000, 86000], by decide +kernel⟩

theorem witness_PacketFieldsFit :
    packetLegal (List.replicate 64 1023) ∧ packetLegal (List.replicate 64 0) := by decide
/-- type 3 with a reference, on channel 7, and type 1 without, on channel 8 -/
theorem witness_PktEncWritesSmallest :
    let x := wfSt.samples 7 0
    let r := wfSt.samples 1 0
    samplesLegal x ∧ samplesLegal r ∧ (decide (2 ≤ 7 ∧ 7 ≤ 7) && wfSt.present 1 0) = true ∧
      typeChosen 3 true x r ∧ typeChosen 1 false (wfSt.samples 8 13) r ∧
      wfSt.argU 0 + fieldsWidth (typeFields 3 x r) ≤ 8 * wfSt.bitbufBytes := by
  refine ⟨by decide +kernel, by decide +kernel, by decide +kernel, wfSt_chosen, ⟨by decide, fun u hu => ?_⟩, by decide +kernel⟩
  have := applies_lt hu
  revert hu
  interval_cases u <;> decide +kernel
theorem witness_PktEncRejectsFirstBadSample :
    (let s := packet cfgT 8 13 fun i => 1023 + i / 63;
      (∀ j, j < 63 → (s.smpMem.get (smpAddr 8 13 j)).toNat ≤ 1023) ∧ 1023 < (s.smpMem.get (smpAddr 8 13 63)).toNat) ∧
      let s := packet (present1 cfgT) 1 0 fun i => 1023 + i / 63
      s.present 1 0 = true ∧ (∀ j, j < 64 → (s.smpMem.get (smpAddr 7 0 j)).toNat ≤ 1023) ∧
        (∀ j, j < 63 → (s.smpMem.get (smpAddr 1 0 j)).toNat ≤ 1023) ∧ 1023 < (s.smpMem.get (smpAddr 1 0 63)).toNat := by
  decide +kernel
/-- The state above, with that packet in type 3 at stream bit 0. -/
def pktDecSt : State :=
  { wfSt with bitbuf := writeFields [] 0 (typeFields 3 (List.replicate 64 500) (wfSt.samples 1 0)) }

theorem witness_PktDecReadsPacket :
    let x := List.replicate 64 500
    let s := pktDecSt
    packetLegal x ∧ typeApplies 3 (decide (2 ≤ 7 ∧ 7 ≤ 7) && s.present 1 0) ∧
      fieldsAt s.bitbuf (s.argU 0) (typeFields 3 x (s.samples 1 0)) ∧
      s.argU 0 + fieldsWidth (typeFields 3 x (s.samples 1 0)) ≤ 8 * s.bitbufBytes :=
  ⟨by decide, by decide +kernel, by
    have ha : pktDecSt.argU 0 = 0 := by decide +kernel
    have hs : pktDecSt.samples 1 0 = wfSt.samples 1 0 := by simp only [State.samples, pktDecSt]
    have hb : pktDecSt.bitbuf = writeFields [] 0 (typeFields 3 (List.replicate 64 500) (wfSt.samples 1 0)) := by simp only [pktDecSt]
    rw [ha, hs, hb]
    exact fieldsAt_writeFields [] 0 (by decide +kernel), by decide +kernel⟩
/-- R178: a packet of type 1 with the width field 15, which no encoder writes, and 64 samples 0 -/
theorem witness_PktDecReadsPacket_rebuilt :
    let s := bytes cfgT [0x20, 0x03, 0xFF, 0xF0]
    bitRead s.bitbuf (s.argU 0) 3 = 1 ∧ rebuiltBits s.bitbuf (s.argU 0) 1 = 28 + 63 * 15 ∧
      ∀ i, i < 64 → sampleInRange (rebuilt s.bitbuf (s.argU 0) 1 [] i) := by decide +kernel
theorem witness_PktDecRejectsTag :
    let s := bytes cfgT [0x80]
    let t := bytes cfgT [0x60]
    s.argU 0 + 3 ≤ 8 * s.bitbufBytes ∧ bitRead s.bitbuf (s.argU 0) 3 = 4 ∧ bitRead t.bitbuf (t.argU 0) 3 = 3 ∧
      t.present 1 13 = false := by decide +kernel
/-- WD-5: sample 1 is 1024; its packet as the only one of a waveform record, and a tag 3 there (R205: the bitmap begins
at bit 60, the packets at bit 186) -/
theorem witness_PktDecRejectsTag_samples :
    (let m := (bytes cfgT [0x3F, 0xFB, 0xFF, 0x18]).bitbuf;
      bitRead m 0 3 = 1 ∧ rebuiltBits m 0 1 = 91 ∧ sampleInRange (rebuilt m 0 1 [] 0) ∧ rebuilt m 0 1 [] 1 = 1024) ∧
      (cfgT.WfConfig ∧ 16 + 32 + 12 = cfgT.cwfSizeBits.toNat + cfgT.fieldBits 17 + cfgT.fieldBits 18) ∧
      let record (l : List Nat) := (bytes cfgT (List.replicate 7 0 ++ 4 :: List.replicate 15 0 ++ l)).bitbuf
      (streamBit (record [0x0F]) 60 = false ∧ streamBit (record [0x0F]) 61 = true) ∧ bitRead (record [0x18]) 186 3 = 3 ∧
        bitRead (record [0x0F, 0xFE, 0xFF, 0xC6]) 186 3 = 1 ∧ rebuiltBits (record [0x0F, 0xFE, 0xFF, 0xC6]) 186 1 = 91 ∧
        sampleInRange (rebuilt (record [0x0F, 0xFE, 0xFF, 0xC6]) 186 1 [] 0) ∧
        rebuilt (record [0x0F, 0xFE, 0xFF, 0xC6]) 186 1 [] 1 = 1024 := by
  refine ⟨by decide +kernel, ⟨⟨by decide, by decide, by decide⟩, by decide⟩, by decide +kernel⟩
theorem witness_PacketRoundTrip :
    ∃ t, exec (.wfPktEnc 7#4 0#4) wfSt = .next t ∧ t.err = false := pkt_encodes

theorem witness_WfRecEncWritesRecord :
    wfSt.WfConfig ∧ wfSt.WfValues ∧ recordSize wfSt.cwfSizeBits.toNat wfSt.wfOut < 2 ^ wfSt.cwfSizeBits.toNat ∧
      wfSt.argU 0 + recordSize wfSt.cwfSizeBits.toNat wfSt.wfOut ≤ wfSt.bitbufBytes :=
  ⟨wfSt_config, wfSt_values, wfSt_fits⟩
/-- The state above, with its waveform record at byte 0. -/
def wfDecSt : State := { wfSt with bitbuf := writeFields [] 0 (recordFields wfSt.cwfSizeBits.toNat wfSt.wfOut) }

theorem witness_WfRecDecReadsRecord :
    let bits := wfSt.cwfSizeBits.toNat
    let u := wfDecSt
    wfSt.WfConfig ∧ wfSt.WfValues ∧ wfSt.SameWfConfig u ∧ u.argU 0 + recordSize bits wfSt.wfOut ≤ u.bitbufBytes ∧
      fieldsAt u.bitbuf (8 * u.argU 0) ((bits, recordSize bits wfSt.wfOut) :: wfSt.wfOut) :=
  ⟨wfSt_config, wfSt_values, ⟨rfl, rfl, rfl⟩, by
    rw [wfSt_size]
    decide +kernel, by
    have ha : wfDecSt.argU 0 = 0 := by decide +kernel
    have hb : wfDecSt.bitbuf = writeFields [] 0 (recordFields wfSt.cwfSizeBits.toNat wfSt.wfOut) := by simp only [wfDecSt]
    rw [ha, hb]
    exact fieldsAt_record wfSt_fits.1 (wfOut_fit wfSt_values)⟩
/-- The fields of a record behind another size field, where they were written. -/
theorem fieldsAt_resized {m : Memory 8} {b bits size : Nat} {out : List Field} (hs : size < 2 ^ bits)
    (h : ∀ f ∈ out, f.2 < 2 ^ f.1) : fieldsAt (writeFields m b ((bits, size) :: out)) b ((bits, size) :: out) :=
  fieldsAt_writeFields m b fun f hf => by
    rcases List.mem_cons.1 hf with rfl | hf
    · exact hs
    · exact h f hf

/-- The same record with 99 in its size field. -/
def wfResizedSt : State := { wfSt with bitbuf := writeFields [] 0 ((wfSt.cwfSizeBits.toNat, 99) :: wfSt.wfOut) }

theorem witness_WfRecDecReadsRecord_size :
    let bits := wfSt.cwfSizeBits.toNat
    let u := wfResizedSt
    wfSt.SameWfConfig u ∧ u.argU 0 + recordSize bits wfSt.wfOut ≤ u.bitbufBytes ∧
      fieldsAt u.bitbuf (8 * u.argU 0) ((bits, 99) :: wfSt.wfOut) ∧ 99 ≠ recordSize bits wfSt.wfOut :=
  ⟨⟨rfl, rfl, rfl⟩, by
    rw [wfSt_size]
    decide +kernel, by
    have ha : wfResizedSt.argU 0 = 0 := by decide +kernel
    have hb : wfResizedSt.bitbuf = writeFields [] 0 ((wfSt.cwfSizeBits.toNat, 99) :: wfSt.wfOut) := by simp only [wfResizedSt]
    rw [ha, hb]
    exact fieldsAt_resized (by decide) (wfOut_fit wfSt_values), by rw [wfSt_size]; decide⟩
theorem witness_WfRecordRoundTrip :
    ∃ t, exec .wfRecEnc wfSt = .next t ∧ t.err = false ∧ wfSt.SameWfConfig t := wfSt_encodes

theorem witness_PrEncWritesRecord :
    recPr3.PrConfig ∧ recPr3.PrValues ∧ recordSize recPr3.cxySizeBits.toNat recPr3.prOut < 2 ^ recPr3.cxySizeBits.toNat ∧
      recPr3.argU 0 + recordSize recPr3.cxySizeBits.toNat recPr3.prOut ≤ recPr3.bitbufBytes :=
  ⟨recPr3_config, recPr3_values, recPr3_fits⟩
theorem witness_PrEncRejectsRange :
    let s := { recPr3 with recMem := recPr3.recMem.set 8 5#64 }
    s.PrConfig ∧ ¬ s.PrValues :=
  ⟨⟨by decide, by decide, by decide, by decide⟩,
    fun h => absurd (h.counts 8 (by decide)) (by decide +kernel)⟩
/-- item 2, the platform latitude, one above the greatest that fits; a size field one bit short of its record -/
theorem witness_PrEncRejectsRange_items :
    (let s := { recPr3 with recMem := recPr3.recMem.set 11 434288#64 };
      s.PrConfig ∧ (∀ c, c < 9 → (s.recWord c).toNat ≤ 4) ∧
        (prLead ++ prBody s.counts)[2]? = some ⟨.lat 32#8, 11, noIndex⟩ ∧ s.scalarFits 0 (s.recWord 9) ∧
        s.scalarFits 1 (s.recWord 10) ∧ ¬ latFits s.scale (s64 (s.recWord 11))) ∧
      let s := { recPr3 with cxySizeBits := 5#7 }
      s.PrConfig ∧ s.PrValues ∧ 2 ^ s.cxySizeBits.toNat ≤ recordSize s.cxySizeBits.toNat s.prOut :=
  ⟨⟨⟨by decide, by decide, by decide, by decide⟩, by decide +kernel⟩, ⟨by decide, by decide, by decide, by decide⟩,
    ⟨recPr3_values.1, recPr3_values.2⟩, by decide +kernel⟩
/-- the least timestamp and scan angle that do not fit, a sample of 1024, and WR-4 -/
theorem witness_PrEncRejectsRange_waveform :
    (let s := { cfgT with wfTimestamp := 0x100000000#64, wfScan := 2296#64 };
      s.WfConfig ∧ ¬ s.scalarFits 17 s.wfTimestamp ∧ cfgT.scalarFits 17 cfgT.wfTimestamp ∧ ¬ s.scalarFits 18 s.wfScan ∧
        cfgT.scalarFits 18 cfgT.wfScan) ∧
      (let s := packet (present1 cfgT) 1 0 fun i => 1023 + i / 63;
        s.present 1 0 = true ∧ (∀ c p, c < 9 → p < 14 → c * 14 + p < 1 * 14 + 0 → s.present c p = false) ∧
          (∀ j, j < 63 → (s.smpMem.get (smpAddr 1 0 j)).toNat ≤ 1023) ∧ 1023 < (s.smpMem.get (smpAddr 1 0 63)).toNat) ∧
      let s := { cfgT with cwfSizeBits := 4#7 }
      s.WfConfig ∧ s.WfValues ∧ 2 ^ s.cwfSizeBits.toNat ≤ recordSize s.cwfSizeBits.toNat s.wfOut := by
  refine ⟨⟨⟨by decide, by decide, by decide⟩, by decide +kernel⟩, ⟨by decide +kernel, ?_, by decide +kernel⟩,
    ⟨by decide, by decide, by decide⟩, ⟨by decide +kernel, by decide +kernel, fun c p hc hp h => ?_⟩, by decide +kernel⟩
  swap
  · have : ∀ c, c < 9 → ∀ p, p < 14 → cfgT.present c p = false := by decide +kernel
    exact (Bool.false_ne_true ((this c hc p hp).symm.trans h)).elim
  have : ∀ c, c < 9 → ∀ p, p < 14 → c * 14 + p < 1 * 14 + 0 →
      (packet (present1 cfgT) 1 0 fun i => 1023 + i / 63).present c p = false := by decide +kernel
  exact fun c p hc hp => this c hc p hp
theorem witness_PrEncRejectsCountFirst :
    let s := { recPr3 with recMem := recPr3.recMem.set 8 5#64 }
    s.PrConfig ∧ (∀ d, d < 8 → (s.recWord d).toNat ≤ 4) ∧ 4 < (s.recWord 8).toNat :=
  ⟨⟨by decide, by decide, by decide, by decide⟩,
    by decide +kernel⟩
theorem witness_PrEncRejectsCountFirst_dec :
    let s := bytes cfgT [0, 41, 0, 0, 0, 0xA0]
    let count (d : Nat) := bitRead s.bitbuf (8 * s.argU 0 + s.cxySizeBits.toNat + 3 * d) 3
    s.PrConfig ∧ 8 * s.argU 0 + s.cxySizeBits.toNat + 3 * 8 + 3 ≤ 8 * s.bitbufBytes ∧ (∀ d, d < 8 → count d ≤ 4) ∧
      4 < count 8 :=
  ⟨⟨by decide, by decide, by decide, by decide⟩, by decide +kernel⟩
/-- The state of PR-3, with its point record at byte 0. -/
def prDecSt : State := { recPr3 with bitbuf := writeFields [] 0 (recordFields recPr3.cxySizeBits.toNat recPr3.prOut) }

theorem witness_PrDecReadsRecord :
    let bits := recPr3.cxySizeBits.toNat
    let u := prDecSt
    recPr3.PrConfig ∧ recPr3.PrValues ∧ recPr3.SamePrConfig u ∧
      u.argU 0 + recordSize bits recPr3.prOut ≤ u.bitbufBytes ∧
      fieldsAt u.bitbuf (8 * u.argU 0) ((bits, recordSize bits recPr3.prOut) :: recPr3.prOut) :=
  ⟨recPr3_config, recPr3_values, ⟨rfl, rfl, rfl, rfl, rfl⟩, by
    rw [recPr3_size]
    decide +kernel, by
    have ha : prDecSt.argU 0 = 0 := by decide +kernel
    have hb : prDecSt.bitbuf = writeFields [] 0 (recordFields recPr3.cxySizeBits.toNat recPr3.prOut) := by simp only [prDecSt]
    rw [ha, hb]
    exact fieldsAt_record recPr3_fits.1 (prOut_fit recPr3_config recPr3_values)⟩
/-- The same record with 40 in its size field. -/
def prResizedSt : State := { recPr3 with bitbuf := writeFields [] 0 ((recPr3.cxySizeBits.toNat, 40) :: recPr3.prOut) }

theorem witness_PrDecReadsRecord_size :
    let bits := recPr3.cxySizeBits.toNat
    let u := prResizedSt
    recPr3.SamePrConfig u ∧ u.argU 0 + recordSize bits recPr3.prOut ≤ u.bitbufBytes ∧
      fieldsAt u.bitbuf (8 * u.argU 0) ((bits, 40) :: recPr3.prOut) ∧ 40 ≠ recordSize bits recPr3.prOut :=
  ⟨⟨rfl, rfl, rfl, rfl, rfl⟩, by
    rw [recPr3_size]
    decide +kernel, by
    have ha : prResizedSt.argU 0 = 0 := by decide +kernel
    have hb : prResizedSt.bitbuf = writeFields [] 0 ((recPr3.cxySizeBits.toNat, 40) :: recPr3.prOut) := by simp only [prResizedSt]
    rw [ha, hb]
    exact fieldsAt_resized (by decide) (prOut_fit recPr3_config recPr3_values), by rw [recPr3_size]; decide⟩
theorem witness_PointRecordRoundTrip :
    ∃ t, exec .prEnc recPr3 = .next t ∧ t.err = false ∧ recPr3.SamePrConfig t := recPr3_encodes
theorem witness_AppendMovesBounds :
    let s := { recPr3 with append := true, recMem := recPr3.recMem.set 0 1#64 |>.set 40 87010#64 }
    (∃ t, exec .prEnc s = .next t ∧ t.err = false) ∧ s.append = true ∧ recPr3.append = false ∧ presentReturns s.counts = [(0, 0)] :=
  ⟨⟨_, exec_next .., by decide +kernel⟩, by decide +kernel⟩

theorem witness_PowerOnRegisters : (State.powerOn 64 [(327, 1#64)] [] []).recMem = [(327, 1#64)] := by decide +kernel
theorem witness_SoftResetKeepsMemories :
    let s := { recPr3 with script := [.write .w64 0x008#32 7#64] }
    let t := { s with inflight := some ⟨0#64, 0 + 1⟩ }
    s.inflight = none ∧ t.inflight = some ⟨0#64, 0 + 1⟩ ∧ t.script = s.script ∧ s.script = [.write .w64 0x008#32 7#64] ∧ (7#64).getLsbD 2 = true := by decide +kernel
theorem witness_StatusAndCtrlWrites : cfgT.inflight = none ∧ (3#64).getLsbD 2 = false := by decide
theorem witness_BusyContractIsRefused :
    let s := { cfgT with inflight := some ⟨0#64, 1⟩, script := [rd (addrArg 7)] }
    s.inflight = some ⟨0#64, 0 + 1⟩ ∧ addrArg 7 ≠ 0x018#32 ∧ s.script = [.read .w64 (addrArg 7)] := by decide +kernel
theorem witness_IgnoredAccesses :
    let outside (wd : Width) (a : Nat) : Bool := (List.range wd.bytes).all fun k =>
      (hostRows 16384).all fun row => !(decide (row.1 ≤ a + k) && decide (a + k ≤ row.2.1))
    cfgT.inflight = none ∧ cfgT.bitbufBytes = 16384 ∧ outside .w64 0x48 = true ∧ outside .w8 0x13FFF = false ∧
      outside .w8 0x14000 = true ∧ outside .w8 0xFFFFFFFF = true ∧ addrRes 7 = BitVec.ofNat 32 (0x0C0 + 8 * 7) := by
  decide +kernel
/-- of a wrong width: ARG0 by 32 bits, SMP by 8 bits, BITBUF by 16; misaligned: SMP at an odd address, and 64 bits at 0x7C,
of which only the last four bytes are mapped -/
theorem witness_IgnoredAccesses_bad :
    let touches (wd : Width) (a k : Nat) (row : Nat × Nat × Nat) : Bool := decide (k < wd.bytes) &&
      (hostRows 16384).contains row && decide (row.1 ≤ a + k) && decide (a + k ≤ row.2.1) &&
      !(decide (wd.bytes = row.2.2) && decide (a % row.2.2 = 0))
    touches .w32 0x80 0 (0x0080, 0x00BF, 8) = true ∧ touches .w8 0x7EFF 0 (0x4000, 0x7EFF, 2) = true ∧
      touches .w16 0x13FFF 0 (0x10000, 0x13FFF, 1) = true ∧ touches .w16 0x4001 0 (0x4000, 0x7EFF, 2) = true ∧
      touches .w64 0x7C 4 (0x0080, 0x00BF, 8) = true := by
  decide +kernel
/-- R24, R25, R34: what a read of STATUS returns after a failure and while BUSY, and of ERR_INDEX and MAX_PLON -/
theorem test_reads_read_only :
    let s := { cfgT with code := 5#8, err := true, done := true, errIndex := 0xFF0201#24 }
    busRead s .w64 0x018#32 = .next { s with rdata := 0x506#64 } ∧
      busRead { s with done := false, inflight := some ⟨0#64, 1⟩ } .w64 0x018#32 = .next { s with
        done := false, inflight := some ⟨0#64, 1⟩, rdata := 0x505#64 } ∧
      busRead s .w64 0x038#32 = .next { s with rdata := 0xFF0201#64 } ∧
      busRead s .w64 0x1B8#32 = .next { s with rdata := 0x8000000000000000#64 } := by
  decide +kernel
theorem witness_RegisterReadsBackImplementedBits :
    cfgT.inflight = none ∧ addrArg 7 = 0x0B8#32 ∧ addrPresence 8 = 0x240#32 ∧ addrFbits 18 = 0x1120#32 ∧
      addrFoff 18 = 0x1128#32 ∧ (0xFFFFFFFFFFFFFFFB#64).getLsbD 2 = false := by decide
theorem witness_MemoryReadsBackWhole :
    cfgT.inflight = none ∧ Config.legalBitbufBytes cfgT.bitbufBytes ∧ addrRec 327 = 0x2A38#32 ∧
      addrSmp 8 13 63 = 0x7EFE#32 := by decide
theorem witness_PowerOnMeetsInvariant :
    Config.legalBitbufBytes 64 ∧ Config.legalBitbufBytes (2 ^ 32 - 2 ^ 16) ∧
      Memory.wf Config.recWords [(0, 1#64), (327, 2#64)] ∧ Memory.wf Config.smpWords [(8063, 1#16)] ∧
      Memory.wf 64 [(63, 255#8)] := by decide +kernel
theorem witness_EveryStepKeepsInvariant :
    let s := { State.powerOn 64 [(327, 2#64)] [(8063, 1#16)] [(63, 255#8)] with inflight := some ⟨0x32#64, 0⟩ }
    s.Inv ∧ step s = .next (after (step s)) := by
  refine ⟨?_, rfl⟩
  constructor <;> decide +kernel

end Sys2Proof.Machine.Tests
end

section
/-! Proofs of the statements about the state: the invariant (R24, R37 to R39, R260 to R263), what a command leaves alone
(R22, R26, R27), W_POS (R29), and what host accesses and steps do (R20 to R39, R60, R61, R70, R260, R297). -/

namespace Sys2Proof.Machine

/-! ### The invariant -/

/-- R260, R262: an abort that records a listed field identifier keeps the invariant. -/
theorem State.Inv.abort {s : State} (h : s.Inv) (w : Word) {e : CmdError} (he : errFieldLegal e.field) :
    (s.abort w e).Inv := by
  obtain ⟨hpos, hle⟩ := errKind_number_bounds e.kind
  exact { h with
    codeLegal := hle
    errCodeLegal := hle
    errIffCode := ⟨fun _ h0 => by rw [State.abort_code] at h0; simp [h0] at hpos, fun _ => rfl⟩
    codeRecorded := fun _ => rfl
    fieldLegal := he
    busyNotDone := fun hb => by cases hb }

/-- R260: a successful command keeps the invariant. -/
theorem State.Inv.succeed {i : Instr} {s u : State} (h : s.Inv) (hu : EffectShape s i u) : u.succeed.Inv := by
  obtain ⟨hrec, hsmp, hbuf⟩ := hu.wf h.recCanonical h.smpCanonical h.bufCanonical
  have hk := hu.keeps
  have hbytes : u.bitbufBytes = s.bitbufBytes := by rw [hk]
  have herrCode : u.errCode = s.errCode := by rw [hk]
  have herrField : u.errField = s.errField := by rw [hk]
  exact {
    instanceLegal := hbytes ▸ h.instanceLegal
    recCanonical := hrec
    smpCanonical := hsmp
    bufCanonical := hbuf
    codeLegal := Nat.zero_le _
    errCodeLegal := herrCode ▸ h.errCodeLegal
    errIffCode := by simp
    codeRecorded := fun he => by cases he
    fieldLegal := herrField ▸ h.fieldLegal
    busyNotDone := fun hb => by cases hb }

/-- R94, R260: executing a command word keeps the invariant. -/
theorem State.Inv.runWord {w : Word} {s t : State} (h : s.Inv) (hr : runWord w s = .next t) : t.Inv := by
  rcases runWord_cases hr with ⟨i, u, -, hu, rfl⟩ | ⟨e, he, rfl⟩
  · exact h.succeed (effect_shape hu)
  · exact h.abort w he

/-- The state an advance leads to, or executes a command in, meets the invariant. -/
def Advance.MeetsInv : Advance → Prop
  | .next t => t.Inv
  | .refuse _ => True
  | .execute _ t => t.Inv

/-- R291: a soft reset keeps the invariant. -/
theorem State.Inv.softReset {s : State} (h : s.Inv) : s.softReset.Inv :=
  { h with
    codeLegal := Nat.zero_le _
    errCodeLegal := Nat.zero_le _
    errIffCode := by simp
    codeRecorded := fun _ => rfl
    fieldLegal := .inl (Nat.zero_le _)
    busyNotDone := fun hb => by cases hb }

/-- R260: with a command in flight and DONE cleared, whatever the duration, the invariant holds. -/
theorem State.Inv.issued {s : State} (h : s.Inv) (f : InFlight) (ds : List Nat) :
    { s with done := false, inflight := some f, durations := ds }.Inv :=
  { h with busyNotDone := fun _ => rfl }

theorem startCommand_meetsInv {s : State} (h : s.Inv) (w : Word) : (startCommand s w).MeetsInv := by
  unfold startCommand
  split <;> exact h.issued _ _

theorem writeCtrl_inv {s : State} (h : s.Inv) (v : Word) : (writeCtrl s v).Inv := by
  unfold writeCtrl
  split
  · exact h.softReset
  · exact { h with }

theorem writeStatus_inv {s : State} (h : s.Inv) (v : Word) : (writeStatus s v).Inv := by
  unfold writeStatus
  split
  · exact { h with busyNotDone := fun _ => rfl }
  · exact h

theorem writeControl_meetsInv {s : State} (h : s.Inv) (v : Word) (i : Nat) : (writeControl s v i).MeetsInv := by
  unfold writeControl
  split
  · exact writeCtrl_inv h v
  · exact startCommand_meetsInv h v
  · exact writeStatus_inv h v
  · exact h

theorem writeConfig_inv {s : State} (h : s.Inv) (v : Word) (i : Nat) : (writeConfig s v i).Inv := by
  unfold writeConfig
  split <;> exact { h with }

theorem writeWaveform_inv {s : State} (h : s.Inv) (v : Word) (i : Nat) : (writeWaveform s v i).Inv := by
  unfold writeWaveform
  split
  · exact { h with }
  · split <;> exact { h with }

theorem writeFieldTable_inv {s : State} (h : s.Inv) (v : Word) (i : Nat) : (writeFieldTable s v i).Inv := by
  unfold writeFieldTable
  split <;> exact { h with }

/-- A host write to a mapped unit keeps the invariant; a memory unit has to lie in its memory. -/
theorem writeUnit_meetsInv {s : State} (h : s.Inv) (v : Word) {k : RegionKind} {i : Nat}
    (hb : (k = .record → i < Config.recWords) ∧ (k = .sample → i < Config.smpWords) ∧
      (k = .buffer → i < s.bitbufBytes)) : (writeUnit s v k i).MeetsInv := by
  obtain ⟨hrec, hsmp, hbuf⟩ := hb
  cases k with
  | control => exact writeControl_meetsInv h v i
  | argRegs => exact { h with }
  | resRegs => exact h
  | config => exact writeConfig_inv h v i
  | bounds => exact h
  | waveform => exact writeWaveform_inv h v i
  | fieldTable => exact writeFieldTable_inv h v i
  | record => exact { h with recCanonical := Memory.wf_set h.recCanonical (hrec rfl) v }
  | sample => exact { h with smpCanonical := Memory.wf_set h.smpCanonical (hsmp rfl) _ }
  | buffer => exact { h with bufCanonical := Memory.wf_set h.bufCanonical (hbuf rfl) _ }

theorem busWrite_meetsInv {s : State} (h : s.Inv) (wd : Width) (a : BitVec 32) (v : Word) :
    (busWrite s wd a v).MeetsInv := by
  rcases busWrite_cases s wd a v with ⟨r, -, hr⟩ | ⟨-, hn⟩ | ⟨k, i, ht, -, hu⟩
  · rw [hr]
    trivial
  · rw [hn]
    exact h
  · rw [hu]
    exact writeUnit_meetsInv h v (target_unit_bounds ht)

theorem busRead_meetsInv {s : State} (h : s.Inv) (wd : Width) (a : BitVec 32) : (busRead s wd a).MeetsInv := by
  rcases busRead_cases s wd a with ⟨r, -, hr⟩ | ⟨v, hv⟩
  · rw [hr]
    trivial
  · rw [hv]
    exact { h with }

theorem hostAct_meetsInv {s : State} (h : s.Inv) (op : HostOp) : (hostAct s op).MeetsInv := by
  cases op with
  | write wd a v => exact busWrite_meetsInv h wd a v
  | read wd a => exact busRead_meetsInv h wd a
  | wait => exact { h with }
  | check => exact { h with }

theorem hostTurn_meetsInv {s : State} (h : s.Inv) : (hostTurn s).MeetsInv := by
  unfold hostTurn
  split
  · exact h
  · refine hostAct_meetsInv ?_ _
    exact { h with }

/-- R260: the time of a command in flight runs down, and the invariant stays. -/
theorem State.Inv.inflight {s : State} (h : s.Inv) (hs : s.busy = true) (f : InFlight) :
    { s with inflight := some f }.Inv :=
  { h with busyNotDone := fun _ => h.busyNotDone hs }

theorem advance_meetsInv {s : State} (h : s.Inv) : (advance s).MeetsInv := by
  unfold advance
  split
  · exact hostTurn_meetsInv h
  · rename_i f hf
    split
    · exact h
    · exact hostTurn_meetsInv (h.inflight (by rw [State.busy, hf]; rfl) _)

/-- Settles O60: an advance keeps the invariant, and so does executing a command word. -/
theorem everyStepKeepsInvariant : Obligations.EveryStepKeepsInvariant := by
  intro s t h hst
  have ha := advance_meetsInv h
  rcases step_cases hst with ⟨w, u, hadv, hrun⟩ | hadv
  · rw [hadv] at ha
    exact State.Inv.runWord ha hrun
  · rwa [hadv] at ha

/-! ### What a command leaves alone -/

/-- Settles O10: neither an effect nor an abort writes any of these registers. -/
theorem commandsKeepConfiguration : Obligations.CommandsKeepConfiguration := by
  intro i s t h
  rcases exec_cases h with ⟨u, hu, rfl⟩ | ⟨e, -, rfl⟩
  · rw [(effect_shape hu).keeps]
    simp
  · simp

/-- Settles O11: an effect writes the RES registers its rule names, an abort writes none. -/
theorem onlyNamedResultsAreWritten : Obligations.OnlyNamedResultsAreWritten := by
  intro i s t h j _ hj
  rcases exec_cases h with ⟨u, hu, rfl⟩ | ⟨e, -, rfl⟩
  · rcases hj with herr | hj
    · cases herr
    · exact (effect_shape hu).res_kept hj
  · rfl

/-! ### W_POS -/

/-- Settles O25: `bitsNeeded` is the least width, and 2^8 ≤ 360 ≤ 360·S < 2^41. -/
theorem positionWidthIsLeast : Obligations.PositionWidthIsLeast := by
  intro S h1 h2
  have least : ∀ b, wPos S ≤ b ↔ 360 * S < 2 ^ b := bitsNeeded_le_iff _
  refine ⟨two_pow_wPos_gt S, fun b => (least b).2, ?_, (least 41).2 (by omega)⟩
  by_contra hlt
  have := (least 8).1 (by omega)
  omega

/-! ### Register addresses -/

theorem toNat_addr {a : Nat} (h : a < 2 ^ 32) : (BitVec.ofNat 32 a).toNat = a :=
  (BitVec.toNat_ofNat ..).trans (Nat.mod_eq_of_lt h)

/-- R21 to R25: control register `i` stands at `8·i`. -/
theorem target_controlAddr {n i : Nat} (h : i < 9) : target n .w64 (BitVec.ofNat 32 (8 * i)).toNat = .unit .control i := by
  rw [toNat_addr (by omega)]
  exact target_control h

/-! ### Steps -/

theorem runWord_of_decode {w : Word} {i : Instr} (h : decode w = .ok i) (s : State) : runWord w s = exec i s := by
  unfold runWord
  rw [h]

theorem step_of_next {s t : State} (h : advance s = .next t) : step s = .next t := by
  unfold step
  rw [h]

theorem step_of_refuse {s : State} {r : Refusal} (h : advance s = .refuse r) : step s = .refused r := by
  unfold step
  rw [h]

theorem step_of_execute {s t : State} {w : Word} (h : advance s = .execute w t) : step s = runWord w t := by
  unfold step
  rw [h]

/-- With no command in flight the host acts. -/
theorem advance_idle {s : State} (h : s.inflight = none) : advance s = hostTurn s := by
  unfold advance
  rw [h]

/-- R260: a command whose time has come executes. -/
theorem advance_due {s : State} {w : Word} (h : s.inflight = some ⟨w, 0⟩) : advance s = .execute w s := by
  unfold advance
  rw [h]

/-- R297: before its time has come, the time of a command in flight runs down and the host acts. -/
theorem advance_waiting {s : State} {w : Word} {n : Nat} (h : s.inflight = some ⟨w, n + 1⟩) :
    advance s = hostTurn { s with inflight := some ⟨w, n⟩ } := by
  unfold advance
  rw [h]

theorem hostTurn_nil {s : State} (h : s.script = []) : hostTurn s = .next s := by
  unfold hostTurn
  rw [h]

theorem hostTurn_cons {s : State} {op : HostOp} {rest : List HostOp} (h : s.script = op :: rest) :
    hostTurn s = hostAct { s with script := rest } op := by
  unfold hostTurn
  rw [h]

theorem startCommand_now {s : State} (h : s.durations.headD 0 = 0) (w : Word) :
    startCommand s w = .execute w (s.issue w) := by
  unfold startCommand
  rw [h]

theorem startCommand_later {s : State} {n : Nat} (h : s.durations.headD 0 = n + 1) (w : Word) :
    startCommand s w = .next { s.issue w with inflight := some ⟨w, n⟩ } := by
  unfold startCommand
  rw [h]

/-- R23: with no command in flight, a host write of CMD starts the command. -/
theorem busWrite_cmd {s : State} (h : s.inflight = none) (w : Word) : busWrite s .w64 0x010#32 w = startCommand s w :=
  busWrite_idle h (target_controlAddr (i := 2) (by decide)) w

/-- R23, R260: a step whose host action is a write of CMD. -/
theorem advance_cmd {s : State} {w : Word} {rest : List HostOp} (h : s.inflight = none)
    (hs : s.script = .write .w64 0x010#32 w :: rest) : advance s = startCommand { s with script := rest } w := by
  rw [advance_idle h, hostTurn_cons hs]
  exact busWrite_cmd (s := { s with script := rest }) h w

/-- What a step does with the answer of the host's access. -/
theorem step_of_answer {s : State} {answer : Advance} (h : advance s = answer) :
    (∀ t, answer = .next t → step s = .next t) ∧ ∀ r, answer = .refuse r → step s = .refused r :=
  ⟨fun _ ht => step_of_next (h.trans ht), fun _ hr => step_of_refuse (h.trans hr)⟩

/-- Settles O5: by the cases of `advance`, whether a command is in flight and whether its time has come. -/
theorem stepRunsIssuedCommand : Obligations.StepRunsIssuedCommand := by
  intro s w
  refine ⟨fun i hi => runWord_of_decode hi s, fun rest hidle hs => ⟨fun hd => ?_, fun n hd => ?_⟩,
    fun hdue => step_of_execute (advance_due hdue), fun base hbase => ?_⟩
  · rw [step_of_execute ((advance_cmd hidle hs).trans (startCommand_now (s := { s with script := rest }) hd w))]
    unfold State.issue
    rw [hd]
  · exact step_of_next ((advance_cmd hidle hs).trans (startCommand_later (s := { s with script := rest }) hd w))
  · have hadv : advance s = hostTurn base := by
      rcases hbase with ⟨hidle, rfl⟩ | ⟨n, hwait, rfl⟩
      · exact advance_idle hidle
      · exact advance_waiting hwait
    have hscript : base.script = s.script := by
      rcases hbase with ⟨-, rfl⟩ | ⟨n, -, rfl⟩ <;> rfl
    have act : ∀ {op rest}, s.script = op :: rest → advance s = hostAct { base with script := rest } op :=
      fun h => hadv.trans (hostTurn_cons (hscript.trans h))
    exact ⟨fun hnil => step_of_next (hadv.trans (hostTurn_nil (hscript.trans hnil))), fun rest =>
      ⟨fun wd a v answer hs ha => step_of_answer ((act hs).trans ha),
        fun wd a answer hs ha => step_of_answer ((act hs).trans ha),
        fun hs => step_of_next (act hs), fun hs => step_of_next (act hs)⟩⟩

/-! ### STATUS and CTRL -/

/-- R24, R72: STATUS may be written at any time. -/
theorem busWrite_status (s : State) (v : Word) : busWrite s .w64 0x018#32 v = .next (writeStatus s v) := by
  unfold busWrite
  rw [show target s.bitbufBytes .w64 (0x018#32).toNat = .unit .control 3 from target_control (i := 3) (by decide)]
  simp [busyForbids, writeUnit, writeControl]

/-- R22: a host write of CTRL without SOFT_RESET sets IRQ_EN and APPEND. -/
theorem writeUnit_ctrl (s : State) {v : Word} (hv : v.getLsbD 2 = false) :
    writeUnit s v .control 1 = .next { s with irqEn := v.getLsbD 0, append := v.getLsbD 1 } := by
  rw [writeUnit, writeControl, writeCtrl, hv]
  rfl

/-- Settles O54: by the rules of a STATUS write and of a CTRL write. -/
theorem statusAndCtrlWrites : Obligations.StatusAndCtrlWrites := fun s v =>
  ⟨by simp [State.irq], busWrite_status s v, fun h hv =>
    (busWrite_idle h (target_controlAddr (i := 1) (by decide)) v).trans (writeUnit_ctrl s hv)⟩

/-! ### Ignored and refused accesses -/

/-- A row of R60 as numbers: its first and last byte and its access width in bytes. -/
def Region.row (r : Region) : Nat × Nat × Nat := (r.base, r.base + r.size - 1, r.width.bytes)

theorem hostRows_eq (n : Nat) : hostRows n = (hostMap n).map Region.row := rfl

/-- R60: every row ends above address 0, so subtracting 1 gives its last byte. -/
theorem region_end_pos {n : Nat} {r : Region} (hr : r ∈ hostMap n) : 0 < r.base + r.size := by
  simp only [hostMap, List.mem_cons, List.not_mem_nil, or_false] at hr
  rcases hr with rfl | rfl | rfl | rfl | rfl | rfl | rfl | rfl | rfl | rfl <;> simp

/-- R60: the region of an address, by the first and last byte of its row. -/
theorem regionOf_eq_some_iff_row {n a : Nat} {r : Region} (hr : r ∈ hostMap n) :
    regionOf n a = some r ↔ r.row.1 ≤ a ∧ a ≤ r.row.2.1 := by
  have := region_end_pos hr
  rw [regionOf_eq_some]
  simp only [Region.row, hr, true_and]
  omega

/-- R61: an access none of whose bytes lies in a row of the map is unmapped. -/
theorem target_outside_rows {n : Nat} {wd : Width} {a : Nat}
    (h : ∀ k row, k < wd.bytes → row ∈ hostRows n → ¬ (row.1 ≤ a + k ∧ a + k ≤ row.2.1)) :
    target n wd a = .unmapped := by
  refine target_unmapped fun k hk => Option.eq_none_iff_forall_ne_some.2 fun r hr => ?_
  have hm := (regionOf_eq_some.1 hr).1
  refine h k r.row hk ?_ ((regionOf_eq_some_iff_row hm).1 hr)
  rw [hostRows_eq]
  exact List.mem_map_of_mem hm

/-- R61: an access that touches a row and is not an aligned access of its width is bad. -/
theorem target_bad_in_row {n k : Nat} {wd : Width} {a : Nat} {row : Nat × Nat × Nat} (hk : k < wd.bytes)
    (hrow : row ∈ hostRows n) (h1 : row.1 ≤ a + k) (h2 : a + k ≤ row.2.1) (hb : ¬ (wd.bytes = row.2.2 ∧ a % row.2.2 = 0)) :
    target n wd a = .bad := by
  rw [hostRows_eq] at hrow
  obtain ⟨r, hr, rfl⟩ := List.mem_map.1 hrow
  refine target_bad hk ((regionOf_eq_some_iff_row hr).2 ⟨h1, h2⟩) fun ⟨hw, ha⟩ => hb ?_
  subst hw
  exact ⟨rfl, ha⟩

/-- A host write to a unit that ignores it, and a read of it. -/
theorem bus_readOnly {s : State} (h : s.inflight = none) {wd : Width} {a : BitVec 32} {v : Word} {k : RegionKind} {i : Nat}
    (ht : target s.bitbufBytes wd a.toNat = .unit k i) (hw : writeUnit s v k i = .next s) :
    busWrite s wd a v = .next s ∧ s.reads wd a (readUnit s k i) :=
  ⟨(busWrite_idle h ht v).trans hw, busRead_idle h ht⟩

/-- R21, R25: ID and the ERR_* registers. -/
theorem bus_control_readOnly {s : State} (h : s.inflight = none) (v : Word) {i : Nat} (hi : i ∈ [0, 4, 5, 6, 7, 8]) :
    busWrite s .w64 (BitVec.ofNat 32 (8 * i)) v = .next s ∧ s.reads .w64 (BitVec.ofNat 32 (8 * i)) (readControl s i) := by
  simp only [List.mem_cons, List.not_mem_nil, or_false] at hi
  refine bus_readOnly h (target_controlAddr (by omega)) ?_
  rcases hi with rfl | rfl | rfl | rfl | rfl | rfl <;> rfl

/-- R34: the bounds registers. -/
theorem bus_bounds_readOnly {s : State} (h : s.inflight = none) (v : Word) {i : Nat} (hi : i < 8) :
    busWrite s .w64 (BitVec.ofNat 32 (0x180 + 8 * i)) v = .next s ∧
      s.reads .w64 (BitVec.ofNat 32 (0x180 + 8 * i)) (s.bounds.read i) := by
  have ht : target s.bitbufBytes .w64 (BitVec.ofNat 32 (0x180 + 8 * i)).toNat = .unit .bounds i := by
    rw [toNat_addr (by omega)]
    exact target_bounds hi
  exact bus_readOnly h ht rfl

/-- R27: the RES registers. -/
theorem bus_res_readOnly {s : State} (h : s.inflight = none) (v : Word) {i : Nat} (hi : i < 8) :
    busWrite s .w64 (addrRes i) v = .next s ∧ s.reads .w64 (addrRes i) (s.resWord i) := by
  have ht : target s.bitbufBytes .w64 (addrRes i).toNat = .unit .resRegs i := by
    rw [addrRes, toNat_addr (by omega)]
    exact target_res hi
  exact bus_readOnly h ht rfl

/-- The address and the value of ID, the ERR_* registers and the bounds registers (R21, R25, R34). -/
def State.readOnlyPairs (s : State) : List (BitVec 32 × Word) :=
  ([0, 4, 5, 6, 7, 8].map fun i => (BitVec.ofNat 32 (8 * i), readControl s i)) ++
    (List.range 8).map fun i => (BitVec.ofNat 32 (0x180 + 8 * i), s.bounds.read i)

theorem State.readOnlyPairs_eq (s : State) : s.readOnlyPairs =
    [(0x000#32, 0x4744433100000007#64), (0x020#32, BitVec.ofNat 64 s.errCode.toNat), (0x028#32, s.errCmd),
      (0x030#32, BitVec.ofNat 64 s.errField.toNat), (0x038#32, BitVec.ofNat 64 s.errIndex.toNat), (0x040#32, s.errInfo),
      (0x180#32, s.bounds.minLat), (0x188#32, s.bounds.maxLat), (0x190#32, s.bounds.minLon), (0x198#32, s.bounds.maxLon),
      (0x1A0#32, s.bounds.minPlat), (0x1A8#32, s.bounds.maxPlat), (0x1B0#32, s.bounds.minPlon),
      (0x1B8#32, s.bounds.maxPlon)] := by
  simp only [BitVec.ofNat_toNat]
  rfl

theorem bus_readOnlyPairs {s : State} (h : s.inflight = none) (v : Word) {a : BitVec 32} {w : Word}
    (haw : (a, w) ∈ s.readOnlyPairs) : busWrite s .w64 a v = .next s ∧ s.reads .w64 a w := by
  rcases List.mem_append.1 haw with hc | hb
  · obtain ⟨i, hi, heq⟩ := List.mem_map.1 hc
    cases heq
    exact bus_control_readOnly h v hi
  · obtain ⟨i, hi, heq⟩ := List.mem_map.1 hb
    cases heq
    exact bus_bounds_readOnly h v (List.mem_range.1 hi)

/-- Settles O56: by the three answers of the host map, unmapped, bad and a unit. -/
theorem ignoredAccesses : Obligations.IgnoredAccesses := by
  intro s v
  refine ⟨s.status_eq ▸ busRead_status s, fun h => ⟨fun wd a => ⟨fun hout => ?_, ?_⟩, ?_, ?_, ?_, ?_⟩⟩
  · exact bus_unmapped h (target_outside_rows hout) v
  · intro k row hk hrow h1 h2 hb
    exact bus_bad (target_bad_in_row hk hrow h1 h2 hb) v
  · rw [← s.ctrl_eq]
    exact busRead_idle h (target_controlAddr (i := 1) (by decide))
  · exact busRead_idle h (target_controlAddr (i := 2) (by decide))
  · rw [← s.readOnlyPairs_eq]
    exact fun a w => bus_readOnlyPairs h v
  · exact fun i hi => bus_res_readOnly h v hi

/-! ### Values read back -/

/-- R20: the implemented bits of a written word, as a word. -/
theorem setWidth_setWidth_word (v : Word) (n : Nat) : (v.setWidth n).setWidth 64 = BitVec.ofNat 64 (v.toNat % 2 ^ n) := by
  rw [← BitVec.ofNat_toNat 64 (v.setWidth n), BitVec.toNat_setWidth]

theorem ofNat_toNat_mod_word (v : Word) : v = BitVec.ofNat 64 (v.toNat % 2 ^ 64) := by
  rw [Nat.mod_eq_of_lt v.isLt, BitVec.ofNat_toNat, BitVec.setWidth_eq]

/-- R22: the two implemented bits of CTRL. -/
theorem ofNat_low_two_bits (v : Word) :
    BitVec.ofNat 64 ((v.getLsbD 1).toNat * 2 + (v.getLsbD 0).toNat) = BitVec.ofNat 64 (v.toNat % 2 ^ 2) := by
  have h1 : (v.getLsbD 1).toNat = v.toNat / 2 ^ 1 % 2 := Nat.toNat_testBit _ _
  have h0 : (v.getLsbD 0).toNat = v.toNat / 2 ^ 0 % 2 := Nat.toNat_testBit _ _
  rw [h1, h0]
  congr 1
  omega

theorem getD_setIfInBounds {α : Type} {n i : Nat} (hi : i < n) (xs : Vector α n) (x d : α) (j : Nat) :
    (xs.setIfInBounds i x).getD j d = if j = i then x else xs.getD j d := by
  by_cases hj : j < n
  · simp [Vector.getD, hj, Array.getElem_setIfInBounds, eq_comm]
  · simp [Vector.getD, hj, show j ≠ i by omega]

/-- With no command in flight, a write to a mapped unit is read back as what the unit then holds. -/
theorem readsBack_unit {s t : State} {wd : Width} {a : BitVec 32} {v : Word} {bits : Nat} {k : RegionKind} {i : Nat}
    (h : s.inflight = none) (ht : target s.bitbufBytes wd a.toNat = .unit k i) (hw : writeUnit s v k i = .next t)
    (hi : t.inflight = s.inflight) (hb : t.bitbufBytes = s.bitbufBytes)
    (hr : readUnit t k i = BitVec.ofNat 64 (v.toNat % 2 ^ bits)) : s.readsBack wd a v bits t := by
  refine ⟨(busWrite_idle h ht v).trans hw, ?_⟩
  rw [State.reads, busRead_idle (hi.trans h) (by rw [hb]; exact ht), hr]

/-! ### Registers -/

theorem target_argAddr {n i : Nat} (h : i < 8) : target n .w64 (addrArg i).toNat = .unit .argRegs i := by
  rw [addrArg, toNat_addr (by omega)]
  exact target_arg h

theorem target_configAddr {n i : Nat} (h : i < 4) :
    target n .w64 (BitVec.ofNat 32 (0x100 + 8 * i)).toNat = .unit .config i := by
  rw [toNat_addr (by omega)]
  exact target_config h

theorem target_waveformAddr {n i : Nat} (h : i < 11) : target n .w64 (addrPresence i).toNat = .unit .waveform i := by
  rw [addrPresence, toNat_addr (by omega)]
  exact target_waveform h

theorem target_fbitsAddr {n k : Nat} (h : k < 19) : target n .w64 (addrFbits k).toNat = .unit .fieldTable (2 * k) := by
  rw [addrFbits, toNat_addr (by omega), show 0x1000 + 16 * k = 0x1000 + 8 * (2 * k) by omega]
  exact target_fieldTable (by omega)

theorem target_foffAddr {n k : Nat} (h : k < 19) : target n .w64 (addrFoff k).toNat = .unit .fieldTable (2 * k + 1) := by
  rw [addrFoff, toNat_addr (by omega), show 0x1008 + 16 * k = 0x1000 + 8 * (2 * k + 1) by omega]
  exact target_fieldTable (by omega)

theorem readUnit_fbits (s : State) (k : Nat) : readUnit s .fieldTable (2 * k) = (s.fbits.getD k 0#7).setWidth 64 := by
  simp [readUnit, readFieldTable]

theorem readUnit_foff (s : State) (k : Nat) : readUnit s .fieldTable (2 * k + 1) = s.foff.getD k 0#64 := by
  simp [readUnit, readFieldTable, show (2 * k + 1) % 2 = 1 by omega, show (2 * k + 1) / 2 = k by omega]

theorem writeUnit_fbits (s : State) (v : Word) (k : Nat) : writeUnit s v .fieldTable (2 * k) =
    .next { s with fbits := s.fbits.setIfInBounds k (v.setWidth 7) } := by
  simp [writeUnit, writeFieldTable]

theorem writeUnit_foff (s : State) (v : Word) (k : Nat) : writeUnit s v .fieldTable (2 * k + 1) =
    .next { s with foff := s.foff.setIfInBounds k v } := by
  simp [writeUnit, writeFieldTable, show (2 * k + 1) % 2 = 1 by omega, show (2 * k + 1) / 2 = k by omega]

theorem readUnit_presence (s : State) {c : Nat} (h : c < 9) :
    readUnit s .waveform c = (s.presence.getD c 0#14).setWidth 64 := by
  simp [readUnit, readWaveform, h]

theorem writeUnit_presence (s : State) (v : Word) {c : Nat} (h : c < 9) : writeUnit s v .waveform c =
    .next { s with presence := s.presence.setIfInBounds c (v.setWidth 14) } := by
  simp [writeUnit, writeWaveform, h]

@[simp] theorem writeConfig_inflight (s : State) (v : Word) (i : Nat) : (writeConfig s v i).inflight = s.inflight := by
  unfold writeConfig
  split <;> rfl

@[simp] theorem writeConfig_bitbufBytes (s : State) (v : Word) (i : Nat) :
    (writeConfig s v i).bitbufBytes = s.bitbufBytes := by
  unfold writeConfig
  split <;> rfl

section
variable {s : State} (h : s.inflight = none) (v : Word)
include h

/-- R26: ARG`i` reads back whole. -/
theorem readsBack_arg {i : Nat} (hi : i < 8) :
    s.readsBack .w64 (addrArg i) v 64 { s with arg := s.arg.setIfInBounds i v } := by
  refine readsBack_unit h (target_argAddr hi) rfl rfl rfl ?_
  exact ((getD_setIfInBounds hi ..).trans (if_pos rfl)).trans (ofNat_toNat_mod_word v)

/-- R22: CTRL reads back bits 0 and 1. -/
theorem readsBack_ctrl (hv : v.getLsbD 2 = false) :
    s.readsBack .w64 0x008#32 v 2 { s with irqEn := v.getLsbD 0, append := v.getLsbD 1 } :=
  readsBack_unit h (target_controlAddr (i := 1) (by decide)) (writeUnit_ctrl s hv) rfl rfl
    ((State.ctrl_eq _).trans (ofNat_low_two_bits v))

/-- R28, R30, R31: a configuration register reads back its `bits` implemented bits. -/
theorem readsBack_config {i bits : Nat} (hi : i < 4)
    (hr : readConfig (writeConfig s v i) i = (v.setWidth bits).setWidth 64) :
    s.readsBack .w64 (BitVec.ofNat 32 (0x100 + 8 * i)) v bits (writeConfig s v i) :=
  readsBack_unit h (target_configAddr hi) rfl (writeConfig_inflight s v i) (writeConfig_bitbufBytes s v i)
    (hr.trans (setWidth_setWidth_word v bits))

/-- R35: PRESENCE[`c`] reads back its 14 bits. -/
theorem readsBack_presence {c : Nat} (hc : c < 9) :
    s.readsBack .w64 (addrPresence c) v 14 { s with presence := s.presence.setIfInBounds c (v.setWidth 14) } := by
  refine readsBack_unit h (target_waveformAddr (by omega)) (writeUnit_presence s v hc) rfl rfl ?_
  rw [readUnit_presence _ hc, getD_setIfInBounds hc, if_pos rfl, setWidth_setWidth_word]

/-- R32: FBITS[`k`] reads back its 7 bits. -/
theorem readsBack_fbits {k : Nat} (hk : k < 19) :
    s.readsBack .w64 (addrFbits k) v 7 { s with fbits := s.fbits.setIfInBounds k (v.setWidth 7) } := by
  refine readsBack_unit h (target_fbitsAddr hk) (writeUnit_fbits s v k) rfl rfl ?_
  rw [readUnit_fbits, getD_setIfInBounds hk, if_pos rfl, setWidth_setWidth_word]

/-- R32: FOFF[`k`] reads back whole. -/
theorem readsBack_foff {k : Nat} (hk : k < 19) :
    s.readsBack .w64 (addrFoff k) v 64 { s with foff := s.foff.setIfInBounds k v } := by
  refine readsBack_unit h (target_foffAddr hk) (writeUnit_foff s v k) rfl rfl ?_
  rw [readUnit_foff, getD_setIfInBounds hk, if_pos rfl]
  exact ofNat_toNat_mod_word v

/-- R36: WF_TIMESTAMP reads back whole. -/
theorem readsBack_timestamp : s.readsBack .w64 0x248#32 v 64 { s with wfTimestamp := v } :=
  readsBack_unit h (target_waveformAddr (i := 9) (by decide)) rfl rfl rfl (ofNat_toNat_mod_word v)

/-- R36: WF_SCAN reads back whole. -/
theorem readsBack_scan : s.readsBack .w64 0x250#32 v 64 { s with wfScan := v } :=
  readsBack_unit h (target_waveformAddr (i := 10) (by decide)) rfl rfl rfl (ofNat_toNat_mod_word v)

end

/-- Settles O57: register by register, by the rule of its bank; in a bank, the other registers keep their words. -/
theorem registerReadsBackImplementedBits : Obligations.RegisterReadsBackImplementedBits := by
  intro s v h
  refine ⟨fun i hi => ⟨_, readsBack_arg h v hi, rfl, ?_⟩, readsBack_ctrl h v,
    readsBack_config (i := 0) h v (by decide) rfl, readsBack_config (i := 1) h v (by decide) rfl,
    readsBack_config (i := 2) h v (by decide) rfl, readsBack_config (i := 3) h v (by decide) rfl,
    fun c hc => ⟨_, readsBack_presence h v hc, rfl, ?_⟩, readsBack_timestamp h v, readsBack_scan h v,
    fun k hk => ⟨_, readsBack_fbits h v hk, rfl, ?_⟩, fun k hk => ⟨_, readsBack_foff h v hk, rfl, ?_⟩⟩
  · exact getD_setIfInBounds hi s.arg v 0#64
  · intro d p hp
    simp only [State.present, getD_setIfInBounds hc]
    split
    · simp [hp]
    · rfl
  · intro j
    simp only [State.fieldBits, getD_setIfInBounds hk]
    split
    · exact BitVec.toNat_setWidth ..
    · rfl
  · intro j
    simp only [State.fieldOffset, getD_setIfInBounds hk]
    split <;> rfl

/-! ### Memories -/

theorem target_recAddr {n j : Nat} (h : j < 328) : target n .w64 (addrRec j).toNat = .unit .record j := by
  rw [addrRec, toNat_addr (by omega)]
  exact target_record h

theorem target_smpAddr {n c p i : Nat} (hc : c < 9) (hp : p < 14) (hi : i < 64) :
    target n .w16 (addrSmp c p i).toNat = .unit .sample (smpAddr c p i) := by
  have hlt : smpAddr c p i < 8064 := smpAddr_lt hc hp hi
  rw [addrSmp, toNat_addr (by omega)]
  exact target_sample hlt

theorem target_bufAddr {n a : Nat} (hn : Config.legalBitbufBytes n) (h : a < n) :
    target n .w8 (addrBuf a).toNat = .unit .buffer a := by
  have hle := hn.2
  rw [addrBuf, toNat_addr (by omega)]
  exact target_buffer h

/-- Settles O58: each memory's unit is reached at its address, and a read after a write is the law of the memory. -/
theorem memoryReadsBackWhole : Obligations.MemoryReadsBackWhole := by
  intro s v h hn
  refine ⟨fun j hj => ⟨_, readsBack_unit h (target_recAddr hj) rfl rfl rfl ?_, rfl, fun k => Memory.get_set ..⟩,
    fun c p i hc hp hi => ⟨_, readsBack_unit h (target_smpAddr hc hp hi) rfl rfl rfl ?_, rfl,
      fun k => Memory.get_set ..⟩,
    fun a ha => ⟨_, readsBack_unit h (target_bufAddr hn ha) rfl rfl rfl ?_, rfl, fun k => Memory.get_set ..⟩⟩
  · exact (Memory.get_set_self ..).trans (ofNat_toNat_mod_word v)
  · exact (congrArg (BitVec.setWidth 64) (Memory.get_set_self ..)).trans (setWidth_setWidth_word v 16)
  · exact (congrArg (BitVec.setWidth 64) (Memory.get_set_self ..)).trans (setWidth_setWidth_word v 8)

end Sys2Proof.Machine
end

section
/-! Proofs of the statements about BITBUF and the host's access to it: what the bit writers leave alone (R64, R121, R123,
R200), an access past its end (R65, R264), and the BUSY contract (R72). -/

namespace Sys2Proof.Machine

/-! ### The BUSY contract -/

/-- R72: while BUSY, an access to an address other than STATUS is forbidden, whatever it reaches. -/
theorem busyForbids_of_ne_status {s : State} (hs : s.busy = true) {a : BitVec 32} (ha : a ≠ 0x018#32) (n : Nat)
    (wd : Width) : busyForbids s (target n wd a.toNat) = true := by
  have ht : target n wd a.toNat ≠ .unit .control 3 := fun h => ha (BitVec.eq_of_toNat_eq (target_status h).2)
  simp [busyForbids, hs, ht]

/-- R72: while BUSY, the bus refuses every access to an address other than STATUS. -/
theorem bus_busy {s : State} (hs : s.busy = true) {a : BitVec 32} (ha : a ≠ 0x018#32) (wd : Width) (v : Word) :
    ∃ r, (r = .busyAccess ∨ r = .badAccess) ∧ busWrite s wd a v = .refuse r ∧ busRead s wd a = .refuse r := by
  have hf := busyForbids_of_ne_status hs ha s.bitbufBytes wd
  unfold busWrite busRead
  dsimp only
  generalize target s.bitbufBytes wd a.toNat = t at hf
  cases t with
  | bad => exact ⟨_, .inr rfl, rfl, rfl⟩
  | unmapped => exact ⟨_, .inl rfl, if_pos hf, if_pos hf⟩
  | unit k i => exact ⟨_, .inl rfl, if_pos hf, if_pos hf⟩

/-- R297: a step whose host action the bus refuses, a command being in flight whose time has not come. -/
theorem step_refused_waiting {s : State} {w : Word} {n : Nat} {op : HostOp} {rest : List HostOp} {r : Refusal}
    (hw : s.inflight = some ⟨w, n + 1⟩) (hop : s.script = op :: rest)
    (hr : hostAct { s with inflight := some ⟨w, n⟩, script := rest } op = .refuse r) : step s = .refused r :=
  step_of_refuse ((advance_waiting hw).trans ((hostTurn_cons (s := { s with inflight := some ⟨w, n⟩ }) hop).trans hr))

/-- Settles O55: the command is still in flight when the host acts, and while BUSY the bus refuses both accesses. -/
theorem busyContractIsRefused : Obligations.BusyContractIsRefused := by
  rintro s ⟨w, m⟩ n wd a v rest hf rfl ha hop
  obtain ⟨r, hk, hwrite, hread⟩ := bus_busy (s := { s with inflight := some ⟨w, n⟩, script := rest }) rfl ha wd v
  rcases hop with hop | hop
  · exact ⟨r, step_refused_waiting hf hop hwrite, hk⟩
  · exact ⟨r, step_refused_waiting hf hop hread, hk⟩

/-! ### What the bit writers leave alone -/

/-- R64: writing a field changes only its own bits. -/
theorem sameBitsOutside_bitWrite (m : Memory 8) (b w v : Nat) : sameBitsOutside b w m (bitWrite m b w v) := fun i hi => by
  rw [streamBit_bitWrite, if_neg hi]

theorem sameBitsOutside_writeFields (m : Memory 8) (b : Nat) (fs : List Field) :
    sameBitsOutside b (fieldsWidth fs) m (writeFields m b fs) := fun _ => streamBit_writeFields_outside m b fs

/-- R8: an end of a bit range inside a legal BITBUF is a number that a register holds. -/
theorem streamBits_lt {s : State} (h : Config.legalBitbufBytes s.bitbufBytes) : s.streamBits < 2 ^ 64 := by
  have := h.2
  unfold State.streamBits
  omega

/-- A command that changes BITBUF only in the `n` bits from ARG0 on, and reports the first bit after them in RES`j`. -/
theorem bitWriter_frame {s u : State} {m : Memory 8} {zs : List Int} {n j : Nat}
    (hu : u = { s with bitbuf := m }.writeRes zs) (hn : Config.legalBitbufBytes s.bitbufBytes)
    (hb : s.argU 0 + n ≤ s.streamBits) (hm : sameBitsOutside (s.argU 0) n s.bitbuf m)
    (hj : j < zs.length) (h8 : zs.length ≤ 8) (hz : zs.getD j 0 = ((s.argU 0 + n : Nat) : Int)) :
    (∀ k, k < s.argU 0 ∨ (u.succeed.resWord j).toNat ≤ k → streamBit u.succeed.bitbuf k = streamBit s.bitbuf k) ∧
      (∀ a, u.succeed.smpMem.get a = s.smpMem.get a) ∧ (∀ a, u.succeed.recMem.get a = s.recMem.get a) ∧
      u.succeed.presence = s.presence ∧ u.succeed.wfTimestamp = s.wfTimestamp ∧ u.succeed.wfScan = s.wfScan ∧
      u.succeed.bounds = s.bounds := by
  have hlt := streamBits_lt hn
  have hres : (u.succeed.resWord j).toNat = s.argU 0 + n := by
    rw [hu, resWord_of_writeRes _ _ _ hj h8, hz]
    exact u64_wrap64 (by omega)
  subst hu
  exact ⟨fun k hk => hm k (by omega), fun _ => rfl, fun _ => rfl, rfl, rfl, rfl, rfl⟩

/-- Settles O13: each bit writer changes the bits of its field or packet, which it reports the end of. -/
theorem bitWritersFrame : Obligations.BitWritersFrame := by
  intro i s t w ch pkt hi hn h he
  obtain ⟨u, hu, rfl⟩ := exec_ok h he
  simp only [List.mem_cons, List.not_mem_nil, or_false] at hi
  rcases hi with rfl | rfl | rfl
  · obtain ⟨-, hb, hu⟩ := packBits_ok hu
    rw [if_neg (by simp)]
    exact bitWriter_frame hu hn hb (sameBitsOutside_bitWrite _ _ _ _) (by simp) (by simp) rfl
  · obtain ⟨-, hb, hu⟩ := packBits_ok hu
    rw [if_neg (by simp)]
    exact bitWriter_frame hu hn hb (sameBitsOutside_bitWrite _ _ _ _) (by simp) (by simp) rfl
  · obtain ⟨_, -, hu⟩ := bind_eq_ok hu
    obtain ⟨-, -, ty, -, hb, hu⟩ := wfPktEnc_ok hu
    rw [if_pos rfl]
    exact bitWriter_frame hu hn hb (sameBitsOutside_writeFields _ _ _) (by simp) (by simp) rfl

/-! ### Past the end of BITBUF -/

/-- R264: a command whose effect is an overrun fails with code 2, field 45 and ARG0. -/
theorem exec_of_overrun {i : Instr} {s : State} {ix : BitVec 24} (h : effect i s = .error (overrunError ix (s.argWord 0))) :
    exec i s = .next (s.failedWith 2#8 (encode i) 45#8 ix (s.argWord 0)) := exec_of_error h

theorem packBits_overrun {max w : Nat} {s : State} (hw : w ≤ max) (h : 8 * s.bitbufBytes < s.argU 0 + w) (v : Nat) :
    packBits max w v s = .error (overrunError noIndex (s.argWord 0)) := by
  rw [packBits_eq, if_neg (not_lt.2 hw)]
  exact if_pos h

theorem unpackBits_overrun {max w : Nat} {s : State} (hw : w ≤ max) (h : 8 * s.bitbufBytes < s.argU 0 + w) :
    unpackBits max w s = .error (overrunError noIndex (s.argWord 0)) := by
  rw [unpackBits_eq, if_neg (not_lt.2 hw)]
  exact if_pos h

/-- R200: legal samples whose chosen packet does not fit. -/
theorem wfPktEnc_overrun {c p ty : Nat} {s : State} (h1 : samplesLegal (s.samples c p))
    (h2 : refApplies c (s.present 1 p) = true → samplesLegal (s.samples 1 p))
    (h3 : typeChosen ty (refApplies c (s.present 1 p)) (s.samples c p) (s.samples 1 p))
    (h : 8 * s.bitbufBytes < s.argU 0 + fieldsWidth (typeFields ty (s.samples c p) (s.samples 1 p))) :
    wfPktEnc c p s = .error (overrunError (errIdx c p idxNA) (s.argWord 0)) := by
  rw [wfPktEnc_legal h1 h2 h3]
  exact if_neg (not_le.2 h)

/-- R206: a waveform record whose size fits its field and not the buffer. -/
theorem wfRecEnc_overrun {s : State} (hc : s.WfConfig) (hv : s.WfValues)
    (hsize : recordSize s.cwfSizeBits.toNat s.wfOut < 2 ^ s.cwfSizeBits.toNat)
    (h : s.bitbufBytes < s.argU 0 + recordSize s.cwfSizeBits.toNat s.wfOut) :
    wfRecEnc s = .error (overrunError noIndex (s.argWord 0)) := by
  rw [wfRecEnc_legal hc hv, if_neg (not_not.2 hsize), if_pos (not_le.2 h)]

/-- R230: a point record whose size fits its field and not the buffer. -/
theorem prEnc_overrun {s : State} (hc : s.PrConfig) (hv : s.PrValues)
    (hsize : recordSize s.cxySizeBits.toNat s.prOut < 2 ^ s.cxySizeBits.toNat)
    (h : s.bitbufBytes < s.argU 0 + recordSize s.cxySizeBits.toNat s.prOut) :
    prEnc s = .error (overrunError noIndex (s.argWord 0)) := by
  rw [prEnc_legal hc hv, if_neg (not_not.2 hsize), if_pos (not_le.2 h)]

/-- R178, R65: a stream that ends before the tag, or before the packet the tag and the width field announce. -/
theorem pktDec_overrun {st : Stream} {refOK : Bool} (r : List Nat) (c p : Nat) {b : Nat}
    (h : st.limit < b + 3 ∨ (typeApplies (bitRead st.mem b 3) refOK ∧
      st.limit < b + rebuiltBits st.mem b (bitRead st.mem b 3))) :
    pktDec st refOK r c p b = .error (overrunError noIndex st.start) := by
  rcases pktDec_cases st refOK r c p b with ⟨-, e⟩ | ⟨h3, hna, -⟩ | ⟨h3, -, ⟨-, e⟩ | ⟨hl, -⟩⟩
  · exact e
  · rcases h with h | ⟨ha, -⟩
    · omega
    · exact absurd ha hna
  · exact e
  · omega

/-- R201: a tag, or the packet it announces, that does not fit. -/
theorem wfPktDec_overrun {c p : Nat} {s : State}
    (h : 8 * s.bitbufBytes < s.argU 0 + 3 ∨ (typeApplies (bitRead s.bitbuf (s.argU 0) 3) (refApplies c (s.present 1 p)) ∧
      8 * s.bitbufBytes < s.argU 0 + rebuiltBits s.bitbuf (s.argU 0) (bitRead s.bitbuf (s.argU 0) 3))) :
    wfPktDec c p s = .error (overrunError noIndex (s.argWord 0)) := by
  have hd : pktDec s.stream (refApplies c (s.present 1 p)) (s.samples 1 p) c p (s.argU 0) =
      .error (overrunError noIndex (s.argWord 0)) := pktDec_overrun _ _ _ h
  unfold wfPktDec
  dsimp only
  rw [hd, bind_error]

/-- R207: a size field that does not fit. -/
theorem wfRecDec_overrun {s : State} (hc : s.WfConfig) (h : 8 * s.bitbufBytes < 8 * s.argU 0 + s.cwfSizeBits.toNat) :
    wfRecDec s = .error (overrunError noIndex (s.argWord 0)) := by
  have ht : take s.stream (8 * s.argU 0) s.cwfSizeBits.toNat = .error (overrunError noIndex (s.argWord 0)) := take_of_gt h
  unfold wfRecDec readWfRecord
  dsimp only
  rw [(wfCfg_ok_iff s).2 hc, bind_ok, ht, bind_error, bind_error]

/-- R231: a size field that does not fit. -/
theorem prDec_overrun {s : State} (hc : s.PrConfig) (h : 8 * s.bitbufBytes < 8 * s.argU 0 + s.cxySizeBits.toNat) :
    prDec s = .error (overrunError noIndex (s.argWord 0)) := by
  have ht : take s.stream (8 * s.argU 0) s.cxySizeBits.toNat = .error (overrunError noIndex (s.argWord 0)) := take_of_gt h
  unfold prDec readPrRecord
  dsimp only
  rw [(prCfg_ok_iff s).2 hc, bind_ok, ht, bind_error, bind_error]

/-- Settles O21: command by command, the effect is an overrun, and an overrun is reported with ARG0. -/
theorem packersRaiseOverrun : Obligations.PackersRaiseOverrun := by
  intro s
  refine ⟨fun w i h hi => exec_of_overrun ?_,
    fun ch pkt ty hc hp h1 h2 h3 h => exec_of_overrun ((effect_wfPktEnc hc hp).trans (wfPktEnc_overrun h1 h2 h3 h)),
    fun hc hv hsize h => exec_of_overrun (i := .wfRecEnc) (wfRecEnc_overrun hc hv hsize h),
    fun hc hv hsize h => exec_of_overrun (i := .prEnc) (prEnc_overrun hc hv hsize h),
    fun ch pkt hc hp h => exec_of_overrun ((effect_wfPktDec hc hp).trans (wfPktDec_overrun h)),
    fun hc h => exec_of_overrun (i := .wfRecDec) (wfRecDec_overrun hc h),
    fun hc h => exec_of_overrun (i := .prDec) (prDec_overrun hc h)⟩
  rcases hi with ⟨rfl | rfl, hw⟩ | ⟨rfl | rfl, hw⟩
  · exact packBits_overrun hw h _
  · exact unpackBits_overrun hw h
  · exact packBits_overrun hw h _
  · exact unpackBits_overrun hw h

end Sys2Proof.Machine
end

section
/-! Proofs of the statements about the encoding (R90 to R94): the fields of an encoded word, each format's round trip,
and what the decoder and the engine do with every word. -/

namespace Sys2Proof

open Sys2Proof.Machine

/-! ### The fields of an encoded word (R90 to R92) -/

@[simp] theorem cmdOp_encode (i : Instr) : cmdOp (encode i) = opcode i := by
  apply BitVec.eq_of_toNat_eq
  have := (opcode i).isLt
  rw [cmdOp_toNat, encode_toNat]
  omega

theorem cmdWidth_encode {i : Instr} {x : BitVec 7} (h : operandByte i = 0#1 ++ x) : cmdWidth (encode i) = x := by
  apply BitVec.eq_of_toNat_eq
  have := (opcode i).isLt
  rw [cmdWidth_toNat, encode_toNat, h, toNat_byteW]
  omega

theorem cmdChannel_encode {i : Instr} {c p : BitVec 4} (h : operandByte i = p ++ c) : cmdChannel (encode i) = c := by
  apply BitVec.eq_of_toNat_eq
  have := (opcode i).isLt
  rw [cmdChannel_toNat, encode_toNat, h, toNat_byteP]
  omega

theorem cmdPacket_encode {i : Instr} {c p : BitVec 4} (h : operandByte i = p ++ c) : cmdPacket (encode i) = p := by
  apply BitVec.eq_of_toNat_eq
  have := (opcode i).isLt
  rw [cmdPacket_toNat, encode_toNat, h, toNat_byteP]
  omega

theorem cmdFlag_encode {i : Instr} {v : BitVec 1} (h : operandByte i = 0#7 ++ v) : cmdFlag (encode i) = v := by
  apply BitVec.eq_of_toNat_eq
  have := (opcode i).isLt
  rw [cmdFlag_toNat, encode_toNat, h, toNat_byteV]
  omega

/-- R91: an operand byte below 2^n leaves the bits of the command word from `8 + n` up clear. -/
theorem reservedClear_encode {i : Instr} {n : Nat} (h : (operandByte i).toNat < 2 ^ n) :
    reservedClear (encode i) (8 + n) := by
  have := (opcode i).isLt
  rw [reservedClear_iff, encode_toNat, Nat.pow_add]
  omega

/-! ### Each format reads back the operands the encoder wrote (R91) -/

theorem formatN_encode {i : Instr} (h : operandByte i = 0#8) : formatN (encode i) i = .ok i :=
  if_pos (reservedClear_encode (n := 0) (by simp [h]))

theorem formatW_encode {i : BitVec 7 → Instr} {x : BitVec 7} (h : operandByte (i x) = 0#1 ++ x) :
    formatW (encode (i x)) i = .ok (i x) := by
  have hr : reservedClear (encode (i x)) 15 :=
    reservedClear_encode (n := 7) (by rw [h, toNat_byteW]; exact x.isLt)
  rw [formatW, if_pos hr, cmdWidth_encode h]

theorem formatP_encode {i : BitVec 4 → BitVec 4 → Instr} {c p : BitVec 4} (h : operandByte (i c p) = p ++ c)
    (hc : channelOk c) (hp : packetOk p) : formatP (encode (i c p)) i = .ok (i c p) := by
  have hr : reservedClear (encode (i c p)) 16 := reservedClear_encode (n := 8) (BitVec.isLt _)
  rw [formatP, cmdChannel_encode h, cmdPacket_encode h, if_neg (not_not.2 hr), if_neg (not_not.2 hc),
    if_neg (not_not.2 hp)]

theorem formatV_encode {i : BitVec 1 → Instr} {v : BitVec 1} (h : operandByte (i v) = 0#7 ++ v) :
    formatV (encode (i v)) i = .ok (i v) := by
  have hr : reservedClear (encode (i v)) 9 :=
    reservedClear_encode (n := 1) (by rw [h, toNat_byteV]; exact v.isLt)
  rw [formatV, if_pos hr, cmdFlag_encode h]

/-! ### The two directions of the round trip -/

/-- Settles O1: the opcode selects the command's row (R93), whose format reads back the operands. -/
theorem decodeAfterEncode : Obligations.DecodeAfterEncode := by
  intro i hi
  unfold decode
  rw [cmdOp_encode]
  cases i
  case bpack32 | bunpack32 | bpack64 | bunpack64 => exact formatW_encode rfl
  case wfPktEnc | wfPktDec =>
    simp only [Instr.wellFormed, Bool.and_eq_true, decide_eq_true_eq] at hi
    obtain ⟨hc, hp⟩ := hi
    exact formatP_encode rfl hc hp
  case setStatus => exact formatV_encode rfl
  all_goals exact formatN_encode rfl

/-- Settles O2: what the decoder answers on a word it accepts. -/
theorem encodeAfterDecode : Obligations.EncodeAfterDecode := by
  intro w i h
  rcases decode_cases w with ⟨j, hj, hwf, he, -⟩ | ⟨⟨e, he⟩, -⟩
  · cases h.symm.trans hj
    exact ⟨he, hwf⟩
  · cases h.symm.trans he

/-! ### Illegal words (R94) -/

/-- R94: the decoder accepts the legal words and no others. -/
theorem exists_decode_iff_legalWord (w : Word) : (∃ i, decode w = .ok i) ↔ legalWord w := by
  rcases decode_cases w with ⟨i, hi, -, -, hl⟩ | ⟨⟨e, he⟩, hl⟩
  · exact ⟨fun _ => hl, fun _ => ⟨i, hi⟩⟩
  · refine ⟨fun ⟨i, hi⟩ => ?_, fun h => absurd h hl⟩
    cases hi.symm.trans he

/-- R94: the engine only reports an illegal word. -/
theorem runWord_of_not_legalWord {w : Word} (h : ¬ legalWord w) (s : State) :
    runWord w s = .next (illegalCommand w s) := by
  rcases decode_cases w with ⟨i, -, -, -, hl⟩ | ⟨⟨e, he⟩, -⟩
  · exact absurd hl h
  · rw [runWord, he]

/-- Settles O3: the abort of an illegal word is ILLEGAL_COMMAND with no field, no index and the word itself. -/
theorem illegalWordsAbort : Obligations.IllegalWordsAbort :=
  fun w => ⟨exists_decode_iff_legalWord w, runWord_of_not_legalWord⟩

/-! ### Words written out -/

/-- R90 to R93: a word decodes to the well-formed command whose word it is. -/
theorem decode_of_encode_eq {i : Instr} {w : Word} (hi : i.wellFormed = true) (h : encode i = w) :
    decode w = .ok i := h ▸ decodeAfterEncode i hi

/-- Settles O4: each word is the word of its command. -/
theorem sampleWordsDecode : Obligations.SampleWordsDecode :=
  ⟨decode_of_encode_eq rfl rfl, decode_of_encode_eq rfl rfl, decode_of_encode_eq rfl rfl,
    decode_of_encode_eq rfl rfl, decode_of_encode_eq rfl rfl⟩

end Sys2Proof
end

section
/-! Proofs of the statements about the bit packers (R120 to R126), and of the frame of the commands that write RES registers
only. -/

namespace Sys2Proof.Machine

/-! ### Frame -/

/-- Settles O12: an effect that writes RES only, or nothing, changes no memory, and an abort changes none either. -/
theorem registerCommandsFrame : Obligations.RegisterCommandsFrame := by
  intro i s t w v hi h
  rcases exec_cases h with ⟨u, hu, rfl⟩ | ⟨e, -, rfl⟩
  · cases effect_shape hu with
    | res | nop => simp
    | pack _ _ hp => rcases hp with ⟨_, rfl⟩ | ⟨_, rfl⟩ <;> simp at hi
    | bounds | pktEnc | pktDec | wfRecEnc | wfRecDec | prEnc | prDec => simp at hi
  · simp

/-! ### NOP -/

/-- Settles O16: the effect of NOP is the state itself. -/
theorem nopOnlyCompletes : Obligations.NopOnlyCompletes := ⟨rfl, fun s => exec_eq .nop s⟩

/-! ### Widths above the maximum -/

theorem packBits_badWidth {max w : Nat} (h : max < w) (v : Nat) (s : State) :
    packBits max w v s = .error (badWidthError w) := by
  rw [packBits_eq, if_pos h]

theorem unpackBits_badWidth {max w : Nat} (h : max < w) (s : State) :
    unpackBits max w s = .error (badWidthError w) := by
  rw [unpackBits_eq, if_pos h]

/-- R264: a command whose effect is a bad width fails with code 4, no field, no index and the width. -/
theorem exec_of_badWidth {i : Instr} {s : State} {w : Nat} (h : effect i s = .error (badWidthError w)) :
    exec i s = .next (s.failedWith 4#8 (encode i) 0xFF#8 0xFFFFFF#24 (BitVec.ofNat 64 w)) := exec_of_error h

/-- Settles O20: the effect of each packer and unpacker is a bad width, whatever ARG0 is. -/
theorem wideWidthRaisesBadWidth : Obligations.WideWidthRaisesBadWidth := by
  intro s w i hi
  refine exec_of_badWidth ?_
  rcases hi with ⟨rfl | rfl, hw⟩ | ⟨rfl | rfl, hw⟩
  · exact packBits_badWidth hw _ s
  · exact unpackBits_badWidth hw s
  · exact packBits_badWidth hw _ s
  · exact unpackBits_badWidth hw s

/-! ### Fields inside the buffer -/

theorem packBits_of_fits {max w : Nat} {s : State} (hw : w ≤ max) (hb : s.argU 0 + w ≤ 8 * s.bitbufBytes) (v : Nat) :
    packBits max w v s =
      .ok ({ s with bitbuf := bitWrite s.bitbuf (s.argU 0) w v }.writeRes [((s.argU 0 + w : Nat) : Int)]) := by
  rw [packBits_eq, if_neg (not_lt.2 hw)]
  exact if_neg (not_lt.2 hb)

theorem unpackBits_of_fits {max w : Nat} {s : State} (hw : w ≤ max) (hb : s.argU 0 + w ≤ 8 * s.bitbufBytes) :
    unpackBits max w s =
      .ok (s.writeRes [(bitRead s.bitbuf (s.argU 0) w : Int), ((s.argU 0 + w : Nat) : Int)]) := by
  rw [unpackBits_eq, if_neg (not_lt.2 hw)]
  exact if_neg (not_lt.2 hb)

/-- R27: the RES registers after a command whose results are natural numbers. -/
theorem resAre_writeRes_natCast (s u : State) (ns : List Nat) (hu : u.res = s.res) :
    resAre s (u.writeRes (ns.map Nat.cast)).succeed (ns.map (BitVec.ofNat 64)) := by
  have h := resAre_writeRes s u (ns.map Nat.cast) hu
  rwa [List.map_map, show wrap64 ∘ Nat.cast = BitVec.ofNat 64 from funext wrap64_natCast] at h

/-- R64: a field's bits after its write, the value's most significant bit first. -/
theorem streamBit_bitWrite_field {bit : Nat → Bool} {v : Nat} (hv : ∀ j, v.testBit j = bit j) (m : Memory 8)
    (b w i : Nat) : streamBit (bitWrite m b w v) i =
      if b ≤ i ∧ i < b + w then bit (w - 1 - (i - b)) else streamBit m i := by
  rw [streamBit_bitWrite]
  by_cases h : b ≤ i ∧ i < b + w
  · rw [if_pos h, if_pos h, hv, show b + w - 1 - i = w - 1 - (i - b) by omega]
  · rw [if_neg h, if_neg h]

/-- R121, R123: what a packer does with a legal width and a field inside the buffer, `bit j` being bit `j` of the packed
value. -/
theorem exec_packer {i : Instr} {s : State} {max w v : Nat} {bit : Nat → Bool} (hi : effect i s = packBits max w v s)
    (hw : w ≤ max) (hb : s.argU 0 + w ≤ 8 * s.bitbufBytes) (hv : ∀ j, v.testBit j = bit j) :
    ∃ t, exec i s = .next t ∧
      t = { s with bitbuf := t.bitbuf, res := t.res, inflight := none, done := true, err := false, code := 0#8 } ∧
      resAre s t [BitVec.ofNat 64 (s.argU 0 + w)] ∧
      ∀ k, streamBit t.bitbuf k =
        if s.argU 0 ≤ k ∧ k < s.argU 0 + w then bit (w - 1 - (k - s.argU 0)) else streamBit s.bitbuf k := by
  refine ⟨_, (exec_eq i s).trans (runCommand_of_ok (hi.trans (packBits_of_fits hw hb v))), rfl, ?_, fun k => ?_⟩
  · exact resAre_writeRes_natCast s _ [s.argU 0 + w] rfl
  · exact streamBit_bitWrite_field hv s.bitbuf (s.argU 0) w k

/-- Settles O17: the packed value is ARG1 cut to 32 bits. -/
theorem pack32WritesField : Obligations.Pack32WritesField := fun s w hw hb =>
  exec_packer (i := .bpack32 w) (bit := ((s.argWord 1).setWidth 32).getLsbD) rfl hw hb fun j => by
    rw [← BitVec.testBit_toNat, BitVec.toNat_setWidth]
    rfl

/-- Settles O18: the packed value is ARG1. -/
theorem pack64WritesField : Obligations.Pack64WritesField := fun s w hw hb =>
  exec_packer (i := .bpack64 w) (bit := (s.argWord 1).getLsbD) rfl hw hb fun _ => rfl

/-- R122, R124: what an unpacker does with a legal width and a field inside the buffer. -/
theorem exec_unpacker {i : Instr} {s : State} {max w : Nat} (hi : effect i s = unpackBits max w s) (hw : w ≤ max)
    (hb : s.argU 0 + w ≤ 8 * s.bitbufBytes) :
    ∃ t, exec i s = .next t ∧ t = { s with res := t.res, inflight := none, done := true, err := false, code := 0#8 } ∧
      resAre s t [BitVec.ofNat 64 (bitRead s.bitbuf (s.argU 0) w), BitVec.ofNat 64 (s.argU 0 + w)] :=
  ⟨_, (exec_eq i s).trans (runCommand_of_ok (hi.trans (unpackBits_of_fits hw hb))), rfl,
    resAre_writeRes_natCast s s [bitRead s.bitbuf (s.argU 0) w, s.argU 0 + w] rfl⟩

/-- Settles O19: the value read is R63's sum. -/
theorem unpackReadsField : Obligations.UnpackReadsField := by
  intro s w hb i hi
  rw [← bitRead_eq_sum]
  rcases hi with ⟨rfl, hw⟩ | ⟨rfl, hw⟩
  · exact exec_unpacker (i := .bunpack32 w) rfl hw hb
  · exact exec_unpacker (i := .bunpack64 w) rfl hw hb

/-! ### The laws of R126 -/

/-- R123: what a successful BPACK64 has checked and written. -/
theorem exec_bpack64_ok {w : BitVec 7} {s t : State} (h : exec (.bpack64 w) s = .next t) (he : t.err = false) :
    w.toNat ≤ 64 ∧ s.argU 0 + w.toNat ≤ 8 * s.bitbufBytes ∧
      t.bitbuf = bitWrite s.bitbuf (s.argU 0) w.toNat (s.argU 1) := by
  obtain ⟨u, hu, rfl⟩ := exec_ok h he
  obtain ⟨hw, hb, rfl⟩ := packBits_ok hu
  exact ⟨hw, hb, rfl⟩

/-- Settles O22: the unpacker reads the bits the packer wrote. -/
theorem packThenUnpackReturnsValue : Obligations.PackThenUnpackReturnsValue := by
  intro s t u w h he harg hbytes hbits
  obtain ⟨hw, hb, ht⟩ := exec_bpack64_ok h he
  have hb0 : u.argU 0 = s.argU 0 := congrArg u64 harg
  have hread : bitRead u.bitbuf (u.argU 0) w.toNat = s.argU 1 % 2 ^ w.toNat := by
    rw [hb0, bitRead_congr hbits, ht, bitRead_bitWrite_self]
  obtain ⟨v, hv, hframe, hres⟩ := exec_unpacker (i := .bunpack64 w) (s := u) rfl hw (by rw [hb0, hbytes]; exact hb)
  have hlt : bitRead u.bitbuf (u.argU 0) w.toNat < 2 ^ 64 :=
    (bitRead_lt ..).trans_le (Nat.pow_le_pow_right (by omega) hw)
  refine ⟨v, hv, by rw [hframe], ?_⟩
  calc (v.resWord 0).toNat
      = bitRead u.bitbuf (u.argU 0) w.toNat % 2 ^ 64 := congrArg BitVec.toNat (hres 0 (by omega))
    _ = s.argU 1 % 2 ^ w.toNat := by rw [Nat.mod_eq_of_lt hlt, hread]

/-- R64: writes to disjoint bit ranges give the same bytes in either order. -/
theorem get_bitWrite_comm (m : Memory 8) {b1 w1 b2 w2 : Nat} (h : b1 + w1 ≤ b2 ∨ b2 + w2 ≤ b1) (v1 v2 a : Nat) :
    (bitWrite (bitWrite m b1 w1 v1) b2 w2 v2).get a = (bitWrite (bitWrite m b2 w2 v2) b1 w1 v1).get a := by
  apply get_eq_of_streamBit
  intro t _
  simp only [streamBit_bitWrite]
  by_cases h1 : b1 ≤ 8 * a + t ∧ 8 * a + t < b1 + w1
  · rw [if_neg (by omega), if_pos h1, if_pos h1]
  · rw [if_neg h1, if_neg h1]

/-- Settles O23: the two orders are the two orders of two disjoint writes. -/
theorem disjointPacksCommute : Obligations.DisjointPacksCommute := by
  intro s t1 t12 t2 t21 w1 w2 a1 a2 h1 h12 h2 h21 e1 e12 e2 e21 hdisj a
  obtain ⟨-, -, hm1⟩ := exec_bpack64_ok h1 e1
  obtain ⟨-, -, hm12⟩ := exec_bpack64_ok h12 e12
  obtain ⟨-, -, hm2⟩ := exec_bpack64_ok h2 e2
  obtain ⟨-, -, hm21⟩ := exec_bpack64_ok h21 e21
  rw [hm12, hm21, hm1, hm2]
  exact get_bitWrite_comm s.bitbuf hdisj _ _ a

/-- R64: only the low `w` bits of the value are written. -/
theorem bitWrite_mod (m : Memory 8) (b w v : Nat) : bitWrite m b w (v % 2 ^ w) = bitWrite m b w v := by
  induction w generalizing v with
  | zero => rfl
  | succ w ih =>
    have hhalf : v % 2 ^ (w + 1) / 2 = v / 2 % 2 ^ w := by
      rw [Nat.pow_succ', Nat.mod_mul_right_div_self]
    rw [bitWrite, hhalf, ih, Nat.testBit_mod_two_pow, decide_eq_true w.succ_pos, Bool.true_and, bitWrite]

/-- R64: a write is a write of its first `w1` bits and then one of the rest. -/
theorem bitWrite_add (m : Memory 8) (b w1 w2 v : Nat) :
    bitWrite m b (w1 + w2) v = bitWrite (bitWrite m b w1 (v / 2 ^ w2)) (b + w1) w2 v := by
  induction w2 generalizing v with
  | zero => rw [Nat.pow_zero, Nat.div_one]; rfl
  | succ w2 ih =>
    rw [← Nat.add_assoc, bitWrite, ih, bitWrite, Nat.div_div_eq_div_mul, ← Nat.pow_succ', Nat.add_assoc]

/-- R126: two adjacent writes are one write of the concatenated value. -/
theorem bitWrite_append (m : Memory 8) (b w1 w2 v1 v2 : Nat) :
    bitWrite (bitWrite m b w1 v1) (b + w1) w2 v2 = bitWrite m b (w1 + w2) (v1 * 2 ^ w2 + v2 % 2 ^ w2) := by
  have hpos : 0 < 2 ^ w2 := Nat.two_pow_pos w2
  have hhigh : (v1 * 2 ^ w2 + v2 % 2 ^ w2) / 2 ^ w2 = v1 := by
    rw [Nat.mul_comm, Nat.mul_add_div hpos, Nat.div_eq_of_lt (Nat.mod_lt _ hpos), Nat.add_zero]
  have hlow : (v1 * 2 ^ w2 + v2 % 2 ^ w2) % 2 ^ w2 = v2 % 2 ^ w2 := by
    rw [Nat.mul_add_mod_self_right, Nat.mod_mod]
  rw [bitWrite_add, hhigh, ← bitWrite_mod _ (b + w1) w2 (_ + _), hlow, bitWrite_mod]

/-- Settles O24: the second field starts where the first one ends. -/
theorem adjacentPacksConcatenate : Obligations.AdjacentPacksConcatenate := by
  intro s t1 t2 t w1 w2 w a1 a2 a hw _ _ hstart hbase hval h1 h2 h e1 e2 e k
  obtain ⟨-, -, hm1⟩ := exec_bpack64_ok h1 e1
  obtain ⟨-, -, hm2⟩ := exec_bpack64_ok h2 e2
  obtain ⟨-, -, hm⟩ := exec_bpack64_ok h e
  simp only [State.argU, State.argWord, u64, hw, hstart, hbase, hval] at hm1 hm2 hm
  rw [hm2, hm, hm1, bitWrite_append]

end Sys2Proof.Machine
end

section
/-! Proofs of the statements about the geodetic commands (R150 to R155): the effect of each command under legal
configuration, from which its outcomes follow, and the round trips. -/

namespace Sys2Proof.Machine

/-! ### Outcomes -/

/-- R27, R260: a command whose effect is a list of RES writes completes with them and leaves everything else alone. A
width is stated as a `BitVec.ofNat` in the obligations, which is its `wrap64` by computation. -/
theorem exec_of_writeRes {i : Instr} {s : State} {zs : List Int} (h : effect i s = .ok (s.writeRes zs)) :
    ∃ t, exec i s = .next t ∧
      t = { s with res := t.res, inflight := none, done := true, err := false, code := 0#8 } ∧
      resAre s t (zs.map wrap64) :=
  ⟨_, (exec_eq i s).trans (runCommand_of_ok h), rfl, resAre_writeRes s s zs rfl⟩

/-- R264: a command whose effect is a value out of range fails with code 1 and the offending word. -/
theorem exec_of_range {i : Instr} {s : State} {field : BitVec 8} {ix : BitVec 24} {info : Word}
    (h : effect i s = .error (rangeError field ix info)) :
    exec i s = .next (s.failedWith 1#8 (encode i) field ix info) := exec_of_error h

/-- R26, R27: a number passed on from RES0 of one command to ARG0 of another. -/
theorem argU_zero_of_result {s u : State} {p : Nat} {zs : List Int}
    (h : u.argWord 0 = (s.writeRes (p :: zs)).succeed.resWord 0) (hp : p < 2 ^ 64) : u.argU 0 = p := by
  rw [State.argU, h, resAre_writeRes s s _ rfl 0 (by omega)]
  exact u64_wrap64 hp

/-! ### Legal configuration (R141) -/

theorem geoCfg_of_scale {s : State} (hS : s.scaleLegal) : geoCfg false s = .ok () :=
  (geoCfg_ok_iff false s).2 ⟨hS, Bool.noConfusion⟩

theorem geoCfg_of_config {s : State} (hS : s.scaleLegal) (hB : s.lonBaseLegal) : geoCfg true s = .ok () :=
  (geoCfg_ok_iff true s).2 ⟨hS, fun _ => hB⟩

/-! ### GEO_MODE -/

theorem geoMode_of_config {s : State} (hS : s.scaleLegal) (hB : s.lonBaseLegal) :
    let mode := lonMode s.scale s.lonBase (s.argS 0)
    geoMode s = .ok (s.writeRes [latBand s.scale (s.argS 0), mode.width, mode.full.toNat, mode.crossed]) := by
  rw [geoMode, geoCfg_of_config hS hB, bind_ok]

/-- R143: with a positive divisor the quotient is the floor. -/
theorem latBand_eq_fdiv (S : Nat) (plat : Int) : latBand S plat = min (max (Int.fdiv plat S + 90) 0) 179 := by
  rw [latBand, Int.fdiv_eq_ediv_of_nonneg _ (Int.natCast_nonneg S)]

/-- R150: the words GEO_MODE reports for a band and a mode. -/
def LonMode.words (mode : LonMode) (band : Word) : List Word :=
  [band, BitVec.ofNat 64 mode.width, BitVec.ofNat 64 mode.full.toNat, BitVec.ofNat 64 mode.crossed]

/-- R145: the reported words, by the greatest threshold that |plat| has reached. -/
theorem lonMode_words (S B : Nat) (plat : Int) (band : Word) : (lonMode S B plat).words band =
    if 86 * S ≤ plat.natAbs then [band, BitVec.ofNat 64 (wPos S), 1#64, 4#64]
    else if 82 * S ≤ plat.natAbs then [band, BitVec.ofNat 64 (B + 3), 0#64, 3#64]
    else if 75 * S ≤ plat.natAbs then [band, BitVec.ofNat 64 (B + 2), 0#64, 2#64]
    else if 60 * S ≤ plat.natAbs then [band, BitVec.ofNat 64 (B + 1), 0#64, 1#64]
    else [band, BitVec.ofNat 64 B, 0#64, 0#64] := by
  unfold lonMode
  dsimp only
  split_ifs <;> rfl

/-- Settles O26: the results are the band and the mode's words. -/
theorem geoModeResult : Obligations.GeoModeResult := by
  intro s hS hB hB'
  simp only [← lonMode_words, ← latBand_eq_fdiv]
  exact exec_of_writeRes (i := .geoMode) (geoMode_of_config hS ⟨hB, hB'⟩)

/-! ### Latitudes -/

theorem geoLatEnc_of_fits {s : State} (hS : s.scaleLegal) (h : latFits s.scale (s.argS 0)) :
    geoLatEnc s = .ok (s.writeRes [s.argS 0 + 90 * s.scale, wPos s.scale]) := by
  rw [geoLatEnc, geoCfg_of_scale hS, bind_ok, latEnc_of_fits h, bind_ok, Int.toNat_of_nonneg h.1]

theorem geoLatEnc_of_not_fits {s : State} (hS : s.scaleLegal) (h : ¬ latFits s.scale (s.argS 0)) :
    geoLatEnc s = .error (rangeError 42#8 noIndex (s.argWord 0)) := by
  rw [geoLatEnc, geoCfg_of_scale hS, bind_ok, latEnc_of_not_fits h, bind_error, State.argS, wrap64_s64]

/-- R151: what a successful GEO_LAT_ENC has checked and packed. -/
theorem geoLatEnc_ok {s t : State} (h : geoLatEnc s = .ok t) :
    s.scaleLegal ∧ ∃ p, latEnc s.scale (s.argS 0) 42#8 noIndex = .ok p ∧
      t = s.writeRes [(p : Int), wPos s.scale] := by
  obtain ⟨_, hcfg, h⟩ := bind_eq_ok h
  obtain ⟨p, hp, h⟩ := bind_eq_ok h
  cases h
  exact ⟨((geoCfg_ok_iff _ _).1 hcfg).1, p, hp, rfl⟩

theorem geoLatDec_of_config {s : State} (hS : s.scaleLegal) :
    geoLatDec s = .ok (s.writeRes [latDec s.scale (s.argU 0 % 2 ^ wPos s.scale), wPos s.scale]) := by
  rw [geoLatDec, geoCfg_of_scale hS, bind_ok]

/-- Settles O27: the offset latitude either fits or is the error. -/
theorem geoLatEncResult : Obligations.GeoLatEncResult :=
  fun _ hS => ⟨fun h => exec_of_writeRes (i := .geoLatEnc) (geoLatEnc_of_fits hS h),
    fun h => exec_of_range (i := .geoLatEnc) (geoLatEnc_of_not_fits hS h)⟩

/-- Settles O28: the only check is that of POS_SCALE. -/
theorem geoLatDecResult : Obligations.GeoLatDecResult :=
  fun _ hS => exec_of_writeRes (i := .geoLatDec) (geoLatDec_of_config hS)

/-- Settles O31: the packed latitude is below 2^W_POS, so the decoder reads it whole. -/
theorem latitudeRoundTrip : Obligations.LatitudeRoundTrip := by
  intro s t u h he hscale harg
  obtain ⟨_, hs, rfl⟩ := exec_ok h he
  obtain ⟨hS, p, hp, rfl⟩ := geoLatEnc_ok hs
  obtain ⟨hdec, hlt⟩ := latDec_latEnc hp
  have hSu : u.scale = s.scale := congrArg BitVec.toNat hscale
  have hw : wPos s.scale ≤ 64 := (wPos_le (scale_lt s)).trans (by omega)
  have hpu : u.argU 0 = p := argU_zero_of_result harg (hlt.trans_le (Nat.pow_le_pow_right (by omega) hw))
  obtain ⟨v, hv, hframe, hres⟩ := exec_of_writeRes (i := .geoLatDec) (s := u)
    (geoLatDec_of_config (by rwa [State.scaleLegal, hSu]))
  refine ⟨v, hv, by rw [hframe], ?_⟩
  calc v.resWord 0
      = wrap64 (latDec u.scale (u.argU 0 % 2 ^ wPos u.scale)) := hres 0 (by omega)
    _ = wrap64 (s.argS 0) := by rw [hSu, hpu, Nat.mod_eq_of_lt hlt, hdec]
    _ = s.argWord 0 := wrap64_s64 _

/-! ### Longitudes -/

/-- R144, R146, R147: the value a longitude is packed as, before the range check. -/
def lonPacked (S B : Nat) (val ref plat : Int) : Int :=
  if (lonMode S B plat).full then val + 180 * S else ref - val + 2 ^ ((lonMode S B plat).width - 1)

/-- R147: in both modes the encoder is the range check of the packed value at the mode's width. -/
theorem lonEnc_eq_packUnsigned (S B : Nat) (val ref plat : Int) (fid : BitVec 8) (ix : BitVec 24) :
    lonEnc S B val ref plat fid ix =
      packUnsigned (lonPacked S B val ref plat) (lonMode S B plat).width (rangeError fid ix (wrap64 val)) := by
  unfold lonEnc lonPacked
  dsimp only
  split
  · rw [lonMode_full_width ‹_›, lonFullEnc]
  · rw [lonDeltaEnc, deltaHalf_eq]

/-- R147: the decoder's value, written out by mode. -/
theorem lonDec_eq (S B p : Nat) (ref plat : Int) : lonDec S B p ref plat =
    if (lonMode S B plat).full then (p : Int) - 180 * S
    else ref - ((p : Int) - 2 ^ ((lonMode S B plat).width - 1)) := by
  rw [← deltaHalf_eq]
  rfl

/-- R153, R154: the mode the longitude commands work in, that of the latitude in ARG2. -/
abbrev State.argMode (s : State) : LonMode := lonMode s.scale s.lonBase (s.argS 2)

/-- R153: the value GEO_LON_ENC packs its operands as. -/
abbrev State.argPacked (s : State) : Int := lonPacked s.scale s.lonBase (s.argS 0) (s.argS 1) (s.argS 2)

theorem geoLonEnc_of_fits {s : State} (hS : s.scaleLegal) (hB : s.lonBaseLegal)
    (h : 0 ≤ s.argPacked ∧ s.argPacked < 2 ^ s.argMode.width) :
    geoLonEnc s = .ok (s.writeRes [s.argPacked, s.argMode.width, s.argMode.full.toNat]) := by
  rw [geoLonEnc, geoCfg_of_config hS hB, bind_ok, lonEnc_eq_packUnsigned, packUnsigned_of_fits h.1 h.2,
    bind_ok, Int.toNat_of_nonneg h.1]

theorem geoLonEnc_of_not_fits {s : State} (hS : s.scaleLegal) (hB : s.lonBaseLegal)
    (h : ¬ (0 ≤ s.argPacked ∧ s.argPacked < 2 ^ s.argMode.width)) :
    geoLonEnc s = .error (rangeError 43#8 noIndex (s.argWord 0)) := by
  rw [geoLonEnc, geoCfg_of_config hS hB, bind_ok, lonEnc_eq_packUnsigned, packUnsigned_of_not_fits h,
    bind_error, State.argS, wrap64_s64]

/-- R153: what a successful GEO_LON_ENC has checked and packed. -/
theorem geoLonEnc_ok {s t : State} (h : geoLonEnc s = .ok t) :
    s.scaleLegal ∧ s.lonBaseLegal ∧
      ∃ p, lonEnc s.scale s.lonBase (s.argS 0) (s.argS 1) (s.argS 2) 43#8 noIndex = .ok p ∧
        t = s.writeRes [(p : Int), s.argMode.width, s.argMode.full.toNat] := by
  obtain ⟨_, hcfg, h⟩ := bind_eq_ok h
  obtain ⟨p, hp, h⟩ := bind_eq_ok h
  obtain ⟨hS, hB⟩ := (geoCfg_ok_iff _ _).1 hcfg
  cases h
  exact ⟨hS, hB rfl, p, hp, rfl⟩

theorem geoLonDec_of_config {s : State} (hS : s.scaleLegal) (hB : s.lonBaseLegal) :
    geoLonDec s = .ok (s.writeRes
      [lonDec s.scale s.lonBase (s.argU 0 % 2 ^ s.argMode.width) (s.argS 1) (s.argS 2),
        s.argMode.width, s.argMode.full.toNat]) := by
  rw [geoLonDec, geoCfg_of_config hS hB, bind_ok]

/-- Settles O29: the packed value of the mode either fits or is the error. -/
theorem geoLonEncResult : Obligations.GeoLonEncResult :=
  fun _ hS hB hB' => ⟨fun h => exec_of_writeRes (i := .geoLonEnc) (geoLonEnc_of_fits hS ⟨hB, hB'⟩ h),
    fun h => exec_of_range (i := .geoLonEnc) (geoLonEnc_of_not_fits hS ⟨hB, hB'⟩ h)⟩

/-- Settles O30: the only checks are those of the configuration. -/
theorem geoLonDecResult : Obligations.GeoLonDecResult := by
  intro s hS hB hB'
  simp only [← lonDec_eq]
  exact exec_of_writeRes (i := .geoLonDec) (geoLonDec_of_config hS ⟨hB, hB'⟩)

/-- Settles O32: both commands work in the same mode, and the packed longitude is below 2^W. -/
theorem longitudeRoundTrip : Obligations.LongitudeRoundTrip := by
  intro s t u h he hscale hbase harg href hplat
  obtain ⟨_, hs, rfl⟩ := exec_ok h he
  obtain ⟨hS, hB, p, hp, rfl⟩ := geoLonEnc_ok hs
  obtain ⟨hdec, hlt⟩ := lonDec_lonEnc hp
  have hSu : u.scale = s.scale := congrArg BitVec.toNat hscale
  have hBu : u.lonBase = s.lonBase := congrArg BitVec.toNat hbase
  have hrefu : u.argS 1 = s.argS 1 := congrArg s64 href
  have hplatu : u.argS 2 = s.argS 2 := congrArg s64 hplat
  have hw : s.argMode.width ≤ 64 := lonMode_width_le (scale_lt s) hB.2 _
  have hpu : u.argU 0 = p := argU_zero_of_result harg (hlt.trans_le (Nat.pow_le_pow_right (by omega) hw))
  have hdecode := geoLonDec_of_config (s := u) (by rwa [State.scaleLegal, hSu]) (by rwa [State.lonBaseLegal, hBu])
  rw [State.argMode, hSu, hBu, hrefu, hplatu, hpu, Nat.mod_eq_of_lt hlt, hdec] at hdecode
  obtain ⟨v, hv, hframe, hres⟩ := exec_of_writeRes (i := .geoLonDec) hdecode
  have henc := resAre_writeRes s s [(p : Int), s.argMode.width, s.argMode.full.toNat] rfl
  exact ⟨v, hv, by rw [hframe], (hres 0 (by omega)).trans (wrap64_s64 _),
    (hres 1 (by omega)).trans (henc 1 (by omega)).symm, (hres 2 (by omega)).trans (henc 2 (by omega)).symm⟩

end Sys2Proof.Machine
end

section
/-! Proofs of the statements about waveform packets (R170 to R181, R200, R201): the encoder writes the chosen type and
reports the first bad sample, the decoder reads any acceptable packet, and the two are inverse. -/

namespace Sys2Proof.Machine

/-! ### Encodings -/

/-- Settles O33: the widths, their bounds and the fit of every field, type by type. -/
theorem packetFieldsFit : Obligations.PacketFieldsFit := fun _ _ hs hr =>
  ⟨fieldsWidth_type0 hs.1, ⟨width1_le hs, fieldsWidth_type1 hs.1⟩, ⟨width2_le hs, fieldsWidth_type2 hs.1⟩,
    ⟨width3_le hs hr, fieldsWidth_type3 hs.1 hr.1⟩, fun _ => typeFields_fit hs (.inr hr)⟩

/-! ### Constant packets -/

theorem minInt_replicate (n : Nat) (a : Int) : minInt (List.replicate (n + 1) a) = a :=
  List.eq_of_mem_replicate (minInt_mem (ds := List.replicate (n + 1) a) (by simp))

theorem diffs_replicate (n : Nat) (a : Int) : diffs (List.replicate (n + 1) a) = List.replicate n 0 := by
  induction n with
  | zero => rfl
  | succ n ih =>
    rw [List.replicate_succ] at ih
    rw [List.replicate_succ, List.replicate_succ, diffs, ih, sub_self, List.replicate_succ]

/-- R172 to R174: equal differences are all 0 when offset, and need no bits. -/
theorem deltaWidth_replicate (n : Nat) (a : Int) : deltaWidth (List.replicate (n + 1) a) = 0 := by
  have hmax : maxNat (offsetList (List.replicate (n + 1) a)) ≤ 0 := maxNat_le fun e he => by
    obtain ⟨d, hd, rfl⟩ := List.mem_map.1 he
    rw [List.eq_of_mem_replicate hd, offsetOf, minInt_replicate, add_neg_cancel]
    exact Nat.le_refl 0
  rw [deltaWidth, Nat.le_zero.1 hmax]
  rfl

theorem firstDiffs_replicate (n x : Nat) : firstDiffs (List.replicate (n + 1) x) = List.replicate n 0 := by
  rw [firstDiffs, toInts, List.map_replicate, diffs_replicate]

theorem crossDiffs_replicate (n x y : Nat) :
    crossDiffs (List.replicate n x) (List.replicate n y) = List.replicate n ((x : Int) - y) := by
  rw [crossDiffs, List.zipWith_replicate, Nat.min_self]

theorem fieldsWidth_type1_replicate (x : Nat) : fieldsWidth (type1 (List.replicate 64 x)) = 28 := by
  rw [fieldsWidth_type1 List.length_replicate, firstDiffs_replicate, deltaWidth_replicate]

theorem fieldsWidth_type2_replicate (x : Nat) : fieldsWidth (type2 (List.replicate 64 x)) = 51 := by
  rw [fieldsWidth_type2 List.length_replicate, firstDiffs_replicate, diffs_replicate, deltaWidth_replicate]

theorem fieldsWidth_type3_replicate (x y : Nat) :
    fieldsWidth (type3 (List.replicate 64 x) (List.replicate 64 y)) = 18 := by
  rw [fieldsWidth_type3 List.length_replicate List.length_replicate, crossDiffs_replicate, deltaWidth_replicate]

/-- R177: a chosen type is the one selected. -/
theorem pktSelect_of_typeChosen {t : Nat} {s : List Nat} {r : Option (List Nat)}
    (h : typeChosen t r.isSome s (r.getD [])) : pktSelect s r = (t, typeFields t s (r.getD [])) := by
  obtain ⟨u, hsel, hu⟩ := pktSelect_spec s r
  rw [hsel, typeChosen_unique h hu]

/-- Settles O39: 643, 28, 51 and 18 bits are 81, 4, 7 and 3 bytes. -/
theorem constantPacketIsSmall : Obligations.ConstantPacketIsSmall := by
  have size0 (x : Nat) : packetSize (type0 (List.replicate 64 x)) = 81 := by
    rw [packetSize, fieldsWidth_type0 List.length_replicate, ceil8]
  have size1 (x : Nat) : packetSize (type1 (List.replicate 64 x)) = 4 := by
    rw [packetSize, fieldsWidth_type1_replicate, ceil8]
  have size2 (x : Nat) : packetSize (type2 (List.replicate 64 x)) = 7 := by
    rw [packetSize, fieldsWidth_type2_replicate, ceil8]
  have size3 (x y : Nat) : packetSize (type3 (List.replicate 64 x) (List.replicate 64 y)) = 3 := by
    rw [packetSize, fieldsWidth_type3_replicate, ceil8]
  refine ⟨fun x => ⟨pktSelect_of_typeChosen ⟨.inl (by omega), fun u hu => ?_⟩, fieldsWidth_type1_replicate x, size1 x⟩,
    fun x y => ⟨pktSelect_of_typeChosen ⟨.inr ⟨rfl, rfl⟩, fun u hu => ?_⟩, fieldsWidth_type3_replicate x y, size3 x y⟩⟩
  · rcases hu with hu | ⟨-, hu⟩
    · interval_cases u <;> simp only [typeFields, size0, size1, size2] <;> omega
    · cases hu
  · have hle : u ≤ 3 := by omega
    simp only [Option.getD_some]
    interval_cases u <;> simp only [typeFields, size0, size1, size2, size3] <;> omega

/-! ### The encoder -/


theorem typeFields_fit_of_applies {x r : List Nat} {ty : Nat} {refOK : Bool} (hx : packetLegal x)
    (hlen : r.length = 64) (hr : refOK = true → samplesLegal r) (ht : typeApplies ty refOK) :
    ∀ f ∈ typeFields ty x r, f.2 < 2 ^ f.1 :=
  typeFields_fit hx (ht.imp_right fun h => ⟨hlen, hr h.2⟩)

/-- R200: RES6 is the size of type 3, or all ones where there is no reference. -/
theorem wrap64_size3 (s : State) (c p : Nat) (x : List Nat) : wrap64 (size3 x (s.reference c p)) =
    if refApplies c (s.present 1 p) then BitVec.ofNat 64 (packetSize (type3 x (s.samples 1 p)))
    else 0xFFFFFFFFFFFFFFFF#64 := by
  unfold State.reference
  split
  · exact wrap64_natCast _
  · rfl

/-- R200: the results of WF_PKT_ENC as words, for a packet `x` written as type `ty` in `n` bits. -/
theorem resAre_wfPktEnc (s : State) (m : Memory 8) (c p ty n : Nat) (x : List Nat) :
    resAre s ({ s with bitbuf := m }.writeRes [(ty : Int), (n : Int), ((s.argU 0 + n : Nat) : Int),
        (packetSize (type0 x) : Int), (packetSize (type1 x) : Int), (packetSize (type2 x) : Int),
        size3 x (s.reference c p)]).succeed
      [BitVec.ofNat 64 ty, BitVec.ofNat 64 n, BitVec.ofNat 64 (s.argU 0 + n), BitVec.ofNat 64 (packetSize (type0 x)),
        BitVec.ofNat 64 (packetSize (type1 x)), BitVec.ofNat 64 (packetSize (type2 x)),
        if refApplies c (s.present 1 p) then BitVec.ofNat 64 (packetSize (type3 x (s.samples 1 p)))
        else 0xFFFFFFFFFFFFFFFF#64] := by
  have h := resAre_writeRes s { s with bitbuf := m } [(ty : Int), (n : Int), ((s.argU 0 + n : Nat) : Int),
    (packetSize (type0 x) : Int), (packetSize (type1 x) : Int), (packetSize (type2 x) : Int),
    size3 x (s.reference c p)] rfl
  simpa only [List.map_cons, List.map_nil, wrap64_natCast, wrap64_size3] using h

/-- Settles O34: the chosen type is the one the selection takes, and its fields fit their widths. -/
theorem pktEncWritesSmallest : Obligations.PktEncWritesSmallest := by
  intro s ch pkt ty hc hp c p x r refOK n hx hr ht hb
  have heff := (effect_wfPktEnc hc hp).trans ((wfPktEnc_legal (s := s) hx hr ht).trans (if_pos hb))
  refine ⟨_, (exec_eq _ _).trans (runCommand_of_ok heff), (frame_bitbuf rfl).1, ?_, sameBitsOutside_writeFields _ _ _,
    resAre_wfPktEnc s _ c p ty n x⟩
  exact fieldsAt_writeFields _ _ (typeFields_fit_of_applies ⟨length_samples .., hx⟩ (length_samples ..) hr ht.1)

/-- R180: a sample word above 1023 as ERR_INFO has it. -/
theorem rangeError_sample {s : State} {c p i : Nat} (h : i < 64) (ix : BitVec 24) :
    rangeError 41#8 ix (BitVec.ofNat 64 ((s.samples c p).getD i 0)) =
      rangeError 41#8 ix ((s.smpMem.get (smpAddr c p i)).setWidth 64) := by
  rw [getD_samples s c p h, BitVec.ofNat_toNat]

/-- R180: the packet's own first bad sample. -/
theorem wfPktEnc_badSample {c p i : Nat} {s : State} (hi : i < 64)
    (hgood : ∀ j, j < i → (s.samples c p).getD j 0 ≤ Config.maxSample)
    (hbad : Config.maxSample < (s.samples c p).getD i 0) :
    wfPktEnc c p s = .error (rangeError 41#8 (errIdx c p i) (BitVec.ofNat 64 ((s.samples c p).getD i 0))) := by
  unfold wfPktEnc
  dsimp only
  rw [checkSamples_first (by rwa [length_samples]) hgood hbad, bind_error, Nat.zero_add]

/-- A bound on the sample words of a packet before word `i` is one on its samples. -/
theorem getD_samples_le {s : State} {c p i : Nat} (hi : i ≤ 64)
    (h : ∀ j, j < i → (s.smpMem.get (smpAddr c p j)).toNat ≤ 1023) :
    ∀ j, j < i → (s.samples c p).getD j 0 ≤ Config.maxSample := fun j hj => by
  rw [getD_samples s c p (by omega)]
  exact h j hj

theorem samplesLegal_of_words {s : State} {c p : Nat}
    (h : ∀ j, j < 64 → (s.smpMem.get (smpAddr c p j)).toNat ≤ 1023) : samplesLegal (s.samples c p) := by
  intro x hx
  obtain ⟨j, hj, rfl⟩ := List.mem_map.1 hx
  exact h j (List.mem_range.1 hj)

/-- Settles O35: the two checks of R200, the packet's own before the reference's. -/
theorem pktEncRejectsFirstBadSample : Obligations.PktEncRejectsFirstBadSample := by
  intro s ch pkt i hc hp hi word
  have bad {c : Nat} (h : 1023 < (word c i).toNat) : Config.maxSample < (s.samples c pkt.toNat).getD i 0 := by
    rw [getD_samples s c _ hi]
    exact h
  have fails {c : Nat} (h : wfPktEnc ch.toNat pkt.toNat s = .error (rangeError 41#8 (errIdx c pkt.toNat i)
      (BitVec.ofNat 64 ((s.samples c pkt.toNat).getD i 0)))) :
      exec (.wfPktEnc ch pkt) s = .next (s.failedWith 1#8 (encode (.wfPktEnc ch pkt)) 41#8
        (errIdx c pkt.toNat i) ((word c i).setWidth 64)) :=
    exec_of_range ((effect_wfPktEnc hc hp).trans (rangeError_sample hi _ ▸ h))
  refine ⟨fun hgood hbad => fails (wfPktEnc_badSample hi (getD_samples_le hi.le hgood) (bad hbad)), ?_⟩
  intro h2 h7 hpres hown hgood hbad
  refine fails (wfPktEnc_badReference (samplesLegal_of_words hown) ?_ hi (getD_samples_le hi.le hgood) (bad hbad))
  simp [refApplies, h2, h7, hpres]

/-! ### The decoder -/

/-- R201: WF_PKT_DEC succeeds in `s` with the samples `x` of a packet of type `ty` and `n` bits, and changes nothing but
the packet's words of SMP, RES0 to RES2 and STATUS. -/
def State.DecodesPacket (s : State) (ch pkt : BitVec 4) (ty : Nat) (x : List Nat) (n : Nat) : Prop :=
  ∃ t, exec (.wfPktDec ch pkt) s = .next t ∧
    t = { s with smpMem := t.smpMem, res := t.res, inflight := none, done := true, err := false, code := 0#8 } ∧
    t.samples ch.toNat pkt.toNat = x ∧
    (∀ a, a < smpAddr ch.toNat pkt.toNat 0 ∨ smpAddr ch.toNat pkt.toNat 0 + 64 ≤ a →
      t.smpMem.get a = s.smpMem.get a) ∧
    resAre s t [BitVec.ofNat 64 ty, BitVec.ofNat 64 n, BitVec.ofNat 64 (s.argU 0 + n)]

/-- R201: storing a packet of 64 samples changes no other word of SMP. -/
theorem get_setRange_packet_outside {x : List Nat} (hx : packetLegal x) (m : Memory 16) {k a : Nat}
    (ha : a < k ∨ k + 64 ≤ a) : (m.setRange k (sampleWords x)).get a = m.get a := by
  rw [Memory.get_setRange, if_neg]
  rw [sampleWords, List.length_map, hx.1]
  omega

theorem decodesPacket_of_pktDec {s : State} {ch pkt : BitVec 4} {ty n : Nat} {x : List Nat} (hc : ch.toNat ≤ 8)
    (hp : pkt.toNat ≤ 13) (hx : packetLegal x)
    (h : pktDec s.stream (refApplies ch.toNat (s.present 1 pkt.toNat)) (s.samples 1 pkt.toNat) ch.toNat pkt.toNat
      (s.argU 0) = .ok ⟨ty, x, s.argU 0 + n⟩) : s.DecodesPacket ch pkt ty x n := by
  have heff : effect (.wfPktDec ch pkt) s =
      .ok ({ s with smpMem := s.smpMem.setRange (smpAddr ch.toNat pkt.toNat 0) (sampleWords x) }.writeRes
        (List.map Nat.cast [ty, n, s.argU 0 + n])) := by
    rw [effect_wfPktDec hc hp, wfPktDec]
    rw [h, bind_ok, Nat.add_sub_cancel_left]
    rfl
  exact ⟨_, (exec_eq _ _).trans (runCommand_of_ok heff), rfl, samples_setRange (s := s) hx rfl,
    fun a => get_setRange_packet_outside hx s.smpMem, resAre_writeRes_natCast s _ _ rfl⟩

/-- R201: what WF_PKT_DEC does where BITBUF holds the fields of a legal packet in an acceptable type. -/
theorem decodesPacket_of_fieldsAt {s : State} {ch pkt : BitVec 4} {ty : Nat} {x : List Nat} (hc : ch.toNat ≤ 8)
    (hp : pkt.toNat ≤ 13) (hx : packetLegal x) (ht : typeApplies ty (refApplies ch.toNat (s.present 1 pkt.toNat)))
    (hf : fieldsAt s.bitbuf (s.argU 0) (typeFields ty x (s.samples 1 pkt.toNat)))
    (hl : s.argU 0 + fieldsWidth (typeFields ty x (s.samples 1 pkt.toNat)) ≤ 8 * s.bitbufBytes) :
    s.DecodesPacket ch pkt ty x (fieldsWidth (typeFields ty x (s.samples 1 pkt.toNat))) :=
  decodesPacket_of_pktDec hc hp hx (pktDec_fields (st := s.stream) hx (length_samples ..) ht hf hl)

/-- Settles O36: by the fields a type gives, and by the samples the fields rebuild. -/
theorem pktDecReadsPacket : Obligations.PktDecReadsPacket := by
  intro s ch pkt hc hp c p r refOK tag decodes
  refine ⟨fun ty x hx ht hf hl => decodesPacket_of_fieldsAt hc hp hx ht hf hl, fun ht hl hgood => ?_⟩
  obtain ⟨hx, hd⟩ := pktDec_good (st := s.stream) (c := c) (p := p) (fun _ => length_samples ..) ht hl hgood
  exact decodesPacket_of_pktDec hc hp hx hd

/-- R94 point 3: what the operand check of WF_PKT_ENC says. -/
theorem wfPktEnc_operands {ch pkt : BitVec 4} {v : Unit} (h : requireOperands (.wfPktEnc ch pkt) = .ok v) :
    ch.toNat ≤ 8 ∧ pkt.toNat ≤ 13 := by
  have hwf : (decide (channelOk ch) && decide (packetOk pkt)) = true := require_ok h
  rw [Bool.and_eq_true, decide_eq_true_iff, decide_eq_true_iff] at hwf
  exact ⟨Nat.le_of_lt_succ hwf.1, Nat.le_of_lt_succ hwf.2⟩

/-- R200: what a successful WF_PKT_ENC has found and leaves, for a decoder that comes after it. -/
theorem exec_wfPktEnc_ok {ch pkt : BitVec 4} {s t : State} (h : exec (.wfPktEnc ch pkt) s = .next t)
    (he : t.err = false) : ch.toNat ≤ 8 ∧ pkt.toNat ≤ 13 ∧
      t.arg = s.arg ∧ t.bitbufBytes = s.bitbufBytes ∧ t.presence = s.presence ∧ t.smpMem = s.smpMem ∧
      samplesLegal (s.samples ch.toNat pkt.toNat) ∧
      ∃ ty, typeApplies ty (refApplies ch.toNat (s.present 1 pkt.toNat)) ∧
        let fs := typeFields ty (s.samples ch.toNat pkt.toNat) (s.samples 1 pkt.toNat)
        s.argU 0 + fieldsWidth fs ≤ 8 * s.bitbufBytes ∧ fieldsAt t.bitbuf (s.argU 0) fs ∧
        ∃ sizes, resAre s t (BitVec.ofNat 64 ty :: BitVec.ofNat 64 (fieldsWidth fs) ::
          BitVec.ofNat 64 (s.argU 0 + fieldsWidth fs) :: sizes) := by
  obtain ⟨_, heff, rfl⟩ := exec_ok h he
  obtain ⟨_, hops, henc⟩ := bind_eq_ok heff
  obtain ⟨hc, hp⟩ := wfPktEnc_operands hops
  obtain ⟨hx, hr, ty, ⟨ht, -⟩, hl, hu⟩ := wfPktEnc_ok henc
  obtain ⟨hframe, hbuf⟩ := frame_bitbuf (congrArg State.succeed hu)
  refine ⟨hc, hp, by rw [hframe], by rw [hframe], by rw [hframe], by rw [hframe], hx, ty, ht, hl, ?_, _,
    hu ▸ resAre_wfPktEnc s _ _ _ _ _ _⟩
  rw [hbuf]
  exact fieldsAt_writeFields _ _ (typeFields_fit_of_applies ⟨length_samples .., hx⟩ (length_samples ..) hr ht)

/-- Settles O38: the decoder finds the fields of the chosen type where the encoder wrote them. -/
theorem packetRoundTrip : Obligations.PacketRoundTrip := by
  intro s t u ch pkt h he hbuf hbytes harg hpres href
  obtain ⟨hc, hp, hargs, hbytes', hpresence, hsmp, hx, ty, ht, hl, hf, _, hres⟩ := exec_wfPktEnc_ok h he
  have hargu : u.argU 0 = s.argU 0 := by rw [State.argU, harg, State.argWord, hargs]; rfl
  have hpresu : u.present 1 pkt.toNat = s.present 1 pkt.toNat := by rw [hpres, State.present, hpresence]; rfl
  have hrefu : u.samples 1 pkt.toNat = s.samples 1 pkt.toNat := href.trans (samples_congr fun i _ => by rw [hsmp])
  obtain ⟨v, hv, hframe, hsamples, -, hresv⟩ := decodesPacket_of_fieldsAt (s := u) (ty := ty) hc hp
    ⟨length_samples .., hx⟩ (by rw [hpresu]; exact ht) (by rw [hbuf, hargu, hrefu]; exact hf)
    (by rw [hbytes, hbytes', hargu, hrefu]; exact hl)
  rw [hargu, hrefu] at hresv
  exact ⟨v, hv, by rw [hframe], hsamples, (hresv 0 (by omega)).trans (hres 0 (by omega)).symm,
    (hresv 1 (by omega)).trans (hres 1 (by omega)).symm, (hresv 2 (by omega)).trans (hres 2 (by omega)).symm⟩

end Sys2Proof.Machine
end

section
/-! Proof of the statement about what the waveform decoders reject (R178, R179): a tag that does not apply and a rebuilt
sample out of range, of a packet alone (R201) and of the first packet of a record (R207). -/

namespace Sys2Proof.Machine

/-! ### Packets -/

/-- R178: without a reference, the samples rebuilt do not depend on it. -/
theorem rebuilt_of_le_two {t : Nat} (h : t ≤ 2) (m : Memory 8) (b : Nat) (r r' : List Nat) (i : Nat) :
    rebuilt m b t r i = rebuilt m b t r' i := by
  interval_cases t <;> rfl

theorem typeApplies_false_iff (t : Nat) : typeApplies t false ↔ t ≤ 2 := by simp [typeApplies]

/-- R179: a whole tag of a type that does not apply. -/
theorem pktDec_badTag {st : Stream} {refOK : Bool} {b : Nat} (hl : b + 3 ≤ st.limit)
    (h : ¬ typeApplies (bitRead st.mem b 3) refOK) (r : List Nat) (c p : Nat) :
    pktDec st refOK r c p b = .error (tagError c p (bitRead st.mem b 3)) := by
  rcases pktDec_cases st refOK r c p b with ⟨hlt, -⟩ | ⟨-, -, e⟩ | ⟨-, ha, -⟩
  · omega
  · exact e
  · exact absurd ha h

/-- R201: WF_PKT_DEC reports what `pktDec` does. -/
theorem effect_wfPktDec_of_error {s : State} {ch pkt : BitVec 4} {e : CmdError} (hc : ch.toNat ≤ 8) (hp : pkt.toNat ≤ 13)
    (h : pktDec s.stream (refApplies ch.toNat (s.present 1 pkt.toNat)) (s.samples 1 pkt.toNat) ch.toNat pkt.toNat
      (s.argU 0) = .error e) : effect (.wfPktDec ch pkt) s = .error e := by
  rw [effect_wfPktDec hc hp, wfPktDec, h, bind_error]

/-! ### The first packet of a record -/

/-- R205: the stream bit where the bitmap of the record at ARG0 starts. -/
def State.bitmapStart (s : State) : Nat := 8 * s.argU 0 + s.cwfSizeBits.toNat + s.fieldBits 17 + s.fieldBits 18

/-- R63: a bit as a number. -/
theorem bitRead_one (m : Memory 8) (b : Nat) : bitRead m b 1 = (streamBit m b).toNat := by
  simp [bitRead]

/-- R207: WF_REC_DEC reports an error of the first packet of its record, number `n` of the bitmap. -/
theorem wfRecDec_firstPacket {s : State} {n : Nat} {e : CmdError} (hc : s.WfConfig) (hn : n < 126)
    (habsent : ∀ m, m < n → streamBit s.bitbuf (s.bitmapStart + m) = false)
    (hpresent : streamBit s.bitbuf (s.bitmapStart + n) = true) (hl : s.bitmapStart + 126 ≤ 8 * s.bitbufBytes)
    (he : ∀ r, pktDec s.stream false r (slotChannel n) (slotPacket n) (s.bitmapStart + 126) = .error e) :
    wfRecDec s = .error e := by
  have hlim : s.stream.limit = 8 * s.bitbufBytes := rfl
  have hbitmap : takeMany s.stream 1 126 s.bitmapStart =
      .ok ((List.range 126).map fun k => (streamBit s.bitbuf (s.bitmapStart + k)).toNat, s.bitmapStart + 126) := by
    rcases takeMany_reads s.stream 1 125 s.bitmapStart with ⟨-, h⟩ | ⟨h, -⟩
    · simp only [bitRead_one, Nat.one_mul, Nat.mul_one] at h
      exact h
    · omega
  have hbit {m : Nat} (hm : m < 126) :
      ((List.range 126).map fun k => (streamBit s.bitbuf (s.bitmapStart + k)).toNat).getD m 0 =
        (streamBit s.bitbuf (s.bitmapStart + m)).toNat := by
    simp [List.getD_eq_getElem?_getD, hm]
  have hpackets := decPackets_first hn (fun m hm => by rw [hbit (by omega), habsent m hm]; simp)
    (by rw [hbit hn, hpresent]; rfl) he
  unfold State.bitmapStart at hl hbitmap hpackets
  unfold wfRecDec readWfRecord
  dsimp only
  rw [(wfCfg_ok_iff s).2 hc, bind_ok]
  simp (disch := omega) only [take_of_le, bind_ok]
  rw [show Config.nch * Config.maxp = 126 from rfl, hbitmap, bind_ok]
  dsimp only
  rw [hpackets, bind_error, bind_error]

/-! ### What is recorded -/

/-- R264: a command whose effect is a bad tag fails with code 6, field 44, the packet and the tag. -/
theorem exec_of_tagError {i : Instr} {s : State} {c p t : Nat} (h : effect i s = .error (tagError c p t)) :
    exec i s = .next (s.failedWith 6#8 (encode i) 44#8 (BitVec.ofNat 24 (c + 256 * p + 65536 * 255)) (BitVec.ofNat 64 t)) :=
  exec_of_error h

/-- R264: a command whose effect is a rebuilt sample out of range fails with code 7, field 41, the sample's place and
its value. -/
theorem exec_of_badSample {i : Instr} {s : State} {c p k : Nat} {x : Int}
    (h : effect i s = .error ⟨.decodeError, 41#8, errIdx c p k, wrap64 x⟩) :
    exec i s = .next (s.failedWith 7#8 (encode i) 41#8 (BitVec.ofNat 24 (c + 256 * p + 65536 * k)) (BitVec.ofInt 64 x)) :=
  exec_of_error h

/-- Settles O37: a tag that does not apply, or a rebuilt sample out of range, of the packet at ARG0 or of the first
packet of the record there. -/
theorem pktDecRejectsTag : Obligations.PktDecRejectsTag := by
  intro s
  constructor
  · intro ch pkt hc hp hl tag refOK sample
    refine ⟨fun htag => ?_, fun i hi ha hlen hgood hbad => ?_⟩
    · have hna : ¬ typeApplies tag refOK := by
        rcases htag with htag | ⟨htag, hno⟩
        · rintro (ha | ⟨ha, -⟩) <;> omega
        · rintro (ha | ⟨-, ha⟩)
          · omega
          · simp only [refOK, Bool.and_eq_true, decide_eq_true_eq] at ha
            exact hno ha
      exact exec_of_tagError (effect_wfPktDec_of_error hc hp (pktDec_badTag (st := s.stream) hl hna _ _ _))
    · exact exec_of_badSample (effect_wfPktDec_of_error hc hp
        (pktDec_bad (st := s.stream) (fun _ => length_samples ..) ha hlen hi hgood hbad))
  · intro n hn hcfg bits tag sample habsent hpresent hl
    have fails {e : CmdError} := wfRecDec_firstPacket (e := e) hcfg hn habsent hpresent (Nat.le_of_add_right_le hl)
    refine ⟨fun htag => ?_, fun i hi ha hlen hgood hbad => ?_⟩
    · have hna : ¬ typeApplies tag false := by
        rw [typeApplies_false_iff]
        omega
      exact exec_of_tagError (i := .wfRecDec) (fails fun r => pktDec_badTag (st := s.stream) hl hna r _ _)
    · have hsample (r : List Nat) (j : Nat) : rebuilt s.bitbuf (bits + 126) tag r j = sample j :=
        rebuilt_of_le_two ha ..
      refine exec_of_badSample (i := .wfRecDec) (fails fun r => ?_)
      rw [← hsample r i]
      have hgood' : ∀ j, j < i → sampleInRange (rebuilt s.bitbuf (bits + 126) tag r j) := fun j hj => by
        rw [hsample]
        exact hgood j hj
      have hbad' : ¬ sampleInRange (rebuilt s.bitbuf (bits + 126) tag r i) := by
        rw [hsample]
        exact hbad
      exact pktDec_bad (st := s.stream) Bool.noConfusion ((typeApplies_false_iff tag).2 ha) hlen hi hgood' hbad'

end Sys2Proof.Machine
end

section
/-! Proofs of the statements about records: what the record encoders and the decoders leave alone (R201, R206, R207, R230 to
R232), what WF_REC_ENC writes and WF_REC_DEC restores (R205 to R209), and the values that make an encoder fail (R180, R206,
R225, R230). -/

namespace Sys2Proof.Machine

/-! ### What the record encoders and the decoders leave alone -/

/-- A command that writes a record at ARG0, reports its size in RES0, and changes nothing else but the bounds and RES. -/
theorem recordEncoder_frame {s u : State} {bits : Nat} {out : List Field} {b : Bounds} {zs : List Int}
    (hn : Config.legalBitbufBytes s.bitbufBytes) (hb : s.argU 0 + recordSize bits out ≤ s.bitbufBytes)
    (hu : u = { s with
      bitbuf := writeFields s.bitbuf (8 * s.argU 0) (recordFields bits out), bounds := b }.writeRes
        ((recordSize bits out : Int) :: zs)) (h8 : zs.length < 8) :
    sameBytesOutside (s.argU 0) (u.succeed.resWord 0).toNat s.bitbuf u.succeed.bitbuf ∧
      (∀ a, u.succeed.smpMem.get a = s.smpMem.get a) ∧ (∀ a, u.succeed.recMem.get a = s.recMem.get a) ∧
      u.succeed.presence = s.presence ∧ u.succeed.wfTimestamp = s.wfTimestamp ∧ u.succeed.wfScan = s.wfScan ∧
      u.succeed.bounds = b := by
  have hres : (u.succeed.resWord 0).toNat = recordSize bits out := by
    rw [hu, resWord_of_writeRes _ _ _ (by simp) (by simpa using h8)]
    have hle := hn.2
    exact u64_wrap64 (by omega)
  rw [hres]
  subst hu
  exact ⟨sameBytesOutside_record _ _ _ _, fun _ => rfl, fun _ => rfl, rfl, rfl, rfl, rfl⟩

/-- Settles O14: both encoders write their record, and only PR_ENC under APPEND moves the bounds. -/
theorem recordEncodersFrame : Obligations.RecordEncodersFrame := by
  intro i s t hi hn h he
  obtain ⟨u, hu, rfl⟩ := exec_ok h he
  simp only [List.mem_cons, List.not_mem_nil, or_false] at hi
  rcases hi with rfl | rfl
  · obtain ⟨-, -, -, hb, hu⟩ := wfRecEnc_ok hu
    obtain ⟨hbuf, hsmp, hrec, hpres, hts, hscan, hbounds⟩ :=
      recordEncoder_frame (b := s.bounds) hn hb hu Nat.one_lt_ofNat
    exact ⟨hbuf, hsmp, hrec, hpres, hts, hscan, fun _ => hbounds⟩
  · obtain ⟨-, -, -, hb, hu⟩ := prEnc_ok hu
    obtain ⟨hbuf, hsmp, hrec, hpres, hts, hscan, hbounds⟩ := recordEncoder_frame hn hb hu (by simp)
    refine ⟨hbuf, hsmp, hrec, hpres, hts, hscan, fun ha => ?_⟩
    rcases ha with ha | ha
    · cases ha
    · rw [hbounds, ha]
      rfl

/-- R231: a word that a list of writes does not name keeps its value. -/
theorem get_writeRec_of_ne {ws : List (Nat × Word)} {j : Nat} (h : ∀ p ∈ ws, p.1 ≠ j) (m : Memory 64) :
    (writeRec m ws).get j = m.get j := by
  rw [get_writeRec (v := 0#64) (fun p hp e => absurd e (h p hp)), if_neg]
  rintro ⟨p, hp, e⟩
  exact h p hp e

/-- R231: REC words 33 to 39, item 7 of each return slot, and what lies beyond REC are not written. -/
theorem get_readPrRecord_kept {s : State} {pos : Nat} {r : PrRecord} (h : readPrRecord s pos = .ok r) (m : Memory 64)
    {j : Nat} (hj : (33 ≤ j ∧ j ≤ 39) ∨ (40 ≤ j ∧ (j - 40) % 8 = 7) ∨ Config.recWords ≤ j) :
    (writeRec m r.writes).get j = m.get j := by
  obtain ⟨counts, -, hw⟩ := readPrRecord_ok h
  exact get_writeRec_of_ne (fun p hp e => not_reached hj (e ▸ hw p hp)) m

/-- Settles O15: each decoder's writes are its own memory, and an abort changes no memory. -/
theorem decodersFrame : Obligations.DecodersFrame := by
  intro i s t ch pkt hi h
  rcases exec_cases h with ⟨u, hu, rfl⟩ | ⟨e, -, rfl⟩
  · simp only [List.mem_cons, List.not_mem_nil, or_false] at hi
    rcases hi with rfl | rfl | rfl
    · obtain ⟨_, -, hu⟩ := bind_eq_ok hu
      obtain ⟨p, -, hx, -, hu⟩ := wfPktDec_ok hu
      obtain ⟨hframe, hsmp⟩ := frame_smpMem (congrArg State.succeed hu)
      refine ⟨fun _ => by rw [hframe], by rw [hframe], fun _ => ⟨fun _ => by rw [hframe], by rw [hframe], by rw [hframe],
        by rw [hframe], fun a ha => ?_⟩, Instr.noConfusion, Instr.noConfusion⟩
      rw [hsmp]
      exact get_setRange_packet_outside hx s.smpMem ha
    · obtain ⟨-, r, -, -, -, hu⟩ := wfRecDec_ok hu
      have hframe := (frame_waveform (congrArg State.succeed hu)).1
      exact ⟨fun _ => by rw [hframe], by rw [hframe], Instr.noConfusion, fun _ _ => by rw [hframe], Instr.noConfusion⟩
    · obtain ⟨-, r, hr, -, hu⟩ := prDec_ok hu
      obtain ⟨hframe, hrec⟩ := frame_recMem (congrArg State.succeed hu)
      refine ⟨fun _ => by rw [hframe], by rw [hframe], Instr.noConfusion, Instr.noConfusion,
        fun _ => ⟨fun _ => by rw [hframe], by rw [hframe], by rw [hframe], by rw [hframe], fun j hj => ?_⟩⟩
      rw [hrec]
      exact get_readPrRecord_kept hr s.recMem hj
  · simp

/-! ### The waveform record -/

/-- R206: what WF_REC_ENC does with legal configuration and values and a record that fits. -/
theorem exec_wfRecEnc {s : State} (hc : s.WfConfig) (hv : s.WfValues)
    (hsize : recordSize s.cwfSizeBits.toNat s.wfOut < 2 ^ s.cwfSizeBits.toNat)
    (hl : s.argU 0 + recordSize s.cwfSizeBits.toNat s.wfOut ≤ s.bitbufBytes) :
    ∃ t, exec .wfRecEnc s = .next t ∧
      t = { s with bitbuf := t.bitbuf, res := t.res, inflight := none, done := true, err := false, code := 0#8 } ∧
      t.bitbuf = writeFields s.bitbuf (8 * s.argU 0) (recordFields s.cwfSizeBits.toNat s.wfOut) ∧
      resAre s t [BitVec.ofNat 64 (recordSize s.cwfSizeBits.toNat s.wfOut),
        BitVec.ofNat 64 (recordBits s.cwfSizeBits.toNat s.wfOut)] :=
  ⟨_, (exec_eq .wfRecEnc s).trans (runCommand_of_ok (wfRecEnc_of hc hv hsize hl)), (frame_bitbuf rfl).1,
    (frame_bitbuf rfl).2, resAre_writeRes_natCast s _ [_, _] rfl⟩

theorem fieldsAt_wfRecord {s : State} (hv : s.WfValues)
    (hsize : recordSize s.cwfSizeBits.toNat s.wfOut < 2 ^ s.cwfSizeBits.toNat) (m : Memory 8) (b : Nat) :
    fieldsAt (writeFields m b (recordFields s.cwfSizeBits.toNat s.wfOut)) b (recordFields s.cwfSizeBits.toNat s.wfOut) :=
  fieldsAt_writeFields m b (recordFields_fit hsize (wfOut_fit hv))

/-- Settles O40: the record's fields fit their widths, so they are found where they were written. -/
theorem wfRecEncWritesRecord : Obligations.WfRecEncWritesRecord := by
  intro s hc hv bits L size hsize hl
  obtain ⟨t, ht, hframe, hbuf, hres⟩ := exec_wfRecEnc hc hv hsize hl
  refine ⟨t, ht, hframe, ?_, ?_, hres⟩ <;> rw [hbuf]
  · exact fieldsAt_wfRecord hv hsize _ _
  · exact sameBytesOutside_record _ _ _ _

/-- R294: the configuration checks of a waveform record depend on what two states of the same configuration agree in. -/
theorem State.WfConfig.congr {s u : State} (hc : s.WfConfig) (h : s.SameWfConfig u) : u.WfConfig := by
  have hbits (k : Nat) : u.fieldBits k = s.fieldBits k := by rw [State.fieldBits, ← h.bits]; rfl
  exact ⟨h.sizeBits ▸ hc.sizeBits, hbits 17 ▸ hc.bits17, hbits 18 ▸ hc.bits18⟩

/-- R207: the bitmap of a record gives its PRESENCE registers back. -/
theorem ofFn_presenceWord_bitmap (s : State) : (Vector.ofFn fun c : Fin 9 => presenceWord (bitmap s) c.val) = s.presence := by
  ext1 c hc
  rw [Vector.getElem_ofFn, presenceWord_bitmap s hc]
  simp [Vector.getD, hc]

/-- R207: the sample memory a decoder leaves for the record of `s`. -/
def recordSamples (s : State) : Memory 16 := Memory.ofUnits 0 (sampleWords ((List.range 126).map (slotSamples s)).flatten)

/-- R207: everything WF_REC_DEC can do in `u` where BITBUF holds the record of `s` behind some size field. -/
theorem wfRecDec_fields {s u : State} {sizeField : Nat} (hc : s.WfConfig) (hv : s.WfValues) (hs : s.SameWfConfig u)
    (hl : u.argU 0 + recordSize s.cwfSizeBits.toNat s.wfOut ≤ u.bitbufBytes)
    (hf : fieldsAt u.bitbuf (8 * u.argU 0) ((s.cwfSizeBits.toNat, sizeField) :: s.wfOut)) : wfRecDec u =
    if recordSize s.cwfSizeBits.toNat s.wfOut = sizeField then
      .ok ({ u with
        wfTimestamp := s.wfTimestamp, wfScan := s.wfScan, presence := s.presence
        smpMem := recordSamples s }.writeRes ([sizeField, recordBits s.cwfSizeBits.toNat s.wfOut].map Nat.cast))
    else .error ⟨.decodeError, 40#8, noIndex, BitVec.ofNat 64 (recordSize s.cwfSizeBits.toNat s.wfOut)⟩ := by
  have hend : 8 * u.argU 0 + recordBits s.cwfSizeBits.toNat s.wfOut ≤ u.streamBits := by
    have := le_eight_mul_ceil8 (recordBits s.cwfSizeBits.toNat s.wfOut)
    unfold State.streamBits
    unfold recordSize at hl
    omega
  unfold wfRecDec
  dsimp only
  rw [(wfCfg_ok_iff u).2 (hc.congr hs), bind_ok, readWfRecord_fields hv hs hf hend, bind_ok]
  dsimp only
  rw [Nat.add_sub_cancel_left, ofFn_presenceWord_bitmap]
  rw [checkSize, show ceil8 (s.cwfSizeBits.toNat + fieldsWidth s.wfOut) = recordSize s.cwfSizeBits.toNat s.wfOut from rfl]
  by_cases h : recordSize s.cwfSizeBits.toNat s.wfOut = sizeField
  · rw [require_of h, if_pos h]
    rfl
  · rw [require_of_not h, if_neg h]
    rfl

/-- R207: WF_REC_DEC in `u` restores the record of `s`, the samples of its absent packets being 0, and reports `ws`. -/
def State.RestoresRecord (u s : State) (ws : List Word) : Prop :=
  ∃ v, exec .wfRecDec u = .next v ∧
    v = { u with
      presence := s.presence, wfTimestamp := s.wfTimestamp, wfScan := s.wfScan, smpMem := v.smpMem
      res := v.res, inflight := none, done := true, err := false, code := 0#8 } ∧
    resAre u v ws ∧
    ∀ c p, c < 9 → p < 14 → v.samples c p = if s.present c p then s.samples c p else List.replicate 64 0

theorem restoresRecord_of_fieldsAt {s u : State} (hc : s.WfConfig) (hv : s.WfValues) (hs : s.SameWfConfig u)
    (hl : u.argU 0 + recordSize s.cwfSizeBits.toNat s.wfOut ≤ u.bitbufBytes)
    (hf : fieldsAt u.bitbuf (8 * u.argU 0)
      ((s.cwfSizeBits.toNat, recordSize s.cwfSizeBits.toNat s.wfOut) :: s.wfOut)) :
    u.RestoresRecord s [BitVec.ofNat 64 (recordSize s.cwfSizeBits.toNat s.wfOut),
      BitVec.ofNat 64 (recordBits s.cwfSizeBits.toNat s.wfOut)] := by
  have heff := (wfRecDec_fields hc hv hs hl hf).trans (if_pos rfl)
  refine ⟨_, (exec_eq .wfRecDec u).trans (runCommand_of_ok heff), (frame_waveform rfl).1,
    resAre_writeRes_natCast u _ [_, _] rfl, fun c p hcc hpp => ?_⟩
  rw [samples_ofUnits (f := slotSamples s) (fun n => slotSamples_legal hv) rfl hcc hpp, slotSamples,
    (slot_of hpp).1, (slot_of hpp).2]

/-- Settles O41: the size cross-check decides between the record and the error. -/
theorem wfRecDecReadsRecord : Obligations.WfRecDecReadsRecord := by
  intro s u sizeField hc hv hs bits L size hl hf
  refine ⟨fun hsize => ?_, fun hsize => ?_⟩
  · subst hsize
    exact restoresRecord_of_fieldsAt hc hv hs hl hf
  · exact exec_of_error (i := .wfRecDec) ((wfRecDec_fields hc hv hs hl hf).trans (if_neg (Ne.symm hsize)))

/-- Settles O42: the decoder finds the record where the encoder wrote it. -/
theorem wfRecordRoundTrip : Obligations.WfRecordRoundTrip := by
  intro s t u h he hbuf hbytes harg hs
  obtain ⟨_, heff, -⟩ := exec_ok h he
  obtain ⟨hc, hv, hsize, hl, -⟩ := wfRecEnc_ok heff
  obtain ⟨t', ht, hframe, hbuf', hres⟩ := exec_wfRecEnc hc hv hsize hl
  cases h.symm.trans ht
  have hargu : u.argU 0 = s.argU 0 := by rw [State.argU, harg, hframe]; rfl
  have hf := fieldsAt_wfRecord hv hsize s.bitbuf (8 * s.argU 0)
  rw [← hbuf', ← hbuf, ← hargu, recordFields, ← List.cons_append, fieldsAt_append] at hf
  rw [hres 0 (by omega), hres 1 (by omega)]
  exact restoresRecord_of_fieldsAt hc hv hs (by rw [hargu, hbytes, hframe]; exact hl) hf.1

/-! ### What makes an encoder fail -/

/-- R225: what PR_ENC reports of a record's values. -/
theorem prFields_error {s : State} {e : CmdError} (h : prFields s = .error e) : e.kind = .valueOutOfRange := by
  rcases bind_eq_error h with h | ⟨_, -, h⟩
  · exact (checkCounts_error h).1
  rcases bind_eq_error h with h | ⟨_, -, h⟩
  · obtain ⟨_, -, rfl⟩ := encItems_error h
    rfl
  · cases h

/-- R225: values that are not legal make PR_ENC fail with code 1. -/
theorem prEnc_of_not_values {s : State} (hc : s.PrConfig) (hv : ¬ s.PrValues) :
    ∃ field ix info, prEnc s = .error (rangeError field ix info) := by
  cases hf : prFields s with
  | ok out => exact absurd ((prFields_ok_iff hc out).1 hf).1 hv
  | error e =>
    obtain ⟨kind, field, ix, info⟩ := e
    cases prFields_error hf
    exact ⟨field, ix, info, prEnc_of_error hc hf⟩

/-- R225: with legal counts, the first item that does not fit is the one reported. -/
theorem prFields_first {s : State} (hc : s.PrConfig) (hcounts : ∀ c, c < 9 → (s.recWord c).toNat ≤ 4) {n : Nat}
    {it : PrItem} (hn : (prLead ++ prBody s.counts)[n]? = some it)
    (hgood : ∀ m jt, m < n → (prLead ++ prBody s.counts)[m]? = some jt → s.itemFits (s.recWord jt.word) jt.kind)
    (hbad : ¬ s.itemFits (s.recWord it.word) it.kind) :
    prFields s = .error (rangeError it.kind.field it.index (s.recWord it.word)) := by
  unfold prFields
  rw [(checkCounts_ok_iff _ _ _).2 ((counts_le_iff s).2 hcounts), bind_ok, encItems_first hc hn hgood hbad, bind_error]

/-- R206: a timestamp that does not fit. -/
theorem wfFields_badTimestamp {s : State} (h : ¬ s.scalarFits 17 s.wfTimestamp) :
    wfFields s = .error (rangeError 17#8 noIndex s.wfTimestamp) := by
  unfold wfFields
  rw [scalarEnc_of_not_fits h, bind_error]

/-- R206: a scan angle that does not fit, the timestamp being legal. -/
theorem wfFields_badScan {s : State} (hts : s.scalarFits 17 s.wfTimestamp) (h : ¬ s.scalarFits 18 s.wfScan) :
    wfFields s = .error (rangeError 18#8 noIndex s.wfScan) := by
  unfold wfFields
  rw [scalarEnc_of_fits hts, bind_ok, scalarEnc_of_not_fits h, bind_error]

/-- R206: the first sample above 1023 of the present packets, timestamp and scan angle being legal. -/
theorem wfFields_badSample {s : State} {c p i : Nat} (hts : s.scalarFits 17 s.wfTimestamp) (hscan : s.scalarFits 18 s.wfScan)
    (hc : c < 9) (hp : p < 14) (hi : i < 64)
    (hbefore : ∀ c' p', p' < 14 → c' * 14 + p' < c * 14 + p → s.present c' p' = true → samplesLegal (s.samples c' p'))
    (hpres : s.present c p = true) (hgood : ∀ j, j < i → (s.smpMem.get (smpAddr c p j)).toNat ≤ 1023)
    (hbad : 1023 < (s.smpMem.get (smpAddr c p i)).toNat) :
    wfFields s = .error (rangeError 41#8 (errIdx c p i) ((s.smpMem.get (smpAddr c p i)).setWidth 64)) := by
  obtain ⟨hch, hpk⟩ := slot_of (c := c) hp
  have hslots : ∀ m ∈ slots, m < c * 14 + p → s.present (slotChannel m) (slotPacket m) = true →
      samplesLegal (s.samples (slotChannel m) (slotPacket m)) := fun m _ hm =>
    hbefore _ _ (Nat.mod_lt _ (by decide)) (by simp only [slotChannel, slotPacket, Config.maxp]; omega)
  have hrec := recPackets_first (i := i) (mem_slots.2 (show c * 14 + p < 126 by omega)) List.pairwise_lt_range hslots
  rw [hch, hpk, rangeError_sample hi] at hrec
  unfold wfFields
  rw [scalarEnc_of_fits hts, bind_ok, scalarEnc_of_fits hscan, bind_ok,
    hrec hpres hi (getD_samples_le hi.le hgood) (by rw [getD_samples s c p hi]; exact hbad), bind_error]

/-- Settles O45: the first check of an encoder that fails, in record order, the size field's last. -/
theorem prEncRejectsRange : Obligations.PrEncRejectsRange := by
  intro s
  have wfFails {field : BitVec 8} {ix : BitVec 24} {info : Word} (hc : s.WfConfig)
      (h : wfFields s = .error (rangeError field ix info)) :
      exec .wfRecEnc s = .next (s.failedWith 1#8 0x22#64 field ix info) :=
    exec_of_range (i := .wfRecEnc) (wfRecEnc_of_error hc h)
  refine ⟨fun hc hv => ?_, fun n it hc hcounts hn hgood hbad => ?_, fun hc hv hsize => ?_,
    fun hc hts => wfFails hc (wfFields_badTimestamp hts), fun hc hts hscan => wfFails hc (wfFields_badScan hts hscan),
    fun c p i hcc hpp hi hc hts hscan hbefore hpres hgood hbad =>
      wfFails hc (wfFields_badSample hts hscan hcc hpp hi hbefore hpres hgood hbad), fun hc hv hsize => ?_⟩
  · obtain ⟨field, ix, info, h⟩ := prEnc_of_not_values hc hv
    exact ⟨_, exec_of_range (i := .prEnc) h, rfl⟩
  · exact exec_of_range (i := .prEnc) (prEnc_of_error hc (prFields_first hc hcounts hn hgood hbad))
  · exact exec_of_range (i := .prEnc) ((prEnc_legal hc hv).trans (if_pos (not_lt.2 hsize)))
  · exact exec_of_range (i := .wfRecEnc) ((wfRecEnc_legal hc hv).trans (if_pos (not_lt.2 hsize)))

end Sys2Proof.Machine
end

section
/-! Proofs of the statements about point records: what PR_ENC writes and PR_DEC restores (R221, R230, R231, R233), the record's
length (R233), return counts above 4 (R225, R231) and the running bounds (R232, R240); and the status helpers (R241, R242). -/

namespace Sys2Proof.Machine

/-! ### What PR_ENC writes -/

/-- R230, R231: the words both record commands report: size, Wl, full, band. -/
def prReport (s : State) (size : Nat) (plat : Int) : List Word :=
  let mode := lonMode s.scale s.lonBase plat
  [BitVec.ofNat 64 size, BitVec.ofNat 64 mode.width, BitVec.ofNat 64 mode.full.toNat,
    BitVec.ofInt 64 (latBand s.scale plat)]

theorem map_wrap64_prResults (s : State) (size : Nat) (plat : Int) :
    (prResults s size plat).map wrap64 = prReport s size plat := by
  simp only [prResults, List.map_cons, List.map_nil, wrap64_natCast]
  rfl

/-- R230: what PR_ENC does with legal configuration and values and a record that fits. -/
theorem exec_prEnc {s : State} (hc : s.PrConfig) (hv : s.PrValues)
    (hsize : recordSize s.cxySizeBits.toNat s.prOut < 2 ^ s.cxySizeBits.toNat)
    (hl : s.argU 0 + recordSize s.cxySizeBits.toNat s.prOut ≤ s.bitbufBytes) :
    ∃ t, exec .prEnc s = .next t ∧
      t = { s with
        bitbuf := t.bitbuf, bounds := if s.append then s.boundsUpdate else s.bounds, res := t.res
        inflight := none, done := true, err := false, code := 0#8 } ∧
      t.bitbuf = writeFields s.bitbuf (8 * s.argU 0) (recordFields s.cxySizeBits.toNat s.prOut) ∧
      resAre s t (prReport s (recordSize s.cxySizeBits.toNat s.prOut) s.plat) := by
  refine ⟨_, (exec_eq .prEnc s).trans (runCommand_of_ok (prEnc_of hc hv hsize hl)), (frame_bitbuf_bounds rfl).1,
    (frame_bitbuf_bounds rfl).2, ?_⟩
  rw [← map_wrap64_prResults]
  exact resAre_writeRes s _ _ rfl

theorem fieldsAt_prRecord {s : State} (hc : s.PrConfig) (hv : s.PrValues)
    (hsize : recordSize s.cxySizeBits.toNat s.prOut < 2 ^ s.cxySizeBits.toNat) (m : Memory 8) (b : Nat) :
    fieldsAt (writeFields m b (recordFields s.cxySizeBits.toNat s.prOut)) b (recordFields s.cxySizeBits.toNat s.prOut) :=
  fieldsAt_writeFields m b (recordFields_fit hsize (prOut_fit hc hv))

/-- Settles O43: the record's fields fit their widths, so they are found where they were written. -/
theorem prEncWritesRecord : Obligations.PrEncWritesRecord := by
  intro s hc hv bits L size mode hsize hl
  obtain ⟨t, ht, hframe, hbuf, hres⟩ := exec_prEnc hc hv hsize hl
  refine ⟨t, ht, hframe, ?_, ?_, hres⟩ <;> rw [hbuf]
  · exact fieldsAt_prRecord hc hv hsize _ _
  · exact sameBytesOutside_record _ _ _ _

/-! ### What PR_DEC restores -/

theorem lonBase_congr {s u : State} (h : s.SamePrConfig u) : u.lonBase = s.lonBase := by simp only [State.lonBase, h.lonBase]

/-- R294: the configuration checks of a point record depend on what two states of the same configuration agree in. -/
theorem State.PrConfig.congr {s u : State} (hc : s.PrConfig) (h : s.SamePrConfig u) : u.PrConfig := by
  have hbits (k : Nat) : u.fieldBits k = s.fieldBits k := by rw [State.fieldBits, ← h.bits]; rfl
  exact ⟨by simpa only [State.scaleLegal, scale_congr h] using hc.scale,
    by simpa only [State.lonBaseLegal, lonBase_congr h] using hc.lonBase, h.sizeBits ▸ hc.sizeBits,
    fun k hk => hbits k ▸ hc.fieldBits k hk⟩

theorem prReport_congr {s u : State} (h : s.SamePrConfig u) (size : Nat) (plat : Int) :
    prReport u size plat = prReport s size plat := by
  simp only [prReport, scale_congr h, lonBase_congr h]

/-- R231: everything PR_DEC can do in `u` where BITBUF holds the record of `s` behind some size field. -/
theorem prDec_fields {s u : State} {sizeField : Nat} (hc : s.PrConfig) (hv : s.PrValues) (hs : s.SamePrConfig u)
    (hl : u.argU 0 + recordSize s.cxySizeBits.toNat s.prOut ≤ u.bitbufBytes)
    (hf : fieldsAt u.bitbuf (8 * u.argU 0) ((s.cxySizeBits.toNat, sizeField) :: s.prOut)) : prDec u =
    if recordSize s.cxySizeBits.toNat s.prOut = sizeField then
      .ok ({ u with recMem := writeRec u.recMem (recordWrites s) }.writeRes (prResults u sizeField s.plat))
    else .error ⟨.decodeError, 39#8, noIndex, BitVec.ofNat 64 (recordSize s.cxySizeBits.toNat s.prOut)⟩ := by
  have hend : 8 * u.argU 0 + recordBits s.cxySizeBits.toNat s.prOut ≤ u.streamBits := by
    have := le_eight_mul_ceil8 (recordBits s.cxySizeBits.toNat s.prOut)
    unfold State.streamBits
    unfold recordSize at hl
    omega
  unfold prDec
  dsimp only
  rw [(prCfg_ok_iff u).2 (hc.congr hs), bind_ok, readPrRecord_fields hc hv hs hf hend, bind_ok]
  dsimp only
  rw [Nat.add_sub_cancel_left, checkSize,
    show ceil8 (s.cxySizeBits.toNat + fieldsWidth s.prOut) = recordSize s.cxySizeBits.toNat s.prOut from rfl]
  by_cases h : recordSize s.cxySizeBits.toNat s.prOut = sizeField
  · rw [require_of h, if_pos h, bind_ok]
  · rw [require_of_not h, if_neg h, bind_error]

/-- R231, R233: PR_DEC in `u` restores the REC words the point record of `s` holds, clears the unused return slots, leaves
the rest of REC, and reports `ws`. -/
def State.RestoresPointRecord (u s : State) (ws : List Word) : Prop :=
  ∃ v, exec .prDec u = .next v ∧
    v = { u with recMem := v.recMem, res := v.res, inflight := none, done := true, err := false, code := 0#8 } ∧
    resAre u v ws ∧
    ∀ j, v.recWord j =
      if prHolds s.counts j then s.recWord j else if prUnused s.counts j then 0#64 else u.recWord j

theorem restoresPointRecord_of_fieldsAt {s u : State} (hc : s.PrConfig) (hv : s.PrValues) (hs : s.SamePrConfig u)
    (hl : u.argU 0 + recordSize s.cxySizeBits.toNat s.prOut ≤ u.bitbufBytes)
    (hf : fieldsAt u.bitbuf (8 * u.argU 0)
      ((s.cxySizeBits.toNat, recordSize s.cxySizeBits.toNat s.prOut) :: s.prOut)) :
    u.RestoresPointRecord s (prReport s (recordSize s.cxySizeBits.toNat s.prOut) s.plat) := by
  have heff := (prDec_fields hc hv hs hl hf).trans (if_pos rfl)
  refine ⟨_, (exec_eq .prDec u).trans (runCommand_of_ok heff), (frame_recMem rfl).1, ?_, get_recordWrites hv u.recMem⟩
  rw [← prReport_congr hs, ← map_wrap64_prResults]
  exact resAre_writeRes u _ _ rfl

/-- Settles O47: the size cross-check decides between the record and the error. -/
theorem prDecReadsRecord : Obligations.PrDecReadsRecord := by
  intro s u sizeField hc hv hs bits L size mode hl hf
  refine ⟨fun hsize => ?_, fun hsize => ?_⟩
  · subst hsize
    exact restoresPointRecord_of_fieldsAt hc hv hs hl hf
  · exact exec_of_error (i := .prDec) ((prDec_fields hc hv hs hl hf).trans (if_neg (Ne.symm hsize)))

/-- Settles O48: the decoder finds the record where the encoder wrote it. -/
theorem pointRecordRoundTrip : Obligations.PointRecordRoundTrip := by
  intro s t u h he hbuf hbytes harg hs
  obtain ⟨_, heff, -⟩ := exec_ok h he
  obtain ⟨hc, hv, hsize, hl, -⟩ := prEnc_ok heff
  obtain ⟨t', ht, hframe, hbuf', hres⟩ := exec_prEnc hc hv hsize hl
  cases h.symm.trans ht
  have hargu : u.argU 0 = s.argU 0 := by rw [State.argU, harg, hframe]; rfl
  have hf := fieldsAt_prRecord hc hv hsize s.bitbuf (8 * s.argU 0)
  rw [← hbuf', ← hbuf, ← hargu, recordFields, ← List.cons_append, fieldsAt_append] at hf
  rw [hres 0 (by omega), hres 1 (by omega), hres 2 (by omega), hres 3 (by omega)]
  exact restoresPointRecord_of_fieldsAt hc hv hs (by rw [hargu, hbytes, hframe]; exact hl) hf.1

/-! ### The length of a record -/

theorem fieldsWidth_flatMap_range (f : Nat → List Field) (n : Nat) :
    fieldsWidth ((List.range n).flatMap f) = ∑ c ∈ Finset.range n, fieldsWidth (f c) := by
  induction n with
  | zero => rfl
  | succ n ih => simp [List.range_succ, Finset.sum_range_succ, ih]

/-- R221 row 15: the bits of one return. -/
theorem fieldsWidth_prReturn (s : State) (c r : Nat) : fieldsWidth ((prReturn c r).map (itemFieldOf s)) =
    wPos s.scale + (lonMode s.scale s.lonBase s.plat).width + ∑ k ∈ Finset.range 5, s.fieldBits (11 + k) := by
  simp only [prReturn, itemFieldOf, itemWidth, List.map_cons, List.map_nil, fieldsWidth_cons, fieldsWidth_nil,
    Finset.sum_range_succ, Finset.sum_range_zero, Nat.reduceAdd]
  omega

/-- R221 row 15: the bits of a channel with `n` returns. -/
theorem fieldsWidth_prChannel (s : State) (c n : Nat) : fieldsWidth ((prChannel c n).map (itemFieldOf s)) =
    n * (wPos s.scale + (lonMode s.scale s.lonBase s.plat).width + ∑ k ∈ Finset.range 5, s.fieldBits (11 + k)) +
      s.fieldBits 16 := by
  rw [prChannel, List.map_append, fieldsWidth_append, List.map_flatMap, fieldsWidth_flatMap_range]
  simp only [fieldsWidth_prReturn, Finset.sum_const, Finset.card_range, smul_eq_mul]
  rfl

/-- R221 rows 3 to 14: the bits before the first channel. -/
theorem fieldsWidth_prLead_prPlatform (s : State) : fieldsWidth ((prLead ++ prPlatform).map (itemFieldOf s)) =
    (∑ k ∈ Finset.range 11, s.fieldBits k) + 3 * wPos s.scale + (lonMode s.scale s.lonBase s.plat).width := by
  simp only [prLead, prPlatform, List.cons_append, List.nil_append, itemFieldOf, itemWidth, List.map_cons, List.map_nil,
    fieldsWidth_cons, fieldsWidth_nil, Finset.sum_range_succ, Finset.sum_range_zero]
  omega

/-- Settles O44: nine counts, the platform's fields, and the channels one after another. -/
theorem prRecordLength : Obligations.PrRecordLength := by
  intro s
  have hitems : s.prOut = (s.counts.map fun n => (3, n)) ++ ((prLead ++ prPlatform).map (itemFieldOf s) ++
      (List.range 9).flatMap fun c => (prChannel c (s.counts.getD c 0)).map (itemFieldOf s)) := by
    rw [← List.map_flatMap, ← List.map_append, List.append_assoc]
    rfl
  have hchannels : ∀ c ∈ Finset.range 9, fieldsWidth ((prChannel c (s.counts.getD c 0)).map (itemFieldOf s)) =
      (s.recWord c).toNat * (wPos s.scale + (lonMode s.scale s.lonBase s.plat).width +
        ∑ k ∈ Finset.range 5, s.fieldBits (11 + k)) + s.fieldBits 16 := fun c hc => by
    rw [fieldsWidth_prChannel, counts_getD s (Finset.mem_range.1 hc)]
  rw [hitems, fieldsWidth_append, fieldsWidth_append, fieldsWidth_map_const 3 (fun n => n), length_counts,
    fieldsWidth_prLead_prPlatform, fieldsWidth_flatMap_range, Finset.sum_congr rfl hchannels]
  omega

/-! ### Return counts above 4 -/

/-- R225: PR_ENC reports the first count above 4 before it looks at any other value. -/
theorem prFields_badCount {s : State} {c : Nat} (hcc : c < 9) (hgood : ∀ d, d < c → (s.recWord d).toNat ≤ 4)
    (hbad : 4 < (s.recWord c).toNat) : prFields s = .error (rangeError 38#8 (errIdx c idxNA idxNA) (s.recWord c)) := by
  have hfirst : checkCounts .valueOutOfRange 0 s.counts =
      .error ⟨.valueOutOfRange, 38#8, errIdx (0 + c) idxNA idxNA, BitVec.ofNat 64 (s.counts.getD c 0)⟩ :=
    checkCounts_first (by rwa [length_counts]) (fun d hd => by rw [counts_getD s (hd.trans hcc)]; exact hgood d hd)
      (by rw [counts_getD s hcc]; exact hbad)
  rw [counts_getD s hcc, BitVec.ofNat_toNat, BitVec.setWidth_eq, Nat.zero_add] at hfirst
  unfold prFields
  rw [hfirst, bind_error]
  rfl

/-- R231: PR_DEC reports the first count above 4 that it reads. -/
theorem prDec_badCount {s : State} {c : Nat} (hc : s.PrConfig) (hcc : c < 9)
    (hl : 8 * s.argU 0 + s.cxySizeBits.toNat + 3 * c + 3 ≤ 8 * s.bitbufBytes)
    (hgood : ∀ d, d < c → bitRead s.bitbuf (8 * s.argU 0 + s.cxySizeBits.toNat + 3 * d) 3 ≤ 4)
    (hbad : 4 < bitRead s.bitbuf (8 * s.argU 0 + s.cxySizeBits.toNat + 3 * c) 3) :
    prDec s = .error ⟨.decodeError, 38#8, errIdx c idxNA idxNA,
      BitVec.ofNat 64 (bitRead s.bitbuf (8 * s.argU 0 + s.cxySizeBits.toNat + 3 * c) 3)⟩ := by
  have hsize : take s.stream (8 * s.argU 0) s.cxySizeBits.toNat = .ok
      (bitRead s.bitbuf (8 * s.argU 0) s.cxySizeBits.toNat, 8 * s.argU 0 + s.cxySizeBits.toNat) :=
    take_of_le (show _ ≤ 8 * s.bitbufBytes by omega)
  have hfirst := takeCounts_first (st := s.stream) (c := 0) hcc hl hgood hbad
  unfold prDec readPrRecord
  dsimp only
  rw [(prCfg_ok_iff s).2 hc, bind_ok, hsize, bind_ok]
  dsimp only
  rw [show Config.nch = 9 from rfl, hfirst, Nat.zero_add, bind_error, bind_error]
  rfl

/-- Settles O46: both commands check the counts in channel order, before any item. -/
theorem prEncRejectsCountFirst : Obligations.PrEncRejectsCountFirst := fun _ _ hc hcc =>
  ⟨fun hgood hbad => exec_of_range (i := .prEnc) (prEnc_of_error hc (prFields_badCount hcc hgood hbad)),
    fun hl hgood hbad => exec_of_error (i := .prDec) (prDec_badCount hc hcc hl hgood hbad)⟩

/-! ### The running bounds -/

/-- Settles O49: the platform enters the bounds first, then each present return. -/
theorem appendMovesBounds : Obligations.AppendMovesBounds := by
  intro s t h he
  obtain ⟨u, heff, rfl⟩ := exec_ok h he
  obtain ⟨-, -, -, -, rfl⟩ := prEnc_ok heff
  simp only [State.succeed_bounds, State.writeRes_bounds]
  refine ⟨fun ha => by simp [ha], fun ha => ?_⟩
  rw [if_pos ha]
  obtain ⟨hminLat, hmaxLat, hminLon, hmaxLon, hminPlat, hmaxPlat, hminPlon, hmaxPlon⟩ :=
    foldl_addReturn (fun cr => s.recWord (retAddr cr.1 cr.2 0)) (fun cr => s.recWord (retAddr cr.1 cr.2 1))
      (presentReturns s.counts) (s.bounds.addPlatform (s.recWord 11) (s.recWord 12))
  refine ⟨?_, ?_, ?_, ?_, hminLat, hmaxLat, hminLon, hmaxLon⟩
  · exact (congrArg s64 hminPlat).trans (s64_minS _ _)
  · exact (congrArg s64 hmaxPlat).trans (s64_maxS _ _)
  · exact (congrArg s64 hminPlon).trans (s64_minS _ _)
  · exact (congrArg s64 hmaxPlon).trans (s64_maxS _ _)

/-- Settles O50: the sentinels of R240, written out. -/
theorem boundsResetRestoresSentinels : Obligations.BoundsResetRestoresSentinels := ⟨rfl, fun s => exec_eq .boundsReset s⟩

/-! ### The status helpers -/

/-- R241: bit `k` of the status word, set or cleared where the mask has it. -/
theorem getLsbD_setStatusWord (v : BitVec 1) (st mask : Word) {k : Nat} (hk : k < 64) :
    (setStatusWord v st mask).getLsbD k = if mask.getLsbD k then decide (v = 1#1) else st.getLsbD k := by
  unfold setStatusWord
  by_cases hv : v = 1#1
  · rw [if_pos hv, BitVec.getLsbD_or, decide_eq_true hv]
    cases mask.getLsbD k <;> simp
  · rw [if_neg hv, BitVec.getLsbD_and, BitVec.getLsbD_not, decide_eq_true hk, decide_eq_false hv]
    cases mask.getLsbD k <;> simp

/-- R242: a mask meets the status word exactly when some bit is set in both. -/
theorem and_ne_zero_iff_any (st mask : Word) :
    st &&& mask ≠ 0#64 ↔ ((List.range 64).any fun k => st.getLsbD k && mask.getLsbD k) = true := by
  rw [List.any_eq_true]
  constructor
  · intro h
    by_contra hn
    refine h (BitVec.eq_of_getLsbD_eq fun k hk => ?_)
    rw [BitVec.getLsbD_and, BitVec.getLsbD_zero]
    exact Bool.eq_false_iff.2 fun hb => hn ⟨k, List.mem_range.2 hk, hb⟩
  · rintro ⟨k, -, hb⟩ h
    rw [← BitVec.getLsbD_and, h, BitVec.getLsbD_zero] at hb
    cases hb

theorem wrap64_getStatusBit (st mask : Word) : wrap64 (getStatusBit st mask : Int) =
    if (List.range 64).any fun k => st.getLsbD k && mask.getLsbD k then 1#64 else 0#64 := by
  simp only [getStatusBit, ← and_ne_zero_iff_any]
  split_ifs <;> rfl

/-- Settles O51: each helper's effect is one RES write. -/
theorem statusHelpersResult : Obligations.StatusHelpersResult := by
  refine ⟨⟨rfl, rfl, rfl⟩, fun s => ⟨fun v => ?_, ?_⟩⟩
  · obtain ⟨t, ht, hframe, hres⟩ := exec_of_writeRes (i := .setStatus v) (s := s) rfl
    have h0 : t.resWord 0 = setStatusWord v (s.argWord 0) (s.argWord 1) := (hres 0 (by omega)).trans (wrap64_u64 _)
    refine ⟨t, ht, hframe, ?_, fun k hk => ?_⟩
    · rwa [hres 0 (by omega)]
    · rw [h0, getLsbD_setStatusWord v _ _ hk]
  · rw [← wrap64_getStatusBit]
    exact exec_of_writeRes (i := .getStatus) rfl

end Sys2Proof.Machine
end

section
/-! Proofs of the statements about how a command ends (R260 to R262, R269) and about its configuration checks (R265). -/

namespace Sys2Proof.Machine

/-! ### The end of a command -/

/-- R13, R260: on every state a command ends, in success with its effect or in the abort of its error. -/
theorem exec_ends (i : Instr) (s : State) :
    (∃ u, effect i s = .ok u ∧ exec i s = .next u.succeed) ∨
      ∃ e, effect i s = .error e ∧ exec i s = .next (s.abort (encode i) e) := by
  rw [exec_eq]
  cases h : effect i s with
  | ok u => exact .inl ⟨u, rfl, runCommand_ok i s u⟩
  | error e => exact .inr ⟨e, rfl, runCommand_error i s e⟩

/-- Settles O7: an effect keeps the last-error record, an abort writes it with a code of R261. -/
theorem everyCommandCompletes : Obligations.EveryCommandCompletes := by
  intro i s
  rcases exec_ends i s with ⟨u, hu, hexec⟩ | ⟨e, -, hexec⟩
  · refine ⟨_, hexec, rfl, rfl, .inl ?_⟩
    rw [(effect_shape hu).keeps]
    simp
  · obtain ⟨hpos, hle⟩ := errKind_number_bounds e.kind
    exact ⟨_, hexec, rfl, rfl, .inr ⟨rfl, hpos, hle, rfl, rfl⟩⟩

/-- Settles O8: a word that fails ends in an abort of the state it started from. -/
theorem failedCommandChangesOnlyErrors : Obligations.FailedCommandChangesOnlyErrors := by
  intro w s t hrun herr
  rcases runWord_cases hrun with ⟨i, u, -, -, rfl⟩ | ⟨e, -, rfl⟩
  · cases herr
  · rfl

/-! ### Configuration checks -/

/-- R265: makes the listed checks in order; the first that fails raises CONFIG_INVALID with its address. -/
def runChecks : List (Bool × Nat) → Except CmdError Unit
  | [] => .ok ()
  | c :: cs => do
    require (c.1 = true) (configError c.2)
    runChecks cs

theorem runChecks_append (cs ds : List (Bool × Nat)) :
    runChecks (cs ++ ds) = (do runChecks cs; runChecks ds) := by
  induction cs with
  | nil => rfl
  | cons c cs ih =>
    rw [List.cons_append, runChecks, runChecks, ih]
    cases require (c.1 = true) (configError c.2) <;> rfl

/-- The first check that fails is the one reported, whatever the later ones say. -/
theorem runChecks_of_first_failed {cs : List (Bool × Nat)} {n : Nat} (hn : n < cs.length)
    (hpass : ∀ m, m < n → (cs.getD m (true, 0)).1 = true) (hfail : (cs.getD n (true, 0)).1 = false) :
    runChecks cs = .error (configError (cs.getD n (true, 0)).2) := by
  induction cs generalizing n with
  | nil => cases hn
  | cons c cs ih =>
    rw [runChecks]
    cases n with
    | zero =>
      have hc : ¬ c.1 = true := ne_true_of_eq_false hfail
      rw [require_of_not hc, bind_error, List.getD_cons_zero]
    | succ n =>
      have hc : c.1 = true := hpass 0 n.succ_pos
      rw [require_of hc, bind_ok, List.getD_cons_succ]
      exact ih (Nat.lt_of_succ_lt_succ hn) (fun m hm => hpass (m + 1) (Nat.succ_lt_succ hm)) hfail

theorem require_congr {p q : Prop} [Decidable p] [Decidable q] (h : p ↔ q) (e : CmdError) : require p e = require q e := by
  unfold require
  simp only [h]

/-- R265: one row entry is a check of its condition. -/
theorem runChecks_cons_decide (p : Prop) [Decidable p] (addr : Nat) (cs : List (Bool × Nat)) :
    runChecks ((decide p, addr) :: cs) = (do require p (configError addr); runChecks cs) := by
  rw [runChecks, require_congr decide_eq_true_iff]

theorem runChecks_singleton_decide (p : Prop) [Decidable p] (addr : Nat) :
    runChecks [(decide p, addr)] = require p (configError addr) := by
  rw [runChecks_cons_decide]
  cases require p (configError addr) <;> rfl

/-- R32: the field-width checks of a row. -/
theorem requireFieldBits_eq_runChecks (s : State) (ks : List Nat) : requireFieldBits s ks =
    runChecks (ks.map fun k => (decide (s.fieldBits k ≤ 64), 0x1000 + 16 * k)) := by
  induction ks with
  | nil => rfl
  | cons k ks ih => rw [requireFieldBits, List.map_cons, runChecks_cons_decide, ih]

/-- R28, R141: POS_SCALE holds 32 bits, so only 0 is illegal. -/
theorem require_scale (s : State) (e : CmdError) :
    require (1 ≤ s.scale ∧ s.scale ≤ 2 ^ 32 - 1) e = require (1 ≤ s.scale) e :=
  require_congr ⟨And.left, fun h => ⟨h, Nat.le_sub_one_of_lt (scale_lt s)⟩⟩ e

/-- R141: `GeoCfg` with LON_BASE_BITS. -/
theorem geoCfg_true_eq_runChecks (s : State) : geoCfg true s = runChecks (configChecks .geoMode s) := by
  rw [geoCfg, require_scale, require_congr (forall_prop_of_true rfl), configChecks, runChecks_cons_decide,
    runChecks_singleton_decide]

/-- R141: `GeoCfg` without LON_BASE_BITS. -/
theorem geoCfg_false_eq_runChecks (s : State) : geoCfg false s = runChecks (configChecks .geoLatEnc s) := by
  rw [geoCfg, require_scale, require_of Bool.noConfusion, configChecks, runChecks_cons_decide]
  rfl

/-- R206: `WfCfg`. -/
theorem wfCfg_eq_runChecks (s : State) : wfCfg s = runChecks (configChecks .wfRecEnc s) := by
  rw [wfCfg, requireFieldBits_eq_runChecks, requireSizeBits, configChecks, runChecks_cons_decide]
  rfl

/-- R224: `PrCfg`. -/
theorem prCfg_eq_runChecks (s : State) : prCfg s = runChecks (configChecks .prEnc s) := by
  rw [prCfg, requireFieldBits_eq_runChecks, geoCfg_true_eq_runChecks, requireSizeBits, ← runChecks_cons_decide,
    ← runChecks_append]
  rfl

/-- R265: a command makes the checks of its row, in the row's order. -/
theorem effectConfig_eq_runChecks (i : Instr) (s : State) : effectConfig i s = runChecks (configChecks i s) := by
  cases i with
  | geoMode => exact geoCfg_true_eq_runChecks s
  | geoLonEnc => exact geoCfg_true_eq_runChecks s
  | geoLonDec => exact geoCfg_true_eq_runChecks s
  | geoLatEnc => exact geoCfg_false_eq_runChecks s
  | geoLatDec => exact geoCfg_false_eq_runChecks s
  | wfRecEnc => exact wfCfg_eq_runChecks s
  | wfRecDec => exact wfCfg_eq_runChecks s
  | prEnc => exact prCfg_eq_runChecks s
  | prDec => exact prCfg_eq_runChecks s
  | _ => rfl

theorem bind_of_error {α β : Type} {x : Except CmdError α} {e : CmdError} (h : x = .error e)
    (f : α → Except CmdError β) : (x >>= f) = .error e := by
  rw [h, bind_error]

/-- R265: a command checks its configuration "before it reads any other operand", so a failed check is its error. -/
theorem effect_of_config_error {i : Instr} {s : State} {e : CmdError} (h : effectConfig i s = .error e) :
    effect i s = .error e := by
  cases i with
  | geoMode => exact bind_of_error h _
  | geoLonEnc => exact bind_of_error h _
  | geoLonDec => exact bind_of_error h _
  | geoLatEnc => exact bind_of_error h _
  | geoLatDec => exact bind_of_error h _
  | wfRecEnc => exact bind_of_error h _
  | wfRecDec => exact bind_of_error h _
  | prEnc => exact bind_of_error h _
  | prDec => exact bind_of_error h _
  | _ => cases h

/-- R261: 5 is the number of CONFIG_INVALID alone. -/
theorem errKind_number_ne_five {k : ErrKind} (h : k ≠ .configInvalid) : k.number ≠ 5#8 := by
  cases k with
  | configInvalid => exact absurd rfl h
  | _ => decide

/-- R265: a command whose row passes does not end with code 5. -/
theorem exec_code_ne_five {i : Instr} {s : State} (hc : ∀ c ∈ configChecks i s, c.1 = true) :
    ∃ t, exec i s = .next t ∧ t.code ≠ 5#8 := by
  rcases exec_ends i s with ⟨u, -, hexec⟩ | ⟨e, herr, hexec⟩
  · exact ⟨_, hexec, by simp⟩
  · exact ⟨_, hexec, errKind_number_ne_five (effect_error_kind herr hc)⟩

/-- Settles O9: the row's checks come first and in order, and no other error is CONFIG_INVALID. -/
theorem configInvalidNamesRegister : Obligations.ConfigInvalidNamesRegister := by
  intro s i _
  constructor
  · intro n hn hpass hfail
    have hcfg := (effectConfig_eq_runChecks i s).trans (runChecks_of_first_failed hn hpass hfail)
    exact exec_of_error (effect_of_config_error hcfg)
  · intro hall
    refine exec_code_ne_five fun c hc => ?_
    obtain ⟨n, hn, rfl⟩ := List.mem_iff_getElem.1 hc
    rw [← List.getD_eq_getElem _ (true, 0) hn]
    exact hall n hn

end Sys2Proof.Machine
end

section
/-! Proofs of the statements about reset and completion: every register's value after power-on (R290, R292), the soft reset
(R291), and that a host that keeps the BUSY contract sees the command end (R72, R297). -/

namespace Sys2Proof.Machine

/-! ### Completion -/

/-- R24, R260: whatever the word, executing it ends with BUSY = 0 and DONE = 1. -/
theorem runWord_completes (w : Word) (s : State) : ∃ t, runWord w s = .next t ∧ t.busy = false ∧ t.done = true := by
  by_cases hl : legalWord w
  · obtain ⟨i, hi⟩ := (exists_decode_iff_legalWord w).2 hl
    obtain ⟨t, hexec, hbusy, hdone, -⟩ := everyCommandCompletes i s
    exact ⟨t, (runWord_of_decode hi s).trans hexec, hbusy, hdone⟩
  · exact ⟨_, runWord_of_not_legalWord hl s, rfl, rfl⟩

/-- R72: every pending action of the host keeps the BUSY contract. -/
def State.HostRespectsBusy (s : State) : Prop := ∀ op ∈ s.script, respectsBusy op = true

theorem writeStatus_inflight (s : State) (v : Word) : (writeStatus s v).inflight = s.inflight := by
  unfold writeStatus
  split <;> rfl

theorem writeStatus_script (s : State) (v : Word) : (writeStatus s v).script = s.script := by
  unfold writeStatus
  split <;> rfl

/-- R72: an action that keeps the BUSY contract is never refused, leaves the command in flight alone, and adds to the
script at most itself (a WAIT that finds DONE = 0 stays, log 9). -/
theorem hostAct_of_respectsBusy {op : HostOp} (hop : respectsBusy op = true) {s : State} (h : s.HostRespectsBusy) :
    ∃ t, hostAct s op = .next t ∧ t.inflight = s.inflight ∧ t.HostRespectsBusy := by
  cases op with
  | write wd a v =>
    obtain ⟨rfl, rfl⟩ := of_decide_eq_true hop
    refine ⟨_, busWrite_status s v, writeStatus_inflight s v, ?_⟩
    rw [State.HostRespectsBusy, writeStatus_script]
    exact h
  | read wd a =>
    obtain ⟨rfl, rfl⟩ := of_decide_eq_true hop
    exact ⟨_, busRead_status s, rfl, h⟩
  | wait =>
    cases hd : s.done with
    | true => exact ⟨_, rfl, rfl, by simpa [State.HostRespectsBusy, hd] using h⟩
    | false => exact ⟨_, rfl, rfl, by simpa [State.HostRespectsBusy, hd, hop] using h⟩
  | check =>
    cases he : s.err with
    | true => exact ⟨_, rfl, rfl, by simp [State.HostRespectsBusy, he]⟩
    | false => exact ⟨_, rfl, rfl, by simpa [State.HostRespectsBusy, he] using h⟩

/-- R72, R277: the host's turn, its next action or none. -/
theorem hostTurn_of_respectsBusy {s : State} (h : s.HostRespectsBusy) :
    ∃ t, hostTurn s = .next t ∧ t.inflight = s.inflight ∧ t.HostRespectsBusy := by
  cases hs : s.script with
  | nil => exact ⟨s, hostTurn_nil hs, rfl, h⟩
  | cons op rest =>
    rw [State.HostRespectsBusy, hs] at h
    obtain ⟨hop, hrest⟩ := List.forall_mem_cons.1 h
    rw [hostTurn_cons hs]
    exact hostAct_of_respectsBusy (s := { s with script := rest }) hop hrest

/-- R297: a step before the command's time has come lets one unit of it pass. -/
theorem step_waiting {s : State} {w : Word} {n : Nat} (hw : s.inflight = some ⟨w, n + 1⟩) (h : s.HostRespectsBusy) :
    ∃ t, step s = .next t ∧ t.inflight = some ⟨w, n⟩ ∧ t.HostRespectsBusy := by
  obtain ⟨t, hturn, hin, ht⟩ := hostTurn_of_respectsBusy (s := { s with inflight := some ⟨w, n⟩ }) h
  exact ⟨t, step_of_next ((advance_waiting hw).trans hturn), hin, ht⟩

theorem run_succ_of_step {s t : State} (h : step s = .next t) (k : Nat) : core.run (k + 1) s = core.run k t := by
  have hcore : core.step s = .next t := h
  simp only [Host.Core.run, hcore]

/-- R297: after its duration and the step that executes it, the command is complete. -/
theorem run_completes {n : Nat} {w : Word} {s : State} (hw : s.inflight = some ⟨w, n⟩) (h : s.HostRespectsBusy) :
    ∃ t, core.run (n + 1) s = .next t ∧ t.busy = false ∧ t.done = true := by
  induction n generalizing s with
  | zero =>
    obtain ⟨t, hrun, hend⟩ := runWord_completes w s
    exact ⟨t, run_succ_of_step ((step_of_execute (advance_due hw)).trans hrun) 0, hend⟩
  | succ n ih =>
    obtain ⟨u, hstep, hin, hu⟩ := step_waiting hw h
    rw [run_succ_of_step hstep]
    exact ih hin hu

/-- Settles O6: by induction on the steps the command still needs; the host cannot be refused meanwhile. -/
theorem busyAlwaysEnds : Obligations.BusyAlwaysEnds :=
  fun _ _ hf hscript => run_completes hf hscript

/-! ### Power-on -/

/-- A bank of registers that all hold the value read past its end reads it everywhere. -/
theorem getD_replicate {α : Type} (n i : Nat) (v : α) : (Vector.replicate n v).getD i v = v := by
  by_cases hi : i < n <;> simp [Vector.getD, hi]

section
variable (n : Nat) (recs : Memory 64) (smps : Memory 16) (buf : Memory 8)

@[simp] theorem State.ctrl_powerOn : (State.powerOn n recs smps buf).ctrl = 0#64 := by
  simp [State.ctrl_eq, State.powerOn]

@[simp] theorem State.status_powerOn : (State.powerOn n recs smps buf).status = 0#64 := by
  simp [State.status_eq, State.powerOn, State.busy]

@[simp] theorem State.argWord_powerOn (i : Nat) : (State.powerOn n recs smps buf).argWord i = 0#64 := getD_replicate 8 i _

@[simp] theorem State.resWord_powerOn (i : Nat) : (State.powerOn n recs smps buf).resWord i = 0#64 := getD_replicate 8 i _

@[simp] theorem State.fieldBits_powerOn (k : Nat) : (State.powerOn n recs smps buf).fieldBits k = 0 :=
  congrArg BitVec.toNat (getD_replicate 19 k 0#7)

@[simp] theorem State.fieldOffset_powerOn (k : Nat) : (State.powerOn n recs smps buf).fieldOffset k = 0 :=
  congrArg s64 (getD_replicate 19 k 0#64)

@[simp] theorem State.present_powerOn (c p : Nat) : (State.powerOn n recs smps buf).present c p = false := by
  rw [State.present, State.powerOn, getD_replicate, BitVec.getLsbD_zero]

end

/-- Settles O52: a single register is the literal `State.powerOn` gives it, a bank holds its value at every place. -/
theorem powerOnRegisters : Obligations.PowerOnRegisters := by
  intro n recs smps buf s
  have results : ∀ i, i < 8 → s.argWord i = 0#64 ∧ s.resWord i = 0#64 :=
    fun i _ => ⟨State.argWord_powerOn .., State.resWord_powerOn ..⟩
  have fields : ∀ k, k < 19 → s.fieldBits k = 0 ∧ s.fieldOffset k = 0 :=
    fun k _ => ⟨State.fieldBits_powerOn .., State.fieldOffset_powerOn ..⟩
  have presence : ∀ c p, c < 9 → p < 14 → s.present c p = false := fun c p _ _ => State.present_powerOn ..
  exact ⟨State.ctrl_powerOn .., State.status_powerOn .., rfl, rfl, rfl, rfl, rfl, rfl, rfl, results, rfl, rfl, rfl, rfl,
    fields, rfl, presence, rfl, rfl, rfl, rfl, rfl⟩

/-- Settles O59: the memories are the given ones, and every status register is 0. -/
theorem powerOnMeetsInvariant : Obligations.PowerOnMeetsInvariant :=
  fun _ _ _ _ hn hrec hsmp hbuf =>
    { instanceLegal := hn
      recCanonical := hrec
      smpCanonical := hsmp
      bufCanonical := hbuf
      codeLegal := Nat.zero_le _
      errCodeLegal := Nat.zero_le _
      errIffCode := by simp [State.powerOn]
      codeRecorded := fun _ => rfl
      fieldLegal := .inl (Nat.zero_le _)
      busyNotDone := fun _ => rfl }

/-! ### Soft reset -/

/-- R22, R291: a host write of CTRL with SOFT_RESET. -/
theorem writeUnit_ctrl_reset (s : State) {v : Word} (hv : v.getLsbD 2 = true) :
    writeUnit s v .control 1 = .next s.softReset := by
  rw [writeUnit, writeControl, writeCtrl, if_pos hv]

/-- R72: while BUSY, a write to a mapped unit other than STATUS is refused as such. -/
theorem busWrite_busy {s : State} (hs : s.busy = true) {wd : Width} {a : BitVec 32} {k : RegionKind} {i : Nat}
    (ht : target s.bitbufBytes wd a.toNat = .unit k i) (ha : a ≠ 0x018#32) (v : Word) :
    busWrite s wd a v = .refuse .busyAccess := by
  have hf := busyForbids_of_ne_status hs ha s.bitbufBytes wd
  unfold busWrite
  rw [ht] at hf ⊢
  exact if_pos hf

/-- R22: bit 2 of CTRL reads 0. -/
theorem State.ctrl_bit_two (s : State) : s.ctrl.getLsbD 2 = false := by
  rw [State.ctrl, BitVec.getLsbD_append, BitVec.getLsbD_append]
  rfl

/-- Settles O53: CTRL is control register 1, whose write resets when the bus lets it through. -/
theorem softResetKeepsMemories : Obligations.SoftResetKeepsMemories := by
  intro s v rest hs hv
  have hctrl : target s.bitbufBytes .w64 (0x008#32).toNat = .unit .control 1 := target_controlAddr (i := 1) (by decide)
  refine ⟨fun hidle => ?_, fun w n hw => ?_, s.ctrl_bit_two⟩
  · refine step_of_next ((advance_idle hidle).trans ((hostTurn_cons hs).trans ?_))
    exact (busWrite_idle (s := { s with script := rest }) hidle hctrl v).trans (writeUnit_ctrl_reset _ hv)
  · exact step_refused_waiting hw hs
      (busWrite_busy (s := { s with inflight := some ⟨w, n⟩, script := rest }) rfl hctrl (by decide) v)

end Sys2Proof.Machine
end
